-- ==== Sys2Proof/Word.lean ====
section
/-! DEFINITION. The words of the transfer engine: bytes, command words, beats, line levels and the events of the bus
trace (00_scope.md R13, R14). -/

namespace Sys2Proof

/-- A byte of host memory or of a shifter: 8 bits (20_memory.md R61). -/
abbrev Byte := BitVec 8

/-- A command word: 32 bits (30_encoding.md R80). -/
abbrev Word := BitVec 32

/-- One word as the command port presents it: a command word of 32 bits, or W1 of BURST, which a block with `ADDR_WIDTH`
above 32 widens to `ADDR_WIDTH` bits (30_encoding.md R80, R86). Its width is a parameter, so it is a number; lines that
the port does not have are not read (log 2). -/
abbrev PortWord := Nat

/-- One bus-width unit of data. On an 8-bit bus bits 15 to 8 are 0 (log 20). -/
abbrev Beat := BitVec 16

/-- The level of a line, `0` (low) or `1` (high) (00_scope.md R13). -/
inductive Level where
  | low
  | high
deriving DecidableEq, Repr

/-- The three lines of the Strobe Controller (10_state.md R22, R23, R24). -/
inductive Line where
  | cs
  | dc
  | rd
deriving DecidableEq, Repr

/-- An event of the bus trace (00_scope.md R14). -/
inductive Event where
  /-- `Drive(L, v)`: the line was written with this level, changed or not. -/
  | drive (line : Line) (level : Level)
  /-- `WBeat(cs, dc, rd, data)`: one write-strobe pulse. -/
  | wbeat (cs dc rd : Level) (data : Beat)
  /-- `RBeat(cs, dc, rd, data)`: one sampled read beat. -/
  | rbeat (cs dc rd : Level) (data : Beat)
  /-- `Callback`: the completion callback was called. -/
  | callback
deriving DecidableEq, Repr

end Sys2Proof
end

