-- ==== Sys2Proof/Syntax.lean ====
section
/-! DEFINITION. The fourteen operations of the transfer engine (30_encoding.md R83), one constructor per row of
spec/opcode_table.json, their mnemonics and aliases (R91, R92). -/

namespace Sys2Proof

/-- The Engine Mode enumeration (30_encoding.md R98). -/
inductive Mode where
  | idle
  | singleBeatWrite
  | singleBeatRead
  | multiBeatBurst
deriving DecidableEq, Repr

/-- An operation request (30_encoding.md R83). -/
inductive Instr where
  /-- SELCHIP, `selectChip()` (40_strobe.md R111). -/
  | selchip
  /-- DESELCHIP, `deselectChip()` (40_strobe.md R112). -/
  | deselchip
  /-- SELCMD, `selectCommand()` (40_strobe.md R113). -/
  | selcmd
  /-- SELDATA, `selectData()` (40_strobe.md R114). -/
  | seldata
  /-- RDLOW, assert the read strobe (40_strobe.md R115). -/
  | rdlow
  /-- RDHIGH, deassert the read strobe (40_strobe.md R116). -/
  | rdhigh
  /-- INIT, baud selection (41_config.md R131). -/
  | init (sel : BitVec 8)
  /-- CONFIG, reconfigure the engine (41_config.md R133, R135); mode Idle is a reserved encoding (30_encoding.md R90). -/
  | config (mode : Mode)
  /-- WRCMD, `writeCommand(byte)` (42_sync.md R153). -/
  | wrcmd (b : Byte)
  /-- WRDATA, `writeData(byte)` (42_sync.md R154). -/
  | wrdata (b : Byte)
  /-- WRDATA16, `writeData16(word)` (42_sync.md R155). -/
  | wrdata16 (w : BitVec 16)
  /-- RDDATA, `readData() -> byte` (42_sync.md R156). -/
  | rddata
  /-- RDSTATUS, `readStatus() -> byte` (42_sync.md R157). -/
  | rdstatus
  /-- BURST, `beginBurstTransfer(buffer, elementCount, completionCallback)` (43_burst.md R181). The base is a host
  address: `W1`, of 32 bits or of `ADDR_WIDTH` bits where that is more (30_encoding.md R86, log 2). -/
  | burst (cb : Bool) (base : Nat) (count : BitVec 32)
deriving DecidableEq, Repr

/-- The mnemonic of 30_encoding.md R83. -/
def Instr.mnemonic : Instr → String
  | .selchip => "SELCHIP"
  | .deselchip => "DESELCHIP"
  | .selcmd => "SELCMD"
  | .seldata => "SELDATA"
  | .rdlow => "RDLOW"
  | .rdhigh => "RDHIGH"
  | .init _ => "INIT"
  | .config _ => "CONFIG"
  | .wrcmd _ => "WRCMD"
  | .wrdata _ => "WRDATA"
  | .wrdata16 _ => "WRDATA16"
  | .rddata => "RDDATA"
  | .rdstatus => "RDSTATUS"
  | .burst _ _ _ => "BURST"

/-- The number of an Engine Mode (30_encoding.md R98). -/
def Mode.number : Mode → BitVec 2
  | .idle => 0
  | .singleBeatWrite => 1
  | .singleBeatRead => 2
  | .multiBeatBurst => 3

/-- The Engine Mode with a number (30_encoding.md R98). -/
def Mode.ofNumber (m : BitVec 2) : Mode :=
  if m = 0 then .idle
  else if m = 1 then .singleBeatWrite
  else if m = 2 then .singleBeatRead
  else .multiBeatBurst

/-- The numeric operands in the order of the textual form (30_encoding.md R91: `BURST base, count, cb`). -/
def Instr.operands : Instr → List Nat
  | .selchip | .deselchip | .selcmd | .seldata | .rdlow | .rdhigh | .rddata | .rdstatus => []
  | .init sel => [sel.toNat]
  | .config m => [m.number.toNat]
  | .wrcmd b => [b.toNat]
  | .wrdata b => [b.toNat]
  | .wrdata16 w => [w.toNat]
  | .burst cb base count => [base, count.toNat, if cb then 1 else 0]

/-- The textual form of 30_encoding.md R91, numbers in decimal. -/
def Instr.text (i : Instr) : String :=
  match i.operands with
  | [] => i.mnemonic
  | ns => i.mnemonic ++ " " ++ ", ".intercalate (ns.map toString)

/-- The aliases of 30_encoding.md R92: the source's other spellings of an operation. -/
inductive Alias where
  /-- `assert()` (§2 item 1). -/
  | assert
  /-- `deassert()` (§2 item 1). -/
  | deassert
  /-- `writeData(word)` (§4.3). -/
  | writeDataWord (w : BitVec 16)
  /-- `beginBurstTransfer(buffer, n)`, the two-argument form. -/
  | beginBurst (base : Nat) (count : BitVec 32)
  /-- `beginBurstTransfer(buffer, n, f)`. -/
  | beginBurstWithCallback (base : Nat) (count : BitVec 32)
deriving DecidableEq, Repr

/-- What an alias expands to (30_encoding.md R92). -/
def Alias.expand : Alias → Instr
  | .assert => .selchip
  | .deassert => .deselchip
  | .writeDataWord w => .wrdata16 w
  | .beginBurst base count => .burst false base count
  | .beginBurstWithCallback base count => .burst true base count

/-- The transfer operations of 30_encoding.md R88 class (a): they hold while a session is active. -/
def Instr.isTransfer : Instr → Bool
  | .selchip | .deselchip | .selcmd | .seldata | .rdlow | .rdhigh | .init _ | .config _ => false
  | .wrcmd _ | .wrdata _ | .wrdata16 _ | .rddata | .rdstatus | .burst _ _ _ => true

/-- The seven operations that the source's §6 exposes to the Protocol Glue (30_encoding.md R83). -/
def Instr.isExposed : Instr → Bool
  | .selchip | .deselchip | .selcmd | .seldata | .rdlow | .rdhigh | .config _ => false
  | .init _ | .wrcmd _ | .wrdata _ | .wrdata16 _ | .rddata | .rdstatus | .burst _ _ _ => true

end Sys2Proof
end

