-- ==== Sys2Proof/WellFormed.lean ====
section
/-! DEFINITION. Which terms of `Instr` are operations of a block with addresses of `aw` bits: CONFIG of Idle is a reserved
encoding (30_encoding.md R85, R90), and a BURST base fits `W1` (R86). -/

namespace Sys2Proof

/-- The width of `W1`: 32 bits, widened to `ADDR_WIDTH` where that is more (30_encoding.md R86). -/
def w1Bits (aw : Nat) : Nat := max 32 aw

/-- An operation that command words can stand for, in a block with `ADDR_WIDTH = aw`. -/
def Instr.wf (aw : Nat) : Instr → Bool
  | .config m => decide (m ≠ .idle)
  | .burst _ base _ => decide (base < 2 ^ w1Bits aw)
  | .selchip | .deselchip | .selcmd | .seldata | .rdlow | .rdhigh | .init _ => true
  | .wrcmd _ | .wrdata _ | .wrdata16 _ | .rddata | .rdstatus => true

end Sys2Proof
end

