-- ==== Sys2Proof/Decode.lean ====
section
/-! DEFINITION. Decoding and encoding of operation requests (30_encoding.md R80 to R86, R90), and the host's view of it. -/

namespace Sys2Proof

/-- Why the decoder gives no operation. -/
inductive DecodeError where
  /-- A reserved encoding: no row of R83 with all its must-be-zero bits 0 (30_encoding.md R90). -/
  | reservedEncoding
  /-- The words presented so far are no whole operation: none at all, or the first one or two of a BURST (log 15). -/
  | incomplete
deriving DecidableEq, Repr

/-- `W[31:24]`, the operation number (R81). -/
def opField (w : Word) : BitVec 8 := w.extractLsb' 24 8

/-- How many words an operation has, told from its first word (R82). -/
def opWords (w : Word) : Nat := if opField w = 0x30#8 then 3 else 1

/-- Format S: `W0[23:0]` must be 0 (R84). -/
def decodeS (i : Instr) (w : Word) : Option Instr :=
  if w.extractLsb' 0 24 = 0#24 then some i else none

/-- Format I8: `W0[23:8]` must be 0, `IMM8 = W0[7:0]` (R85). -/
def decodeI8 (f : BitVec 8 → Instr) (w : Word) : Option Instr :=
  if w.extractLsb' 8 16 = 0#16 then some (f (w.extractLsb' 0 8)) else none

/-- Format I16: `W0[23:16]` must be 0, `IMM16 = W0[15:0]` (R85). -/
def decodeI16 (f : BitVec 16 → Instr) (w : Word) : Option Instr :=
  if w.extractLsb' 16 8 = 0#8 then some (f (w.extractLsb' 0 16)) else none

/-- Format M: `W0[23:2]` must be 0, `MODE = W0[1:0]`, and mode Idle is reserved (R85, R90). -/
def decodeM (w : Word) : Option Instr :=
  if w.extractLsb' 2 22 = 0#22 ∧ w.extractLsb' 0 2 ≠ 0#2 then
    some (.config (Mode.ofNumber (w.extractLsb' 0 2)))
  else none

/-- The operation of a one-word format (R83). -/
def decodeShort (w : Word) : Option Instr :=
  match (opField w).toNat with
  | 0x01 => decodeS .selchip w
  | 0x02 => decodeS .deselchip w
  | 0x03 => decodeS .selcmd w
  | 0x04 => decodeS .seldata w
  | 0x05 => decodeS .rdlow w
  | 0x06 => decodeS .rdhigh w
  | 0x10 => decodeI8 .init w
  | 0x11 => decodeM w
  | 0x20 => decodeI8 .wrcmd w
  | 0x21 => decodeI8 .wrdata w
  | 0x22 => decodeI16 .wrdata16 w
  | 0x23 => decodeS .rddata w
  | 0x24 => decodeS .rdstatus w
  | _ => none

/-- Format B: `W0[23:1]` must be 0, `CB = W0[0]`, then BUFBASE, of `w1Bits aw` bits, and ELEMCOUNT, of 32 (R86). -/
def decodeB (aw : Nat) (w : Word) (ws : List PortWord) : Except DecodeError (Instr × List PortWord) :=
  if w.extractLsb' 1 23 = 0#23 then
    match ws with
    | base :: count :: rest => .ok (.burst (w.getLsbD 0) (base % 2 ^ w1Bits aw) (BitVec.ofNat 32 count), rest)
    | _ => .error .incomplete
  else .error .reservedEncoding

/-- The operation at the front of a list of port words, with the words after it, in a block with `ADDR_WIDTH = aw`. -/
def decode (aw : Nat) : List PortWord → Except DecodeError (Instr × List PortWord)
  | [] => .error .incomplete
  | w0 :: ws =>
    let w := BitVec.ofNat 32 w0
    if opField w = 0x30#8 then decodeB aw w ws
    else
      match decodeShort w with
      | some i => .ok (i, ws)
      | none => .error .reservedEncoding

/-- Port words with the bits that their lines carry: `W1` of a three-word operation has `w1Bits aw`, every other word 32
(R80, R86). -/
def portCut (aw : Nat) : List PortWord → List PortWord
  | [w0, w1, w2] => [w0 % 2 ^ 32, w1 % 2 ^ w1Bits aw, w2 % 2 ^ 32]
  | ws => ws.map (· % 2 ^ 32)

/-- A first word from its operation number and its 24 low bits (R81). -/
def firstWord (op : BitVec 8) (low : BitVec 24) : Word := op ++ low

/-- The only word of a one-word operation. -/
def oneWord (op : BitVec 8) (low : BitVec 24) : List PortWord := [(firstWord op low).toNat]

/-- The command words of an operation (R81, R83). -/
def encode : Instr → List PortWord
  | .selchip => oneWord 0x01 0
  | .deselchip => oneWord 0x02 0
  | .selcmd => oneWord 0x03 0
  | .seldata => oneWord 0x04 0
  | .rdlow => oneWord 0x05 0
  | .rdhigh => oneWord 0x06 0
  | .init sel => oneWord 0x10 (sel.zeroExtend 24)
  | .config m => oneWord 0x11 (m.number.zeroExtend 24)
  | .wrcmd b => oneWord 0x20 (b.zeroExtend 24)
  | .wrdata b => oneWord 0x21 (b.zeroExtend 24)
  | .wrdata16 w => oneWord 0x22 (w.zeroExtend 24)
  | .rddata => oneWord 0x23 0
  | .rdstatus => oneWord 0x24 0
  | .burst cb base count => oneWord 0x30 (if cb then 1 else 0) ++ [base, count.toNat]

/-- A row of spec/opcode_table.json: the bits that are fixed, and their values, in the first word. -/
structure OpcodeRow where
  mnemonic : String
  fixedBits : Word
  value : Word
deriving DecidableEq, Repr

/-- The fourteen rows of spec/opcode_table.json ("mask" and "match"); CONFIG has the constraint `MODE != 0` besides. -/
def opcodeRows : List OpcodeRow :=
  [⟨"SELCHIP", 0xFFFFFFFF, 0x01000000⟩, ⟨"DESELCHIP", 0xFFFFFFFF, 0x02000000⟩,
   ⟨"SELCMD", 0xFFFFFFFF, 0x03000000⟩, ⟨"SELDATA", 0xFFFFFFFF, 0x04000000⟩,
   ⟨"RDLOW", 0xFFFFFFFF, 0x05000000⟩, ⟨"RDHIGH", 0xFFFFFFFF, 0x06000000⟩,
   ⟨"INIT", 0xFFFFFF00, 0x10000000⟩, ⟨"CONFIG", 0xFFFFFFFC, 0x11000000⟩,
   ⟨"WRCMD", 0xFFFFFF00, 0x20000000⟩, ⟨"WRDATA", 0xFFFFFF00, 0x21000000⟩,
   ⟨"WRDATA16", 0xFFFF0000, 0x22000000⟩, ⟨"RDDATA", 0xFFFFFFFF, 0x23000000⟩,
   ⟨"RDSTATUS", 0xFFFFFFFF, 0x24000000⟩, ⟨"BURST", 0xFFFFFFFE, 0x30000000⟩]

/-- The three words of an instruction whose bits are `w`: the first word is bits 31 to 0, the second bits 63 to 32, the
third bits 95 to 64; bits at and above `nbits` are 0. -/
def tableWords (nbits w : Nat) : List PortWord :=
  let v := w % 2 ^ nbits
  [v % 2 ^ 32, v / 2 ^ 32 % 2 ^ 32, v / 2 ^ 64 % 2 ^ 32]

/-- The instruction the decoder reads from an instruction whose bits are `w`; the table is that of `ADDR_WIDTH = 32` (R86). -/
def decodeTableWord (nbits w : Nat) : Option Instr :=
  match decode 32 (tableWords nbits w) with
  | .ok (i, _) => some i
  | .error _ => none

end Sys2Proof
end

