-- ==== Sys2Proof/Config.lean ====
section
/-! DEFINITION. The parameters of an implementation (00_scope.md R6 to R9, R11), the quantities derived from them, and
the free values: opaque constants with no body, of which nothing can be proved. -/

namespace Sys2Proof

/-- `BUS_WIDTH`, "8 or 16 bits", no other value (00_scope.md R6). -/
inductive BusWidth where
  | w8
  | w16
deriving DecidableEq, Repr

/-- The parameters that 00_scope.md leaves OPEN. They are fixed for the machine: State holds them and no step changes
them (DESIGN CHOICE, log 1). -/
structure Params where
  /-- `BUS_WIDTH` (R6). -/
  busWidth : BusWidth
  /-- `N`, the number of chained shift registers (R7). -/
  shifters : Nat
  /-- `BPS`, beats per shifter (R7). -/
  beatsPerShifter : Nat
  /-- `BYTES_PER_ELEMENT` (R9). -/
  bytesPerElement : Nat
  /-- `ADDR_WIDTH` (R11, log 2). -/
  addrWidth : Nat
deriving DecidableEq, Repr

/-- `BPB = BUS_WIDTH / 8`, bytes per beat (R6). -/
def Params.bytesPerBeat (p : Params) : Nat :=
  match p.busWidth with
  | .w8 => 1
  | .w16 => 2

/-- `SHIFTER_BYTES = BPS * BPB` (R7). -/
def Params.shifterBytes (p : Params) : Nat := p.beatsPerShifter * p.bytesPerBeat

/-- `BURST_BEATS = N * BPS` (R7). -/
def Params.burstBeats (p : Params) : Nat := p.shifters * p.beatsPerShifter

/-- `BURST_BYTES = BURST_BEATS * BPB` (R7). -/
def Params.burstBytes (p : Params) : Nat := p.burstBeats * p.bytesPerBeat

/-- The constraints of R7, R8 and R9: a configuration that violates them is refused before any step. -/
def Params.wf (p : Params) : Bool :=
  decide (1 ≤ p.shifters) && decide (1 ≤ p.beatsPerShifter) && decide (p.burstBeats ≤ 128) &&
    decide (1 ≤ p.bytesPerElement) && decide (p.bytesPerElement % p.bytesPerBeat = 0)

/-- CFG-A, "the configuration of the source's one concrete scenario" (95_test_vectors.md). -/
def Params.cfgA : Params := ⟨.w8, 4, 2, 1, 32⟩

/-- CFG-B of 95_test_vectors.md: a 16-bit bus. -/
def Params.cfgB : Params := ⟨.w16, 2, 2, 2, 32⟩

/-- FREE VALUE: the read oracle `BusIn` (00_scope.md R15), which "may depend on the whole trace so far" (log 9). -/
opaque Config.busIn : List Event → Beat

/-- FREE VALUE: the schedule, which enabled step is taken where the rules leave it open (60_exceptions.md R228, log 8). -/
opaque Config.schedule : Nat → Nat

end Sys2Proof
end

