-- ==== Sys2Proof/Machine/State.lean ====
section
/-! DEFINITION. The state of the transfer engine (10_state.md R20), the reasons a step can stop, and the state after
reset (10_state.md R51). -/

namespace Sys2Proof.Machine

/-- One lane of the shifter bank: a shift buffer, its ready flag and the shift register behind it. The
`SHIFTER_WIDTH`-bit registers are held as their `SHIFTER_BYTES` bytes, byte `k` in bits `[8k+7:8k]` (10_state.md R31,
R32). -/
structure Lane where
  /-- `SHIFTBUF[i]` (R31). -/
  buf : List Byte
  /-- `RDY[i]`: the buffer is empty and may be written (R31). -/
  rdy : Bool
  /-- `SHIFTER[i]` (R32). -/
  sreg : List Byte
deriving DecidableEq, Repr

/-- `readCursor` (10_state.md R42). -/
inductive Cursor where
  /-- `Live(o)`, a byte offset into the caller's buffer. -/
  | live (o : Nat)
  /-- `Final`, switched to the scratch buffer. -/
  | final
deriving DecidableEq, Repr

/-- The `hold until` at which the foreground stands inside an operation it has accepted (60_exceptions.md R224; the words
of the operation are taken by value, 20_memory.md R76, log 24). -/
inductive Hold where
  /-- A transfer operation waits for `done = 1` (30_encoding.md R88). -/
  | onDone (i : Instr)
  /-- A write primitive waits for `RDY[0] = 1`, with these beats still to send (42_sync.md R151). -/
  | onReady (beats : List Beat)
  /-- A write primitive waits for `SDONE = 1` and `TSF = 1`, with these beats to send afterwards (42_sync.md R151). -/
  | onWriteFlags (beats : List Beat)
  /-- A read primitive waits for `SDONE = 1` and `TSF = 1` (42_sync.md R152). -/
  | onReadFlags
deriving DecidableEq, Repr

/-- What an operation returns (30_encoding.md R87). -/
inductive Response where
  | ack
  | byte (b : Byte)
deriving DecidableEq, Repr

/-- The state: 10_state.md R20's table, the bookkeeping it names (R48), host memory (20_memory.md R60), the parameters
(00_scope.md R6 to R11), and the model's own fields for what the environment has yet to supply. `WR` and `D` are no
fields (R25, R26: log 17), nor is time (log 19). -/
structure State where
  /-- `BUS_WIDTH`, `N`, `BPS`, `BYTES_PER_ELEMENT`, `ADDR_WIDTH`; no step changes them (log 1). -/
  params : Params
  /-- `pin.CS` (R22). -/
  cs : Level
  /-- `pin.DC` (R23). -/
  dc : Level
  /-- `pin.RD` (R24). -/
  rd : Level
  /-- `DIVIDER`, 0 for "not initialised" (R27). -/
  divider : BitVec 8
  /-- `MODE` (R28). -/
  mode : Mode
  /-- `PEN` (R29). -/
  pen : Bool
  /-- `TIMCMP` (R30). -/
  timcmp : BitVec 16
  /-- `SHIFTBUF[i]`, `RDY[i]` and `SHIFTER[i]` for `i` in `0..N-1` (R31, R32). -/
  bank : List Lane
  /-- `beatsLeft` (R33). -/
  beatsLeft : BitVec 8
  /-- `beatIdx` (R33). -/
  beatIdx : BitVec 8
  /-- `SDONE` (R34). -/
  sdone : Bool
  /-- `TSF` (R35). -/
  tsf : Bool
  /-- `SIEN` (R36). -/
  sien : Bool
  /-- `TIEN` (R36). -/
  tien : Bool
  /-- `RXDATA` (R38). -/
  rxdata : Beat
  /-- `totalBytes` (R39). -/
  totalBytes : BitVec 32
  /-- `bytesRemaining` (R40). -/
  bytesRemaining : BitVec 32
  /-- `burstsRemaining` (R41). -/
  burstsRemaining : BitVec 32
  /-- `readCursor` (R42). -/
  readCursor : Cursor
  /-- `finalBurstBuffer` (R43). -/
  finalBurstBuffer : List Byte
  /-- `done` (R44). -/
  done : Bool
  /-- `cbSlot`, present or empty (R45). -/
  cbSlot : Bool
  /-- `bufBase`, below `2^ADDR_WIDTH` (R46, log 2). -/
  bufBase : Nat
  /-- `fgBusy` (R47). -/
  fgBusy : Bool
  /-- `inIrq` (R47). -/
  inIrq : Bool
  /-- `inCallback` (R47). -/
  inCallback : Bool
  /-- The bus trace, oldest event first (R48). -/
  trace : List Event
  /-- Host buffer memory in canonical form (20_memory.md R60, log 5). -/
  mem : List Host.Cell
  /-- The command words presented at the command port and not yet taken, oldest first (30_encoding.md R80, log 6). -/
  port : List PortWord
  /-- Where the accepted operation holds, when it does (60_exceptions.md R224, log 24). -/
  held : Option Hold
  /-- The responses returned so far, oldest first (30_encoding.md R87, log 13). -/
  responses : List Response
  /-- The command words that the host code of the completion callback presents while it runs (60_exceptions.md R239,
  log 10). -/
  callbackPort : List PortWord
  /-- Stores the caller makes to its memory while the block runs (U3, log 16). -/
  hostStores : List Host.Cell
  /-- Answers of the read oracle already fixed, oldest first (00_scope.md R15, log 9). -/
  busIn : List Beat
  /-- How many more of its enabled steps the peripheral takes: none given, all of them (41_config.md R140, the fairness of
  70_reset_and_hazards.md R271); given, the peripheral is stuck after that many (U2, log 7). -/
  peripheralSteps : Option Nat
  /-- The same for the interrupt agent (70_reset_and_hazards.md R271, log 23). -/
  interruptSteps : Option Nat
  /-- Schedule choices already fixed, oldest first (60_exceptions.md R228, log 8). -/
  sched : List Nat
  /-- The counter that the free value `Config.schedule` is applied to (log 8). -/
  tick : Nat
deriving DecidableEq, Repr

/-- Why a step stops with a fault. The block has no fault of its own (60_exceptions.md R220). Each of these stops a step
only in a state that no run reaches, where the spec gives the step no effect (log 14). -/
inductive Fault where
  /-- Raised by the shifter-empty handler when it must refill from the live cursor and the cursor is `Final`
  (43_burst.md R193 binds `let Live(o) = readCursor`). Safe: no run from reset reaches it. -/
  | cursorNotLive
  /-- Raised by the burst-complete handler entered with `burstsRemaining = 0` (43_burst.md R196: it "cannot be 0 at
  entry"). Safe: no run from reset reaches it. -/
  | burstCountUnderflow
  /-- Raised by an access to a host address at or above `2^ADDR_WIDTH` (20_memory.md R63: addresses do not wrap), by the
  shifter-empty handler or a caller's store. Safe: BURST refuses every buffer that crosses the top. -/
  | addressOutOfSpace
deriving DecidableEq, Repr

/-- Why a step is refused: the closed list of 60_exceptions.md R223. All are safe: "a refused run supports no claim".
The refused mark (10_state.md R49) is this outcome (log 12). -/
inductive Refusal where
  /-- Raised by `exec` for an instruction without a meaning; no arm answers it. Safe. -/
  | notModelled (mnemonic : String)
  /-- Raised by the step at a reserved command word (30_encoding.md R90), and by CONFIG of Idle. Safe. -/
  | reservedEncoding
  /-- Raised by CONFIG and every transfer operation while `DIVIDER = 0` (30_encoding.md R88, 41_config.md R134). Safe. -/
  | dividerZero
  /-- Raised by CONFIG or INIT while `done = 0` (41_config.md R134). Safe. -/
  | configDuringSession
  /-- Raised by a strobe operation while `done = 0` (40_strobe.md R119). Safe. -/
  | strobeDuringSession
  /-- Raised by any operation while `inCallback = 1` (60_exceptions.md R239). Safe. -/
  | opFromCallback
  /-- Raised by BURST when `count * BYTES_PER_ELEMENT >= 2^32` (43_burst.md R181). Safe. -/
  | lengthOverflow
  /-- Raised by BURST when `base + totalBytes > 2^ADDR_WIDTH` (43_burst.md R181). Safe. -/
  | bufferWraps
  /-- Raised by every step of a configuration that violates 00_scope.md R6 to R9. Safe. -/
  | badParameters
deriving DecidableEq, Repr

/-- What a step or an operation answers. -/
abbrev Result := Host.Outcome State Fault Refusal

/-- A lane after a peripheral reset: buffer and shifter 0, ready (41_config.md R139). -/
def Lane.cleared (p : Params) : Lane :=
  { buf := List.replicate p.shifterBytes 0, rdy := true, sreg := List.replicate p.shifterBytes 0 }

/-- The reset of a block with parameters `p` (10_state.md R51; values it leaves unspecified: log 3, log 4, log 5),
the platform being set up (log 25) and the pin levels those of decision D3 (log 26). -/
def State.resetWith (p : Params) : State :=
  { params := p
    cs := .high
    dc := .high
    rd := .high
    divider := 0
    mode := .idle
    pen := false
    timcmp := 0
    bank := List.replicate p.shifters (Lane.cleared p)
    beatsLeft := 0
    beatIdx := 0
    sdone := false
    tsf := false
    sien := false
    tien := false
    rxdata := 0
    totalBytes := 0
    bytesRemaining := 0
    burstsRemaining := 0
    readCursor := .live 0
    finalBurstBuffer := List.replicate p.burstBytes 0
    done := true
    cbSlot := false
    bufBase := 0
    fgBusy := false
    inIrq := false
    inCallback := false
    trace := []
    mem := []
    port := []
    held := none
    responses := []
    callbackPort := []
    hostStores := []
    busIn := []
    peripheralSteps := none
    interruptSteps := none
    sched := []
    tick := 0 }

/-- The machine right after reset, with the parameters of CFG-A (DESIGN CHOICE, log 1). -/
def State.reset : State := State.resetWith Params.cfgA

end Sys2Proof.Machine
end

