-- ==== Sys2Proof/Machine/Operands.lean ====
section
/-! DEFINITION. Operand assembly and beat values (30_encoding.md R89, 20_memory.md R64, R65), the timer compare value
(30_encoding.md R95) and the speed selector (30_encoding.md R97). -/

namespace Sys2Proof.Machine

/-- A value cut to `BUS_WIDTH` bits. -/
def fitBus (p : Params) (v : Beat) : Beat :=
  match p.busWidth with
  | .w8 => (v.setWidth 8).setWidth 16
  | .w16 => v

/-- `zext_BUS_WIDTH(b)`: a byte operand as a beat (20_memory.md R65). -/
def byteBeat (b : Byte) : Beat := b.setWidth 16

/-- The beats of a 16-bit value: high byte first on an 8-bit bus, one beat on a 16-bit bus (20_memory.md R65). -/
def wordBeats (p : Params) (w : BitVec 16) : List Beat :=
  match p.busWidth with
  | .w8 => [byteBeat (w.extractLsb' 8 8), byteBeat (w.extractLsb' 0 8)]
  | .w16 => [w]

/-- `RXDATA[7:0]`, what a read primitive returns (20_memory.md R65). -/
def lowByte (v : Beat) : Byte := v.extractLsb' 0 8

/-- `zext_SHIFTER_WIDTH(v)` as the bytes of a shift buffer, byte 0 first (42_sync.md R151, 10_state.md R31). -/
def beatBytes (p : Params) (v : Beat) : List Byte :=
  match p.busWidth with
  | .w8 => v.extractLsb' 0 8 :: List.replicate (p.shifterBytes - 1) 0
  | .w16 => v.extractLsb' 0 8 :: v.extractLsb' 8 8 :: List.replicate (p.shifterBytes - 2) 0

/-- The value of beat `k` of a run of bytes: byte `k` on an 8-bit bus, bytes `2k+1` and `2k` on a 16-bit bus, the lower
one on `D[7:0]` (20_memory.md R64, 41_config.md R142). -/
def beatOfBytes (p : Params) (bytes : List Byte) (k : Nat) : Beat :=
  match p.busWidth with
  | .w8 => byteBeat (bytes.getD k 0)
  | .w16 => bytes.getD (2 * k + 1) 0 ++ bytes.getD (2 * k) 0

/-- `TIMCMP` for a beat count: `beats * 2 - 1` in the high byte, `DIVIDER div 2 - 1` in the low byte (R95). -/
def compareValue (beats : Nat) (divider : BitVec 8) : BitVec 16 :=
  BitVec.ofNat 8 (beats * 2 - 1) ++ BitVec.ofNat 8 (divider.toNat / 2 - 1)

/-- `(TIMCMP[15:8] + 1) div 2`, the beat count that a transaction latches (41_config.md R141). -/
def beatsOfCompare (t : BitVec 16) : BitVec 8 := BitVec.ofNat 8 (((t.extractLsb' 8 8).toNat + 1) / 2)

/-- `(BAUD + 1) * 2`, the divider a compare value stands for (R95). -/
def dividerOfCompare (t : BitVec 16) : Nat := ((t.extractLsb' 0 8).toNat + 1) * 2

/-- The divider of a speed selector; "unrecognized selector defaults to divider 20" (R97). -/
def dividerOfSelector (sel : BitVec 8) : BitVec 8 :=
  match sel.toNat with
  | 2 => 120
  | 4 => 60
  | 8 => 30
  | 12 => 20
  | 20 => 12
  | 24 => 10
  | 30 => 8
  | 40 => 6
  | 60 => 4
  | 120 => 2
  | _ => 20

/-- The ten legal dividers (10_state.md R27). -/
def legalDividers : List (BitVec 8) := [120, 60, 30, 20, 12, 10, 8, 6, 4, 2]

/-- `ceil(a / b)` (00_scope.md R13). -/
def ceilDiv (a b : Nat) : Nat := (a + b - 1) / b

/-- `totalBytes = elementCount * bytesPerElement`, as a natural number (43_burst.md R182, 30_encoding.md R93 (a)). -/
def burstLength (p : Params) (count : BitVec 32) : Nat := count.toNat * p.bytesPerElement

end Sys2Proof.Machine
end

