-- ==== Sys2Proof/Machine/Flags.lean ====
section
/-! DEFINITION. The flags and the pending conditions (10_state.md R34 to R37, R52). -/

namespace Sys2Proof.Machine

/-- Every `RDY[i]` is 1. -/
def State.allReady (s : State) : Bool := s.bank.all (·.rdy)

/-- `RDY[0]` is 1 (42_sync.md R151). -/
def State.firstReady (s : State) : Bool :=
  match s.bank with
  | [] => false
  | l :: _ => l.rdy

/-- `SDONE = 1` and `TSF = 1`, what a primitive waits for (42_sync.md R151, R152). -/
def State.doneFlags (s : State) : Bool := s.sdone && s.tsf

/-- `SE_PENDING` (R37). -/
def State.sePending (s : State) : Bool := decide (s.mode = .multiBeatBurst) && s.sien && s.allReady

/-- `TC_PENDING` (R37). -/
def State.tcPending (s : State) : Bool := decide (s.mode = .multiBeatBurst) && s.tien && s.tsf

/-- An interrupt is pending and no handler runs: the foreground and the write beat are held off (60_exceptions.md R229). -/
def State.preempted (s : State) : Bool := (s.sePending || s.tcPending) && !s.inIrq

/-- `SDONE <- 1; TSF <- 1`, by the last beat of a transaction (41_config.md R142, R143). -/
def State.setDoneFlags (s : State) : State := { s with sdone := true, tsf := true }

/-- `SDONE <- 0; TSF <- 0`, by the primitive after its wait (42_sync.md R151, R152). -/
def State.clearDoneFlags (s : State) : State := { s with sdone := false, tsf := false }

/-- `SIEN <- 1; TIEN <- 1`, "arm both interrupt sources" (43_burst.md R183). -/
def State.armInterrupts (s : State) : State := { s with sien := true, tien := true }

end Sys2Proof.Machine
end

