-- ==== Sys2Proof/Machine/Ops.lean ====
section
/-! DEFINITION. The named operations over pins, memory, the peripheral's registers and the contexts that every
operation and handler is written with. -/

namespace Sys2Proof.Machine

/-- Continue with the next state of an outcome. -/
def andThen (r : Result) (f : State → Result) : Result :=
  match r with
  | .next s => f s
  | .fault e => .fault e
  | .refused e => .refused e

/-! ### Host buffer memory (20_memory.md R60, R61) -/

/-- What an address that the list does not name reads as: 0 (DESIGN CHOICE, log 5). -/
def Memory.unlisted : Byte := 0

/-- The byte at an address. -/
def Memory.read : List Host.Cell → Nat → Byte
  | [], _ => Memory.unlisted
  | c :: m, a => if c.1 = a then c.2 else Memory.read m a

/-- Store a byte, keeping the canonical form. The block has no such operation (R61); the caller has. -/
def Memory.write : List Host.Cell → Nat → Byte → List Host.Cell
  | [], a, b => if b = Memory.unlisted then [] else [(a, b)]
  | c :: m, a, b =>
    if a < c.1 then (if b = Memory.unlisted then c :: m else (a, b) :: c :: m)
    else if a = c.1 then (if b = Memory.unlisted then m else (a, b) :: m)
    else c :: Memory.write m a b

/-- Addresses strictly rise. -/
def Memory.rising : List Host.Cell → Bool
  | [] => true
  | c :: m => m.all (fun d => decide (c.1 < d.1)) && Memory.rising m

/-- The canonical form: strictly rising addresses, no entry equal to what an unlisted address reads as. -/
def Memory.wf (m : List Host.Cell) : Bool :=
  Memory.rising m && m.all (fun c => decide (c.2 ≠ Memory.unlisted))

/-- The `n` bytes at `addr` to `addr + n - 1` (R61). -/
def State.memBytes (s : State) (addr n : Nat) : List Byte :=
  (List.range n).map (fun k => Memory.read s.mem (addr + k))

/-- `MemRead(addr, n)`, none where the range leaves the address space (R61, R63). -/
def State.memRead (s : State) (addr n : Nat) : Option (List Byte) :=
  if addr + n ≤ 2 ^ s.params.addrWidth then some (s.memBytes addr n) else none

/-! ### Pins and the bus trace (00_scope.md R14) -/

/-- The level of a line. -/
def State.pin (s : State) (l : Line) : Level :=
  match l with
  | .cs => s.cs
  | .dc => s.dc
  | .rd => s.rd

/-- `pin.L <- v`. -/
def State.setPin (s : State) (l : Line) (v : Level) : State :=
  match l with
  | .cs => { s with cs := v }
  | .dc => { s with dc := v }
  | .rd => { s with rd := v }

/-- Append an event to the trace. -/
def State.emit (s : State) (e : Event) : State := { s with trace := s.trace ++ [e] }

/-- `drive(L, v)`: set the latch and append the event. -/
def State.drive (s : State) (l : Line) (v : Level) : State := (s.setPin l v).emit (.drive l v)

/-- `wbeat(v)`: one write-strobe pulse, stamped with the pin levels of the moment. -/
def State.wbeat (s : State) (v : Beat) : State := s.emit (.wbeat s.cs s.dc s.rd v)

/-- The next answer of the read oracle, cut to `BUS_WIDTH` bits (R15): the next one already fixed, else the free value
`Config.busIn` of the trace so far (log 9). -/
def State.nextBusIn (s : State) : Beat :=
  fitBus s.params
    (match s.busIn with
     | v :: _ => v
     | [] => Config.busIn s.trace)

/-- `rbeat()` with its result stored: draw, append the event, `RXDATA <- v` (R14, 41_config.md R143). -/
def State.rbeat (s : State) : State :=
  { s.emit (.rbeat s.cs s.dc s.rd s.nextBusIn) with rxdata := s.nextBusIn, busIn := s.busIn.tail }

/-- One event of a trace under observation, with the line levels before it: is it a redundant drive (R14)? -/
def redundantDrive (cs dc rd : Level) : Event → Bool
  | .drive .cs v => decide (cs = v)
  | .drive .dc v => decide (dc = v)
  | .drive .rd v => decide (rd = v)
  | _ => false

/-- The observation of a trace that starts at these line levels: every `Drive` that does not change its line deleted
(R14). -/
def observation (cs dc rd : Level) : List Event → List Event
  | [] => []
  | e :: es =>
    let rest :=
      match e with
      | .drive .cs v => observation v dc rd es
      | .drive .dc v => observation cs v rd es
      | .drive .rd v => observation cs dc v es
      | .wbeat _ _ _ _ => observation cs dc rd es
      | .rbeat _ _ _ _ => observation cs dc rd es
      | .callback => observation cs dc rd es
    if redundantDrive cs dc rd e then rest else e :: rest

/-! ### The peripheral's registers (41_config.md R135 to R139) -/

/-- `PeriphReset()` (R139). -/
def State.periphReset (s : State) : State :=
  { s with
    bank := List.replicate s.params.shifters (Lane.cleared s.params)
    beatsLeft := 0
    beatIdx := 0
    sdone := false
    tsf := false
    sien := false
    tien := false
    timcmp := 0 }

/-- The beat count that `Program(mode)` writes: 1 in the single-beat modes, `BURST_BEATS` in MultiBeatBurst mode. -/
def programBeats (p : Params) : Mode → Nat
  | .idle => 0
  | .singleBeatWrite => 1
  | .singleBeatRead => 1
  | .multiBeatBurst => p.burstBeats

/-- `Program(mode)` (R136, R137, R138). Idle is not programmed. -/
def State.program (s : State) (m : Mode) : State :=
  match m with
  | .idle => s
  | .singleBeatWrite => { s with timcmp := compareValue (programBeats s.params .singleBeatWrite) s.divider }
  | .singleBeatRead => { s with timcmp := compareValue (programBeats s.params .singleBeatRead) s.divider }
  | .multiBeatBurst => { s with timcmp := compareValue (programBeats s.params .multiBeatBurst) s.divider }

/-- `Configure(mode)`: disable, reset, program, enable, "committed atomically" (R135). -/
def State.configure (s : State) (m : Mode) : State :=
  let off := { s with pen := false }
  let programmed := off.periphReset.program m
  { programmed with mode := m, pen := true }

/-- `SHIFTBUF[0] <- v; RDY[0] <- 0` (42_sync.md R151). -/
def State.writeShiftBuf0 (s : State) (bytes : List Byte) : State :=
  match s.bank with
  | [] => s
  | l :: ls => { s with bank := { l with buf := bytes, rdy := false } :: ls }

/-- The loop of `LoadBank`: each lane in increasing order takes the next `n` bytes (43_burst.md R194). The poll of each
`RDY[i]` is true whenever the handler runs (its guard has every `RDY[i] = 1`), so no lane is overwritten. -/
def loadLanes (n : Nat) : List Lane → List Byte → List Lane
  | [], _ => []
  | l :: ls, data => { l with buf := data.take n, rdy := false } :: loadLanes n ls (data.drop n)

/-- `LoadBank(data)` (43_burst.md R194). -/
def State.loadBank (s : State) (data : List Byte) : State :=
  { s with bank := loadLanes s.params.shifterBytes s.bank data }

/-! ### Operations: admission, hold, response (30_encoding.md R87, R88) -/

/-- The operation returns: its response is given and the foreground is free (R87, R88). -/
def State.ret (s : State) (r : Response) : State :=
  { s with responses := s.responses ++ [r], fgBusy := false, held := none }

/-- The operation holds: the foreground is busy and has no step until what it waits for is true (00_scope.md R16). -/
def State.hold (s : State) (h : Hold) : State := { s with fgBusy := true, held := some h }

/-- Admission of a transfer operation (R88 class (a), (c)): refused from the callback or at `DIVIDER = 0`, held while a
session is active, else it runs. The order of the checks: log 18. -/
def admitTransfer (i : Instr) (s : State) (run : State → Result) : Result :=
  if s.inCallback then .refused .opFromCallback
  else if s.divider = 0 then .refused .dividerZero
  else if s.done then run s
  else .next (s.hold (.onDone i))

/-- Admission of a strobe operation, INIT or CONFIG (R88 class (b), (c)): refused from the callback, or with `reason`
while a session is active. The order of the checks: log 18. -/
def admitControl (reason : Refusal) (s : State) (run : State → Result) : Result :=
  if s.inCallback then .refused .opFromCallback
  else if s.done then run s
  else .refused reason

/-! ### Steps an agent still takes (41_config.md R140, 70_reset_and_hazards.md R271, U2; log 7, log 23) -/

/-- At least `n` more steps of a supply. -/
def takesSteps (supply : Option Nat) (n : Nat) : Bool :=
  match supply with
  | none => true
  | some k => decide (n ≤ k)

/-- The peripheral is not stuck. -/
def State.peripheralLive (s : State) : Bool := takesSteps s.peripheralSteps 1

/-- The interrupt agent is not stuck. -/
def State.interruptLive (s : State) : Bool := takesSteps s.interruptSteps 1

/-- One step of the peripheral is taken. -/
def State.spendPeripheral (s : State) : State := { s with peripheralSteps := s.peripheralSteps.map (· - 1) }

/-- One step of the interrupt agent is taken. -/
def State.spendInterrupt (s : State) : State := { s with interruptSteps := s.interruptSteps.map (· - 1) }

/-! ### Contexts (60_exceptions.md R230, R231; 43_burst.md R197) -/

/-- Taking an interrupt: it "saves no state of the block and changes no state of the block except `inIrq <- 1`" (R230). -/
def State.enterIrq (s : State) : State := { s with inIrq := true }

/-- Return from an interrupt: `inIrq <- 0`, "nothing to restore" (R231). -/
def State.leaveIrq (s : State) : State := { s with inIrq := false }

/-- A handler as one uninterruptible step: entry, body, return (R230, R231). -/
def handle (body : State → Result) (s : State) : Result :=
  andThen (body s.enterIrq) (fun t => .next t.leaveIrq)

/-- `inCallback <- 1; callback(); inCallback <- 0` (43_burst.md R196, R197; 00_scope.md R14): the event when the slot is
present, and the refusal of any operation that the callback's host code issues (60_exceptions.md R239, log 10). -/
def runCallback (s : State) : Result :=
  if s.cbSlot then
    match decode s.params.addrWidth s.callbackPort with
    | .ok _ => .refused .opFromCallback
    | .error .reservedEncoding => .refused .reservedEncoding
    | .error .incomplete => .next { (({ s with inCallback := true } : State).emit .callback) with inCallback := false }
  else .next { s with inCallback := false }

end Sys2Proof.Machine
end

