-- ==== Sys2Proof/Machine/Peripheral.lean ====
section
/-! DEFINITION. The steps of the peripheral agent (41_config.md R140 to R143): their guards and their actions. -/

namespace Sys2Proof.Machine

/-- `ACT`: how many shift buffers take part in a bank load (R141). -/
def State.activeLanes (s : State) : Nat :=
  match s.mode with
  | .singleBeatWrite => 1
  | .multiBeatBurst => s.params.shifters
  | .idle => 0
  | .singleBeatRead => 0

/-- The modes that transmit (R141, R142). -/
def Mode.transmits : Mode → Bool
  | .singleBeatWrite => true
  | .multiBeatBurst => true
  | .idle => false
  | .singleBeatRead => false

/-- The guard of a bank load (R141). -/
def State.canBankLoad (s : State) : Bool :=
  s.pen && Mode.transmits s.mode && decide (s.beatsLeft = 0) && (s.bank.take s.activeLanes).all (fun l => !l.rdy)

/-- A lane whose buffer moves into its shifter: `SHIFTER[i] <- SHIFTBUF[i]; RDY[i] <- 1` (R141). -/
def Lane.shiftIn (l : Lane) : Lane := { l with rdy := true, sreg := l.buf }

/-- Bank load, one atomic step; the beat count is latched here (R141). -/
def State.bankLoad (s : State) : State :=
  { s with
    bank := (s.bank.take s.activeLanes).map Lane.shiftIn ++ s.bank.drop s.activeLanes
    beatsLeft := beatsOfCompare s.timcmp
    beatIdx := 0 }

/-- The guard of a write beat (R142, 60_exceptions.md R229 (b)). -/
def State.canWriteBeat (s : State) : Bool :=
  s.pen && Mode.transmits s.mode && decide (s.beatsLeft ≠ 0) && !s.preempted

/-- The value of the next beat: shifter `beatIdx div BPS`, beat `beatIdx mod BPS` of it (R142). -/
def State.beatValue (s : State) : Beat :=
  let lane := s.bank.getD (s.beatIdx.toNat / s.params.beatsPerShifter) (Lane.cleared s.params)
  beatOfBytes s.params lane.sreg (s.beatIdx.toNat % s.params.beatsPerShifter)

/-- Write beat (R142). -/
def State.writeBeat (s : State) : State :=
  let t := s.wbeat s.beatValue
  let u := { t with beatIdx := s.beatIdx + 1, beatsLeft := s.beatsLeft - 1 }
  if s.beatsLeft = 1 then u.setDoneFlags else u

/-- `StartRead()`: start the read transaction (R143). -/
def State.startRead (s : State) : State := { s with beatsLeft := beatsOfCompare s.timcmp, beatIdx := 0 }

/-- The guard of a read beat (R143). -/
def State.canReadBeat (s : State) : Bool :=
  s.pen && decide (s.mode = .singleBeatRead) && decide (s.beatsLeft ≠ 0)

/-- Read beat (R143). -/
def State.readBeat (s : State) : State :=
  let t := { s.rbeat with beatsLeft := 0 }
  t.setDoneFlags

/-- The enabled step of the peripheral, if it takes one: bank load, write beat or read beat, of which at most one is
enabled; a stuck peripheral takes none (R140, U2, log 7). -/
def State.peripheralStep (s : State) : State :=
  if s.peripheralLive then
    if s.canBankLoad then s.spendPeripheral.bankLoad
    else if s.canWriteBeat then s.spendPeripheral.writeBeat
    else if s.canReadBeat then s.spendPeripheral.readBeat
    else s
  else s

end Sys2Proof.Machine
end

