-- ==== Sys2Proof/Machine/Burst.lean ====
section
/-! DEFINITION. The Asynchronous Burst Engine (43_burst.md): BURST (R181 to R184) and the two interrupt handlers
(R190 to R196). -/

namespace Sys2Proof.Machine

/-- The session record at the start of a session (R181, R182): the counters, the cursor, and the tail in the scratch
buffer when the length is ragged. -/
def State.openSession (s : State) (base total : Nat) : State :=
  let bb := s.params.burstBytes
  let r := total % bb
  { s with
    done := false
    bufBase := base
    totalBytes := BitVec.ofNat 32 total
    bytesRemaining := BitVec.ofNat 32 total
    burstsRemaining := BitVec.ofNat 32 (ceilDiv total bb)
    readCursor := .live 0
    finalBurstBuffer :=
      if r = 0 then s.finalBurstBuffer
      else s.memBytes (base + (total - r)) r ++ List.replicate (bb - r) 0 }

/-- `TIMCMP <- ((BURST_BEATS * 2 - 1) << 8) | (DIVIDER div 2 - 1)`, "prime the timer compare register for a full-size
burst" (R183). -/
def State.primeCompare (s : State) (beats : Nat) : State := { s with timcmp := compareValue beats s.divider }

/-- BURST once admitted (R181); with count 0 the callback runs at once, from the foreground (R184, log 22). -/
def startBurst (cb : Bool) (base : Nat) (count : BitVec 32) (s : State) : Result :=
  let total := burstLength s.params count
  if 2 ^ 32 ≤ total then .refused .lengthOverflow
  else if 2 ^ s.params.addrWidth < base + total then .refused .bufferWraps
  else
    let t := { s with cbSlot := cb }
    if count = 0 then andThen (runCallback t) (fun u => .next (u.ret .ack))
    else
      let u := ((t.configure .multiBeatBurst).openSession base total).drive .cs .low
      let v := ((u.drive .dc .high).primeCompare s.params.burstBeats).armInterrupts
      .next (v.ret .ack)

/-- BURST (R181): it returns at the end of its start phase. -/
def execBurst (cb : Bool) (base : Nat) (count : BitVec 32) (s : State) : Result :=
  admitTransfer (.burst cb base count) s (startBurst cb base count)

/-- The last refill: the short count, the cursor switched to the scratch buffer, the bank loaded from it (R192). -/
def State.lastRefill (s : State) : State :=
  let beats := s.bytesRemaining.toNat / s.params.bytesPerBeat
  let t := { s.primeCompare beats with readCursor := .final, bytesRemaining := 0 }
  t.loadBank s.finalBurstBuffer

/-- A full refill from the live cursor (R193). -/
def fullRefill (s : State) : Result :=
  match s.readCursor with
  | .final => .fault .cursorNotLive
  | .live o =>
    match s.memRead (s.bufBase + o) s.params.burstBytes with
    | none => .fault .addressOutOfSpace
    | some data =>
      let t := { s with
        bytesRemaining := s.bytesRemaining - BitVec.ofNat 32 s.params.burstBytes
        readCursor := .live (o + s.params.burstBytes) }
      .next (t.loadBank data)

/-- The body of the shifter-empty handler (R190 to R193). -/
def shifterEmptyBody (s : State) : Result :=
  if s.bytesRemaining = 0 then .next { s with sien := false }
  else if s.bytesRemaining.toNat < s.params.burstBytes then .next s.lastRefill
  else fullRefill s

/-- The shifter-empty handler (R190). -/
def shifterEmptyHandler (s : State) : Result := handle shifterEmptyBody s

/-- The acknowledgement of a burst: `TSF <- 0` and one burst fewer (R196). -/
def State.ackBurst (s : State) : State :=
  { s with tsf := false, burstsRemaining := s.burstsRemaining - 1 }

/-- The end of the session: the timer source disabled, `done`, chip-select deasserted (R196). -/
def State.closeSession (s : State) : State :=
  let t := { s with tien := false, done := true }
  t.drive .cs .high

/-- The body of the burst-complete handler (R196). -/
def burstCompleteBody (s : State) : Result :=
  if s.burstsRemaining = 0 then .fault .burstCountUnderflow
  else if s.ackBurst.burstsRemaining = 0 then runCallback s.ackBurst.closeSession
  else .next s.ackBurst

/-- The burst-complete handler (R196). -/
def burstCompleteHandler (s : State) : Result := handle burstCompleteBody s

end Sys2Proof.Machine
end

