-- ==== Sys2Proof/Machine/Engine.lean ====
section
/-! DEFINITION. The Engine Configuration Manager's operations: INIT (41_config.md R131, R132) and CONFIG (R133 to R135). -/

namespace Sys2Proof.Machine

/-- INIT (R131): the divider of the selector, the peripheral disabled, reset and Idle, the two strobes deasserted. -/
def execInit (sel : BitVec 8) (s : State) : Result :=
  admitControl .configDuringSession s (fun s =>
    let t := { s with divider := dividerOfSelector sel, pen := false }
    let u := { t.periphReset with mode := .idle }
    .next (((u.drive .cs .high).drive .rd .high).ret .ack))

/-- CONFIG (R133 to R135). Idle is a reserved encoding (R134 (c)). -/
def execConfig (m : Mode) (s : State) : Result :=
  admitControl .configDuringSession s (fun s =>
    if m = .idle then .refused .reservedEncoding
    else if s.divider = 0 then .refused .dividerZero
    else .next ((s.configure m).ret .ack))

end Sys2Proof.Machine
end

