-- ==== Sys2Proof/Machine/Strobe.lean ====
section
/-! DEFINITION. The Strobe Controller's operations (40_strobe.md R110 to R119). -/

namespace Sys2Proof.Machine

/-- A strobe operation issued by the host: one drive, `Ack` at once (R110, R119). -/
def strobe (l : Line) (v : Level) (s : State) : Result :=
  admitControl .strobeDuringSession s (fun s => .next ((s.drive l v).ret .ack))

/-- SELCHIP (R111). -/
def execSelchip (s : State) : Result := strobe .cs .low s

/-- DESELCHIP (R112). -/
def execDeselchip (s : State) : Result := strobe .cs .high s

/-- SELCMD (R113). -/
def execSelcmd (s : State) : Result := strobe .dc .low s

/-- SELDATA (R114). -/
def execSeldata (s : State) : Result := strobe .dc .high s

/-- RDLOW (R115). -/
def execRdlow (s : State) : Result := strobe .rd .low s

/-- RDHIGH (R116). -/
def execRdhigh (s : State) : Result := strobe .rd .high s

end Sys2Proof.Machine
end

