-- ==== Sys2Proof/Machine/Sync.lean ====
section
/-! DEFINITION. The Synchronous Transaction Primitives (42_sync.md R150 to R157): the foreground's actions, with the
peripheral's steps taken where the foreground waits for them, so that a primitive is one step where the peripheral serves
it (R159) and holds where the peripheral is stuck (R161; log 7). -/

namespace Sys2Proof.Machine

/-- The end of a write primitive (R153). -/
def State.finishWrite (s : State) : State := (s.drive .cs .high).ret .ack

/-- `OneWriteBeat` of each value in turn, then the end of the primitive (R151, R155): the hold on `RDY[0]`, the buffer
write, the bank load and the write beat of the peripheral, the hold on the two flags, the flags cleared. -/
def State.sendBeats : List Beat → State → State
  | [], s => s.finishWrite
  | v :: vs, s =>
    if s.firstReady then
      let t := (s.writeShiftBuf0 (beatBytes s.params v)).peripheralStep.peripheralStep
      if t.doneFlags then State.sendBeats vs t.clearDoneFlags else t.hold (.onWriteFlags vs)
    else s.hold (.onReady (v :: vs))

/-- The end of a read primitive: write mode restored, the low byte of the sample returned (R156). -/
def State.finishRead (s : State) : State :=
  let t := ((s.drive .rd .high).drive .cs .high).configure .singleBeatWrite
  t.ret (.byte (lowByte t.rxdata))

/-- `OneReadBeat`, then the end of the primitive (R152, R156): the start, the read beat of the peripheral, the hold on the
two flags, the flags cleared. -/
def State.sampleBeat (s : State) : State :=
  let t := s.startRead.peripheralStep
  if t.doneFlags then t.clearDoneFlags.finishRead else t.hold .onReadFlags

/-- The select lines of a primitive: chip-select, then data/command (R150). -/
def State.select (s : State) (dc : Level) : State := (s.drive .cs .low).drive .dc dc

/-- The shape of the write primitives (R150, R153 to R155). -/
def writePrimitive (i : Instr) (dc : Level) (beats : State → List Beat) (s : State) : Result :=
  admitTransfer i s (fun s => .next (State.sendBeats (beats s) ((s.configure .singleBeatWrite).select dc)))

/-- The shape of the read primitives: the read strobe low for the beat (R156, R157). -/
def readPrimitive (i : Instr) (dc : Level) (s : State) : Result :=
  admitTransfer i s (fun s => .next (((s.configure .singleBeatRead).select dc).drive .rd .low).sampleBeat)

/-- WRCMD (R153): DC low selects command. -/
def execWrcmd (b : Byte) (s : State) : Result := writePrimitive (.wrcmd b) .low (fun _ => [byteBeat b]) s

/-- WRDATA (R154): DC high selects data. -/
def execWrdata (b : Byte) (s : State) : Result := writePrimitive (.wrdata b) .high (fun _ => [byteBeat b]) s

/-- WRDATA16 (R155): one or two beats by the bus width. -/
def execWrdata16 (w : BitVec 16) (s : State) : Result :=
  writePrimitive (.wrdata16 w) .high (fun s => wordBeats s.params w) s

/-- RDDATA (R156): DC high. -/
def execRddata (s : State) : Result := readPrimitive .rddata .high s

/-- RDSTATUS (R157): DC low throughout. -/
def execRdstatus (s : State) : Result := readPrimitive .rdstatus .low s

end Sys2Proof.Machine
end

