-- ==== Sys2Proof/Machine/Dispatch.lean ====
section
/-! DEFINITION. The one dispatch from an operation to its meaning. -/

namespace Sys2Proof.Machine

def exec (i : Instr) (s : State) : Host.Outcome State Fault Refusal :=
  match i with
  | .selchip => Sys2Proof.Machine.execSelchip s
  | .deselchip => Sys2Proof.Machine.execDeselchip s
  | .selcmd => Sys2Proof.Machine.execSelcmd s
  | .seldata => Sys2Proof.Machine.execSeldata s
  | .rdlow => Sys2Proof.Machine.execRdlow s
  | .rdhigh => Sys2Proof.Machine.execRdhigh s
  | .init sel => Sys2Proof.Machine.execInit sel s
  | .config mode => Sys2Proof.Machine.execConfig mode s
  | .wrcmd b => Sys2Proof.Machine.execWrcmd b s
  | .wrdata b => Sys2Proof.Machine.execWrdata b s
  | .wrdata16 w => Sys2Proof.Machine.execWrdata16 w s
  | .rddata => Sys2Proof.Machine.execRddata s
  | .rdstatus => Sys2Proof.Machine.execRdstatus s
  | .burst cb base count => Sys2Proof.Machine.execBurst cb base count s

end Sys2Proof.Machine
end

