-- ==== Sys2Proof/Machine/Agents.lean ====
section
/-! DEFINITION. The three agents and the scheduler (00_scope.md R17, 60_exceptions.md R228 to R231): which moves are
enabled in a state, what each does, and how one of them is chosen. -/

namespace Sys2Proof.Machine

/-- A step of an agent, or of the environment. -/
inductive Move where
  /-- Interrupt agent: the shifter-empty handler (43_burst.md R190). -/
  | shifterEmpty
  /-- Interrupt agent: the burst-complete handler (43_burst.md R196). -/
  | burstComplete
  /-- Peripheral agent: bank load (41_config.md R141). -/
  | bankLoad
  /-- Peripheral agent: write beat (41_config.md R142). -/
  | writeBeat
  /-- Peripheral agent: read beat (41_config.md R143). -/
  | readBeat
  /-- Foreground agent: take the next operation at the command port (30_encoding.md R88). -/
  | accept
  /-- Foreground agent: the held operation proceeds, `done` being 1 (30_encoding.md R88). -/
  | resume
  /-- Environment: the caller's next store to its memory lands (U3, log 16). -/
  | hostStore
deriving DecidableEq, Repr

/-- The words at the command port are more than the beginning of an operation (log 15). -/
def State.portReady (s : State) : Bool :=
  match decode s.params.addrWidth s.port with
  | .error .incomplete => false
  | .error .reservedEncoding => true
  | .ok _ => true

/-- The foreground may accept an operation: `fgBusy = 0`, `inIrq = 0`, no interrupt pending (R88). -/
def State.canAccept (s : State) : Bool :=
  !s.fgBusy && !s.inIrq && !s.sePending && !s.tcPending && s.portReady

/-- What the foreground waits for is true (30_encoding.md R88, 42_sync.md R151, R152). -/
def State.holdLifted (s : State) : Bool :=
  match s.held with
  | none => false
  | some (.onDone _) => s.done
  | some (.onReady _) => s.firstReady
  | some (.onWriteFlags _) => s.doneFlags
  | some .onReadFlags => s.doneFlags

/-- The held operation may proceed: its hold is lifted and it is not pre-empted (60_exceptions.md R229 (a)). -/
def State.canResume (s : State) : Bool :=
  s.holdLifted && !s.inIrq && !s.sePending && !s.tcPending

/-- The guard of the shifter-empty handler (43_burst.md R190, 60_exceptions.md R231). -/
def State.canShifterEmpty (s : State) : Bool := s.sePending && !s.inIrq

/-- The guard of the burst-complete handler (43_burst.md R196, 60_exceptions.md R231). -/
def State.canBurstComplete (s : State) : Bool := s.tcPending && !s.inIrq

/-- Is a move enabled? A stuck agent takes none of its steps (U2, log 7, log 23). -/
def State.canMove (s : State) : Move → Bool
  | .shifterEmpty => s.interruptLive && s.canShifterEmpty
  | .burstComplete => s.interruptLive && s.canBurstComplete
  | .bankLoad => s.peripheralLive && s.canBankLoad
  | .writeBeat => s.peripheralLive && s.canWriteBeat
  | .readBeat => s.peripheralLive && s.canReadBeat
  | .accept => s.canAccept
  | .resume => s.canResume
  | .hostStore => !s.hostStores.isEmpty

/-- All moves. -/
def allMoves : List Move :=
  [.shifterEmpty, .burstComplete, .bankLoad, .writeBeat, .readBeat, .accept, .resume, .hostStore]

/-- The enabled moves of a state. -/
def State.enabled (s : State) : List Move := allMoves.filter s.canMove

/-- Accept: the operation's words are taken from the port and it is executed; a reserved encoding is refused (R88, R90). -/
def acceptNext (s : State) : Result :=
  match decode s.params.addrWidth s.port with
  | .ok (i, rest) => exec i { s with port := rest }
  | .error .reservedEncoding => .refused .reservedEncoding
  | .error .incomplete => .next s

/-- Resume: the held operation goes on after its hold: it is executed (R88), or its beats are sent, or, the flags of a beat
seen and cleared, the rest of the primitive follows (42_sync.md R151, R152). -/
def resumeHeld (s : State) : Result :=
  match s.held with
  | none => .next s
  | some (.onDone i) => exec i s
  | some (.onReady vs) => .next (State.sendBeats vs s)
  | some (.onWriteFlags vs) => .next (State.sendBeats vs s.clearDoneFlags)
  | some .onReadFlags => .next s.clearDoneFlags.finishRead

/-- The caller's next store lands; an address outside the address space does not exist (20_memory.md R63). -/
def hostStoreNext (s : State) : Result :=
  match s.hostStores with
  | [] => .next s
  | c :: cs =>
    if c.1 < 2 ^ s.params.addrWidth then
      .next { s with mem := Memory.write s.mem c.1 c.2, hostStores := cs }
    else .fault .addressOutOfSpace

/-- What a move does. -/
def perform (m : Move) (s : State) : Result :=
  match m with
  | .shifterEmpty => shifterEmptyHandler s.spendInterrupt
  | .burstComplete => burstCompleteHandler s.spendInterrupt
  | .bankLoad => .next s.spendPeripheral.bankLoad
  | .writeBeat => .next s.spendPeripheral.writeBeat
  | .readBeat => .next s.spendPeripheral.readBeat
  | .accept => acceptNext s
  | .resume => resumeHeld s
  | .hostStore => hostStoreNext s

/-- The next schedule choice: the next one already fixed, else the free value `Config.schedule` of the counter (log 8). -/
def State.nextChoice (s : State) : Nat :=
  match s.sched with
  | k :: _ => k
  | [] => Config.schedule s.tick

/-- The state after a schedule choice is used. -/
def State.afterChoice (s : State) : State :=
  match s.sched with
  | _ :: ks => { s with sched := ks }
  | [] => { s with tick := s.tick + 1 }

/-- One step of the block: no move enabled, nothing happens (60_exceptions.md R224, log 11); one, it is taken; several,
one of them is chosen (R228). Where a move is enabled one is taken; an agent that stalls
has none (log 7, log 23). -/
def stepAgents (s : State) : Result :=
  match s.enabled with
  | [] => .next s
  | [m] => perform m s
  | m :: ms => perform ((m :: ms).getD (s.nextChoice % (m :: ms).length) m) s.afterChoice

/-- Place the words of one instruction at the command port. -/
def State.presentWords (s : State) (ws : List PortWord) : State :=
  match ws with
  | [] => { s with port := [] }
  | w :: rest => { s with port := (w :: rest).take (opWords (BitVec.ofNat 32 w)) }

end Sys2Proof.Machine
end

