-- ==== Sys2Proof/Machine/Step.lean ====
section
/-! DEFINITION. One step of the machine, and the host's way of placing an instruction where it fetches. -/

namespace Sys2Proof.Machine

/-- One step. A configuration that violates 00_scope.md R6 to R9 is refused before any step (R8, 60_exceptions.md R223). -/
def step (s : State) : Host.Outcome State Fault Refusal :=
  if s.params.wf then stepAgents s else .refused .badParameters

/-- The instruction whose bits are `w` placed at the command port, where the foreground takes its next operation (log 6). -/
def State.withFetchWord (s : State) (nbits w : Nat) : State := s.presentWords (tableWords nbits w)

end Sys2Proof.Machine
end

