-- ==== Sys2Proof/Safety.lean ====
section
/-! DEFINITION. The terms that statements about runs use: the end of a run (70_reset_and_hazards.md R262), the
invariants of every unrefused run (10_state.md R50 and what the burst engine's rules keep), and what a session puts on
the bus (43_burst.md R198). -/

namespace Sys2Proof.Machine

/-- "A run is over" (R262): no operation in progress or to come, no session, nothing pending, nothing in flight. -/
def State.runOver (s : State) : Bool :=
  !s.fgBusy && s.port.isEmpty && s.done && !s.sePending && !s.tcPending && !s.inIrq && decide (s.beatsLeft = 0)

/-- Every `RDY[i]` is 0: a whole burst waits in the shift buffers. -/
def State.bankFull (s : State) : Bool := s.bank.all (fun l => !l.rdy)

/-- 1 or 0. -/
def oneIf (b : Bool) : Nat := if b then 1 else 0

/-- The bursts a session has not yet acknowledged: those not yet loaded, the one waiting in the shift buffers, the one in
flight, and the one whose completion is flagged. -/
def State.burstsOutstanding (s : State) : Nat :=
  ceilDiv s.bytesRemaining.toNat s.params.burstBytes + oneIf s.bankFull + oneIf (decide (s.beatsLeft ≠ 0)) + oneIf s.tsf

/-- What holds of the registers while a session is active (`done = 0`). -/
structure State.SessionInv (s : State) : Prop where
  /-- R50 (b). -/
  mode : s.mode = .multiBeatBurst
  /-- The burst-complete source stays armed until `burstsRemaining` reaches 0 (R36). -/
  tien : s.tien = true
  /-- Chip-select and data-select hold for the whole session (43_burst.md R183). -/
  cs : s.cs = .low
  /-- Chip-select and data-select hold for the whole session (43_burst.md R183). -/
  dc : s.dc = .high
  /-- A session has at least one byte (43_burst.md R184). -/
  total_pos : 0 < s.totalBytes.toNat
  /-- The length is a whole number of beats (00_scope.md R9). -/
  total_beats : s.totalBytes.toNat % s.params.bytesPerBeat = 0
  /-- The buffer lies in the address space (20_memory.md R63). -/
  buffer_fits : s.bufBase + s.totalBytes.toNat ≤ 2 ^ s.params.addrWidth
  /-- R50 (e). -/
  remaining_le : s.bytesRemaining.toNat ≤ s.totalBytes.toNat
  /-- The cursor stands at the first byte not yet loaded, at a whole number of bursts (43_burst.md R192, R193). -/
  cursor : s.bytesRemaining ≠ 0 →
    s.readCursor = .live (s.totalBytes.toNat - s.bytesRemaining.toNat) ∧
      (s.totalBytes.toNat - s.bytesRemaining.toNat) % s.params.burstBytes = 0
  /-- The shift buffers are all free or all taken (43_burst.md R194, 41_config.md R141). -/
  uniform : s.allReady = true ∨ s.bankFull = true
  /-- `burstsRemaining` counts the bursts not yet acknowledged: no burst-complete event is lost (R272). -/
  count : s.burstsRemaining.toNat = s.burstsOutstanding
  /-- The session ends when the count reaches 0 (43_burst.md R196). -/
  count_pos : s.burstsRemaining ≠ 0
  /-- The shifter-empty source is disabled only when no data is left (43_burst.md R191). -/
  sien_off : s.sien = false → s.bytesRemaining = 0
  /-- While it is armed with no data left, the last burst has not ended. -/
  sien_on : s.sien = true → s.bytesRemaining = 0 → s.bankFull = true ∨ s.beatsLeft ≠ 0
  /-- The compare register holds a legal beat count for the divider (30_encoding.md R95). -/
  compare : ∃ n, 1 ≤ n ∧ n ≤ s.params.burstBeats ∧ s.timcmp = compareValue n s.divider
  /-- It is the full burst's until the last refill (43_burst.md R192, R193). -/
  compare_full : s.bytesRemaining ≠ 0 → s.timcmp = compareValue s.params.burstBeats s.divider

/-- The foreground stands inside a synchronous primitive, at one of its holds on the peripheral (42_sync.md R151, R152). -/
def State.midPrimitive (s : State) : Bool :=
  match s.held with
  | none => false
  | some (.onDone _) => false
  | some (.onReady _) => true
  | some (.onWriteFlags _) => true
  | some .onReadFlags => true

/-- What holds of the registers while no session is active (`done = 1`): nothing armed, and nothing in flight unless a
primitive is held up. -/
structure State.IdleInv (s : State) : Prop where
  sien : s.sien = false
  tien : s.tien = false
  beatsLeft : s.midPrimitive = false → s.beatsLeft = 0
  ready : s.midPrimitive = false → s.allReady = true

/-- What holds between steps of a primitive that is held up: a peripheral that is not stuck would have lifted the hold
(42_sync.md R159, R161; log 7). -/
structure State.HeldUpInv (s : State) : Prop where
  stuck : s.peripheralSteps = some 0
  done : s.done = true
  mode : s.mode = .singleBeatWrite ∨ s.mode = .singleBeatRead
  flags : s.doneFlags = false
  /-- The hold on `RDY[0]` never lasts: the bank is free when a beat is to be sent (R151). -/
  ready : ∀ vs, s.held ≠ some (.onReady vs)

/-- The invariant of every unrefused run. -/
structure State.Inv (s : State) : Prop where
  /-- The parameters are legal (00_scope.md R6 to R9). -/
  params : s.params.wf = true
  /-- Memory has its canonical form. -/
  mem : Memory.wf s.mem = true
  /-- Memory lies in the address space (20_memory.md R60). -/
  mem_space : ∀ c ∈ s.mem, c.1 < 2 ^ s.params.addrWidth
  /-- The caller stores only to addresses that exist. -/
  stores_space : ∀ c ∈ s.hostStores, c.1 < 2 ^ s.params.addrWidth
  /-- The bank has `N` lanes (10_state.md R31). -/
  bank : s.bank.length = s.params.shifters
  /-- Every register of the bank is `SHIFTER_WIDTH` bits wide (10_state.md R31, R32). -/
  lanes : ∀ l ∈ s.bank, l.buf.length = s.params.shifterBytes ∧ l.sreg.length = s.params.shifterBytes
  /-- The scratch buffer is `BURST_BYTES` bytes (10_state.md R43). -/
  scratch : s.finalBurstBuffer.length = s.params.burstBytes
  /-- `RXDATA` is `BUS_WIDTH` bits wide (10_state.md R38). -/
  rxdata : fitBus s.params s.rxdata = s.rxdata
  /-- R50 (f). -/
  divider : s.divider = 0 ∨ s.divider ∈ legalDividers
  /-- R50 (a). -/
  enable : s.pen = true ↔ s.mode ≠ .idle
  /-- An engine that is configured has a divider (41_config.md R134 (b)). -/
  configured : s.mode ≠ .idle → s.divider ≠ 0
  /-- Between steps no handler runs (log 21). -/
  inIrq : s.inIrq = false
  /-- Between steps no callback runs (log 21). -/
  inCallback : s.inCallback = false
  /-- `bufBase` has `ADDR_WIDTH` bits (10_state.md R46). -/
  base_width : s.bufBase < 2 ^ s.params.addrWidth
  /-- The foreground is busy exactly while an operation holds (log 24). -/
  busy : s.fgBusy = s.held.isSome
  /-- Only an admitted transfer operation holds on `done` (30_encoding.md R88). -/
  held : ∀ i, s.held = some (.onDone i) → i.isTransfer = true ∧ s.divider ≠ 0
  /-- A primitive that is held up waits for a stuck peripheral. -/
  heldUp : s.midPrimitive = true → s.HeldUpInv
  /-- The beats left and those done are at most a burst (10_state.md R33). -/
  beats : s.beatIdx.toNat + s.beatsLeft.toNat ≤ s.params.burstBeats
  /-- No session active. -/
  idle : s.done = true → s.IdleInv
  /-- A session active. -/
  session : s.done = false → s.SessionInv

/-- R50 (c) and (d), for runs that issue only the seven exposed operations: chip-select is deasserted outside a session and
the read strobe is deasserted, but inside a primitive that is held up. -/
structure State.LinesInv (s : State) : Prop where
  cs : s.done = true → s.midPrimitive = false → s.cs = .high
  rd : s.held ≠ some .onReadFlags → s.rd = .high
  held : ∀ i, s.held = some (.onDone i) → i.isExposed = true
  busy : s.fgBusy = s.held.isSome

/-- Beat `j` of a buffer at `base`: `beatval(j)` of R198, bytes in address order (20_memory.md R64). -/
def State.bufferBeat (s : State) (base j : Nat) : Beat :=
  match s.params.busWidth with
  | .w8 => byteBeat (Memory.read s.mem (base + j))
  | .w16 => Memory.read s.mem (base + (2 * j + 1)) ++ Memory.read s.mem (base + 2 * j)

/-- The events of a session over a buffer of `total` bytes at `base`, with the read strobe at level `rd`: the select
lines, the beats of the buffer in order, chip-select deasserted, the callback when there is one (R198). -/
def State.sessionEvents (s : State) (rd : Level) (base total : Nat) (cb : Bool) : List Event :=
  [.drive .cs .low, .drive .dc .high] ++
    (List.range (total / s.params.bytesPerBeat)).map (fun j => .wbeat .low .high rd (s.bufferBeat base j)) ++
    [.drive .cs .high] ++ (if cb then [.callback] else [])

/-- The launch state of 70_reset_and_hazards.md R253 and R255: reset, then INIT. -/
def launch (p : Params) (sel : BitVec 8) : Result := exec (.init sel) (State.resetWith p)

/-- A chain of operations executed one after the other. -/
def execAll : List Instr → State → Result
  | [], s => .next s
  | i :: is, s => andThen (exec i s) (execAll is)

/-- The line and level that a strobe operation drives (40_strobe.md R111 to R116); none for any other operation. -/
def strobeTarget : Instr → Option (Line × Level)
  | .selchip => some (.cs, .low)
  | .deselchip => some (.cs, .high)
  | .selcmd => some (.dc, .low)
  | .seldata => some (.dc, .high)
  | .rdlow => some (.rd, .low)
  | .rdhigh => some (.rd, .high)
  | .init _ | .config _ | .wrcmd _ | .wrdata _ | .wrdata16 _ | .rddata | .rdstatus | .burst _ _ _ => none

/-- The level of a line after a sequence of strobe operations: that of the last operation on it, or the level before
(40_strobe.md R117 (b)). -/
def lastLevel (is : List Instr) (l : Line) (before : Level) : Level :=
  is.foldl (fun v i =>
    match strobeTarget i with
    | some (k, w) => if k = l then w else v
    | none => v) before

/-- Lane 0 after a single write beat: the buffer as written, taken into the shifter (42_sync.md R151). -/
def Lane.sent (p : Params) (v : Beat) : Lane := { buf := beatBytes p v, rdy := true, sreg := beatBytes p v }

/-- The five synchronous primitives (42_sync.md). -/
def isSyncPrimitive : Instr → Bool
  | .wrcmd _ | .wrdata _ | .wrdata16 _ | .rddata | .rdstatus => true
  | .selchip | .deselchip | .selcmd | .seldata | .rdlow | .rdhigh | .init _ | .config _ | .burst _ _ _ => false

/-- The beats that a primitive may put on the bus (42_sync.md R160): a command write, a data write, a status read or a
data read, by the operation. -/
def primitiveEvent (i : Instr) : Event → Bool
  | .wbeat cs dc rd _ =>
    match i with
    | .wrcmd _ => decide (cs = .low ∧ dc = .low ∧ rd = .high)
    | .wrdata _ | .wrdata16 _ => decide (cs = .low ∧ dc = .high ∧ rd = .high)
    | _ => false
  | .rbeat cs dc rd _ =>
    match i with
    | .rddata => decide (cs = .low ∧ dc = .high ∧ rd = .low)
    | .rdstatus => decide (cs = .low ∧ dc = .low ∧ rd = .low)
    | _ => false
  | .drive _ _ => true
  | .callback => false

/-- A beat of the bus. -/
def isBeat : Event → Bool
  | .wbeat _ _ _ _ | .rbeat _ _ _ _ => true
  | .drive _ _ | .callback => false

/-- Nothing but the foreground can step: no move of the interrupt agent, the peripheral or the environment is enabled. -/
def State.quiet (s : State) : Bool :=
  [Move.shifterEmpty, .burstComplete, .bankLoad, .writeBeat, .readBeat, .hostStore].all (fun m => !s.canMove m)

/-- The peripheral takes at least `n` more of its steps: it is not stuck before (70_reset_and_hazards.md R271). -/
def State.peripheralTakes (s : State) (n : Nat) : Bool := takesSteps s.peripheralSteps n

/-- How many steps of the peripheral a primitive waits for: a bank load and a write beat for each beat it writes
(42_sync.md R151), a read beat for the one it reads (R152). -/
def State.primitiveSteps (s : State) (i : Instr) : Nat :=
  match i with
  | .wrcmd _ | .wrdata _ => 2
  | .wrdata16 w => 2 * (wordBeats s.params w).length
  | .rddata | .rdstatus => 1
  | .selchip | .deselchip | .selcmd | .seldata | .rdlow | .rdhigh | .init _ | .config _ | .burst _ _ _ => 0

/-- `OneWriteBeat(v)` with both its holds lifted by the steps that 42_sync.md R151 names: the buffer write, the bank load,
the write beat, the flags cleared. -/
def State.oneWriteBeat (s : State) (v : Beat) : State :=
  ((s.writeShiftBuf0 (beatBytes s.params v)).bankLoad.writeBeat).clearDoneFlags

/-- No step of the peripheral is enabled (41_config.md R141 to R143). -/
def State.peripheralIdle (s : State) : Bool := !s.canBankLoad && !s.canWriteBeat && !s.canReadBeat

/-- No interrupt is pending (10_state.md R37). -/
def State.nothingPending (s : State) : Bool := !s.sePending && !s.tcPending

/-- An outcome that is no fault: the safety that statements claim. -/
def noFault (r : Result) : Bool :=
  match r with
  | .fault _ => false
  | .next _ => true
  | .refused _ => true

end Sys2Proof.Machine
end

