-- ==== Sys2Proof/Certificates/Slice0/Obligations.lean ====
section
/-! DEFINITION. The statements about the transfer engine, for the provers. -/

open Sys2Proof Sys2Proof.Machine

/-! ### Encoding -/

/-- Decoding the words of a well-formed operation gives it back, whatever follows them and whatever the width of an
address (30_encoding.md R81 to R86). -/
def Obligations.DecodeOfEncode : Prop :=
  ∀ (aw : Nat) (i : Instr) (rest : List PortWord), i.wf aw = true → decode aw (encode i ++ rest) = .ok (i, rest)

/-- The decoder reads only the words of the operation it answers: as far as the port has lines for them they are its
encoding (30_encoding.md R81 to R86, log 2), and the rest is left. -/
def Obligations.DecodedWordsAreTheEncoding : Prop :=
  ∀ (aw : Nat) (ws rest : List PortWord) (i : Instr), decode aw ws = .ok (i, rest) →
    i.wf aw = true ∧ ∃ front, ws = front ++ rest ∧ portCut aw front = encode i

/-- R90: a first word is a reserved encoding exactly when it matches no row of the table, or is CONFIG with mode 0;
the step that would accept it refuses; and every INIT selector decodes. -/
def Obligations.ReservedEncodingsAreTheUnmatchedWords : Prop :=
  (∀ (aw : Nat) (w : Word) (ws : List PortWord), decode aw (w.toNat :: ws) = .error .reservedEncoding ↔
    (∀ row ∈ opcodeRows, w &&& row.fixedBits ≠ row.value) ∨ w = 0x11000000#32) ∧
  (∀ s : State, decode s.params.addrWidth s.port = .error .reservedEncoding →
    perform .accept s = .refused .reservedEncoding) ∧
  (∀ (aw : Nat) (sel : BitVec 8) (ws : List PortWord),
    decode aw ((0x10000000 + sel.toNat) :: ws) = .ok (.init sel, ws))

/-- Words written out from 30_encoding.md R81 and R83 (some of them in 95_test_vectors.md V9) decode to what they
stand for; and a base above 2^32 where addresses have 40 bits (R86). -/
def Obligations.SampleWordsDecode : Prop :=
  decode 32 [0x01000000] = .ok (.selchip, []) ∧ decode 32 [0x06000000] = .ok (.rdhigh, []) ∧
  decode 32 [0x100000FF] = .ok (.init 255, []) ∧ decode 32 [0x11000003] = .ok (.config .multiBeatBurst, []) ∧
  decode 32 [0x2200FFFF] = .ok (.wrdata16 0xFFFF, []) ∧
  decode 32 [0x30000001, 0x00000000, 0x00000001] = .ok (.burst true 0 1, []) ∧
  decode 40 [0x30000000, 0xFF00000000, 0x00000001] = .ok (.burst false 0xFF00000000 1, []) ∧
  decode 32 [0x25000000] = .error .reservedEncoding ∧ decode 32 [0x01010000] = .error .reservedEncoding ∧
  decode 32 [0x30000002, 0, 0] = .error .reservedEncoding

/-! ### Strobe Controller -/

/-- R111 to R116: encoding and alias, the operation's whole effect outside a session (one latch, one `Drive` event,
`Ack`), and that its event is redundant when the line has the level already. -/
def Obligations.StrobeOperationsDriveOneLine : Prop :=
  (encode .selchip = [0x01000000] ∧ encode .deselchip = [0x02000000] ∧ encode .selcmd = [0x03000000] ∧
    encode .seldata = [0x04000000] ∧ encode .rdlow = [0x05000000] ∧ encode .rdhigh = [0x06000000]) ∧
  (Alias.expand .assert = .selchip ∧ Alias.expand .deassert = .deselchip) ∧
  (∀ (l : Line) (s : State), observation s.cs s.dc s.rd [.drive l (s.pin l)] = []) ∧
  ∀ s : State, s.done = true → s.inCallback = false →
    exec .selchip s = .next { s with
      cs := .low, trace := s.trace ++ [.drive .cs .low], responses := s.responses ++ [.ack], fgBusy := false, held := none } ∧
    exec .deselchip s = .next { s with
      cs := .high, trace := s.trace ++ [.drive .cs .high], responses := s.responses ++ [.ack], fgBusy := false, held := none } ∧
    exec .selcmd s = .next { s with
      dc := .low, trace := s.trace ++ [.drive .dc .low], responses := s.responses ++ [.ack], fgBusy := false, held := none } ∧
    exec .seldata s = .next { s with
      dc := .high, trace := s.trace ++ [.drive .dc .high], responses := s.responses ++ [.ack], fgBusy := false, held := none } ∧
    exec .rdlow s = .next { s with
      rd := .low, trace := s.trace ++ [.drive .rd .low], responses := s.responses ++ [.ack], fgBusy := false, held := none } ∧
    exec .rdhigh s = .next { s with
      rd := .high, trace := s.trace ++ [.drive .rd .high], responses := s.responses ++ [.ack], fgBusy := false, held := none }

/-- R119: a strobe operation issued directly is refused during a session and from the callback, and is accepted
otherwise, before INIT too. -/
def Obligations.StrobeOperationsAreAdmittedOutsideSessions : Prop :=
  ∀ (i : Instr) (s : State), (strobeTarget i).isSome = true →
    (s.inCallback = true → exec i s = .refused .opFromCallback) ∧
    (s.inCallback = false → s.done = false → exec i s = .refused .strobeDuringSession) ∧
    (s.inCallback = false → s.done = true → ∃ t, exec i s = .next t) ∧
    (s.inCallback = false → s.done = true → s.divider = 0 → ∃ t, exec i s = .next t ∧ t.divider = 0)

/-- R117 (b), which the spec derives: after any sequence of strobe operations each line has the level of the last
operation on it, or the level before; and nothing but the pins, the trace and the responses changed (R117 (d)). -/
def Obligations.LastStrobeOperationWins : Prop :=
  ∀ (is : List Instr) (s : State), (∀ i ∈ is, (strobeTarget i).isSome = true) → s.done = true →
    s.inCallback = false → s.fgBusy = false → s.held = none →
    ∃ t, execAll is s = .next t ∧ (∀ l, t.pin l = lastLevel is l (s.pin l)) ∧
      t = { s with cs := t.cs, dc := t.dc, rd := t.rd, trace := t.trace, responses := t.responses }

/-- R117 (a), which the spec derives: the same strobe operation twice leaves the state that once leaves, but for the
trace and the responses, and the same observation. -/
def Obligations.StrobeOperationTwiceIsOnce : Prop :=
  ∀ (i : Instr) (s : State), (strobeTarget i).isSome = true → s.done = true → s.inCallback = false →
    ∃ t u es fs, exec i s = .next t ∧ exec i t = .next u ∧
      u = { t with trace := u.trace, responses := u.responses } ∧
      t.trace = s.trace ++ es ∧ u.trace = s.trace ++ fs ∧
      observation s.cs s.dc s.rd fs = observation s.cs s.dc s.rd es

/-- R117 (c), which the spec derives: strobe operations on different lines commute as far as the state goes, but for
the order of their events. -/
def Obligations.StrobeOperationsOnDifferentLinesCommute : Prop :=
  ∀ (i j : Instr) (a b : Line × Level) (s : State), strobeTarget i = some a → strobeTarget j = some b → a.1 ≠ b.1 →
    s.done = true → s.inCallback = false →
    ∃ t u, execAll [i, j] s = .next t ∧ execAll [j, i] s = .next u ∧ u = { t with trace := u.trace } ∧
      t.trace = s.trace ++ [.drive a.1 a.2, .drive b.1 b.2] ∧ u.trace = s.trace ++ [.drive b.1 b.2, .drive a.1 a.2]

/-! ### Engine Configuration Manager -/

/-- R97: the speed selector table, 20 for every other value, and every divider of the table even and at least 2. -/
def Obligations.SelectorTable : Prop :=
  dividerOfSelector 2 = 120 ∧ dividerOfSelector 4 = 60 ∧ dividerOfSelector 8 = 30 ∧ dividerOfSelector 12 = 20 ∧
  dividerOfSelector 20 = 12 ∧ dividerOfSelector 24 = 10 ∧ dividerOfSelector 30 = 8 ∧ dividerOfSelector 40 = 6 ∧
  dividerOfSelector 60 = 4 ∧ dividerOfSelector 120 = 2 ∧
  (∀ sel : BitVec 8, sel ∉ [2#8, 4#8, 8#8, 12#8, 20#8, 24#8, 30#8, 40#8, 60#8, 120#8] → dividerOfSelector sel = 20) ∧
  (∀ sel : BitVec 8, (dividerOfSelector sel).toNat % 2 = 0 ∧ 2 ≤ (dividerOfSelector sel).toNat)

/-- The spec's own derivations from the table (30_encoding.md R96, and the last sentences of R97): selector times
divider is 240, and the single-beat and 8-beat compare values of each legal divider. -/
def Obligations.DerivedTablesOfTheDivider : Prop :=
  (∀ sel : BitVec 8, sel ∈ [2#8, 4#8, 8#8, 12#8, 20#8, 24#8, 30#8, 40#8, 60#8, 120#8] →
    sel.toNat * (dividerOfSelector sel).toNat = 240) ∧
  legalDividers.map (compareValue 1) =
    [0x013B, 0x011D, 0x010E, 0x0109, 0x0105, 0x0104, 0x0103, 0x0102, 0x0101, 0x0100] ∧
  legalDividers.map (compareValue 8) =
    [0x0F3B, 0x0F1D, 0x0F0E, 0x0F09, 0x0F05, 0x0F04, 0x0F03, 0x0F02, 0x0F01, 0x0F00]

/-- R131: INIT's encoding, its refusals, its whole effect, and that the divider is then never 0. -/
def Obligations.InitSelectsTheDividerAndResetsTheEngine : Prop :=
  ∀ (sel : BitVec 8) (s : State),
    encode (.init sel) = [0x10000000 + sel.toNat] ∧ dividerOfSelector sel ≠ 0 ∧
    (sel ∉ [2#8, 4#8, 8#8, 12#8, 20#8, 24#8, 30#8, 40#8, 60#8, 120#8] → dividerOfSelector sel = 20) ∧
    (s.inCallback = true → exec (.init sel) s = .refused .opFromCallback) ∧
    (s.inCallback = false → s.done = false → exec (.init sel) s = .refused .configDuringSession) ∧
    (s.inCallback = false → s.done = true → exec (.init sel) s = .next { s with
      divider := dividerOfSelector sel, pen := false, mode := .idle,
      bank := List.replicate s.params.shifters (Lane.cleared s.params), beatsLeft := 0, beatIdx := 0,
      sdone := false, tsf := false, sien := false, tien := false, timcmp := 0, cs := .high, rd := .high,
      trace := s.trace ++ [.drive .cs .high, .drive .rd .high], responses := s.responses ++ [.ack],
      fgBusy := false, held := none })

/-- R139: what the full peripheral reset clears; it touches nothing else. -/
def Obligations.PeripheralResetClearsThePeripheral : Prop :=
  ∀ s : State,
    s.periphReset = { s with
      bank := s.periphReset.bank, beatsLeft := 0, beatIdx := 0, sdone := false, tsf := false, sien := false,
      tien := false, timcmp := 0 } ∧
    s.periphReset.bank.length = s.params.shifters ∧
    ∀ l ∈ s.periphReset.bank, l.rdy = true ∧ l.buf = List.replicate s.params.shifterBytes 0 ∧
      l.sreg = List.replicate s.params.shifterBytes 0

/-- R133, R135: CONFIG's encoding and its whole effect for the three modes that can be requested. -/
def Obligations.ConfigProgramsTheRequestedMode : Prop :=
  (encode (.config .singleBeatWrite) = [0x11000001] ∧ encode (.config .singleBeatRead) = [0x11000002] ∧
    encode (.config .multiBeatBurst) = [0x11000003]) ∧
  ∀ (m : Mode) (s : State), m ≠ .idle → s.inCallback = false → s.done = true → s.divider ≠ 0 →
    exec (.config m) s = .next { s with
      pen := true, mode := m,
      bank := List.replicate s.params.shifters (Lane.cleared s.params), beatsLeft := 0, beatIdx := 0,
      sdone := false, tsf := false, sien := false, tien := false,
      timcmp := compareValue (if m = .multiBeatBurst then s.params.burstBeats else 1) s.divider,
      responses := s.responses ++ [.ack], fgBusy := false, held := none }

/-- R134: the preconditions of CONFIG, each a refusal, and no other word of the table asks for Idle. -/
def Obligations.ConfigRefusals : Prop :=
  ∀ (m : Mode) (s : State),
    (s.inCallback = true → exec (.config m) s = .refused .opFromCallback) ∧
    (s.inCallback = false → s.done = false → exec (.config m) s = .refused .configDuringSession) ∧
    (s.inCallback = false → s.done = true → m ≠ .idle → s.divider = 0 →
      exec (.config m) s = .refused .dividerZero) ∧
    (s.inCallback = false → s.done = true → exec (.config .idle) s = .refused .reservedEncoding) ∧
    decode s.params.addrWidth [0x11000000] = .error .reservedEncoding

/-- R95: the layout of the compare value, and that decoding its two fields gives back the beat count and the divider.
-/
def Obligations.CompareValueLayout : Prop :=
  ∀ (n : Nat) (d : BitVec 8), 1 ≤ n → n ≤ 128 → d ∈ legalDividers →
    (compareValue n d).toNat = (n * 2 - 1) * 256 + (d.toNat / 2 - 1) ∧
    (compareValue n d).extractLsb' 8 8 = BitVec.ofNat 8 (n * 2 - 1) ∧
    (compareValue n d).extractLsb' 0 8 = BitVec.ofNat 8 (d.toNat / 2 - 1) ∧
    (beatsOfCompare (compareValue n d)).toNat = n ∧ dividerOfCompare (compareValue n d) = d.toNat ∧
    ((compareValue n d).extractLsb' 8 8).toNat % 2 = 1 ∧ ((compareValue n d).extractLsb' 0 8).toNat ≤ 59

/-- R145, which the spec derives: configuring the mode an idle engine is in changes nothing but the contents of the
bank, and the beat index, which R145 does not name. -/
def Obligations.SameModeConfigureKeepsTheState : Prop :=
  ∀ (s : State) (m : Mode), m ≠ .idle → s.mode = m → s.pen = true → s.beatsLeft = 0 →
    s.bank.length = s.params.shifters → (∀ l ∈ s.bank, l.rdy = true) → s.sdone = false → s.tsf = false →
    s.sien = false → s.tien = false → s.timcmp = compareValue (programBeats s.params m) s.divider →
    ∃ bank, s.configure m = { s with bank := bank, beatIdx := 0 } ∧ bank.map Lane.rdy = s.bank.map Lane.rdy

/-! ### Synchronous Transaction Primitives -/

/-- R153: WRCMD's encoding, its hold, and its whole effect where the peripheral takes the two steps it waits for (log
7; where it is stuck: PrimitivesReturnTheBusToWriteMode). -/
def Obligations.WriteCommandSendsOneCommandBeat : Prop :=
  ∀ (b : Byte) (s : State), s.params.wf = true → s.inCallback = false → s.divider ≠ 0 →
    encode (.wrcmd b) = [0x20000000 + b.toNat] ∧
    (s.done = false → exec (.wrcmd b) s = .next { s with fgBusy := true, held := some (.onDone (.wrcmd b)) }) ∧
    (s.done = true → s.peripheralTakes 2 = true → exec (.wrcmd b) s = .next { s with
      mode := .singleBeatWrite, pen := true, timcmp := compareValue 1 s.divider,
      bank := Lane.sent s.params (b.setWidth 16) :: List.replicate (s.params.shifters - 1) (Lane.cleared s.params),
      beatsLeft := 0, beatIdx := 1, sdone := false, tsf := false, sien := false, tien := false,
      cs := .high, dc := .low,
      trace := s.trace ++ [.drive .cs .low, .drive .dc .low, .wbeat .low .low s.rd (b.setWidth 16), .drive .cs .high],
      responses := s.responses ++ [.ack], fgBusy := false, held := none,
      peripheralSteps := s.peripheralSteps.map (· - 2) })

/-- R154: WRDATA's encoding, its hold, and its whole effect where the peripheral takes the two steps it waits for (log
7). -/
def Obligations.WriteDataSendsOneDataBeat : Prop :=
  ∀ (b : Byte) (s : State), s.params.wf = true → s.inCallback = false → s.divider ≠ 0 →
    encode (.wrdata b) = [0x21000000 + b.toNat] ∧
    (s.done = false → exec (.wrdata b) s = .next { s with fgBusy := true, held := some (.onDone (.wrdata b)) }) ∧
    (s.done = true → s.peripheralTakes 2 = true → exec (.wrdata b) s = .next { s with
      mode := .singleBeatWrite, pen := true, timcmp := compareValue 1 s.divider,
      bank := Lane.sent s.params (b.setWidth 16) :: List.replicate (s.params.shifters - 1) (Lane.cleared s.params),
      beatsLeft := 0, beatIdx := 1, sdone := false, tsf := false, sien := false, tien := false,
      cs := .high, dc := .high,
      trace := s.trace ++ [.drive .cs .low, .drive .dc .high, .wbeat .low .high s.rd (b.setWidth 16), .drive .cs .high],
      responses := s.responses ++ [.ack], fgBusy := false, held := none,
      peripheralSteps := s.peripheralSteps.map (· - 2) })

/-- R155: WRDATA16's encoding, its hold, and its whole effect on either bus: high byte first on 8 bits, one beat on
16, where the peripheral takes the steps it waits for (log 7). -/
def Obligations.WriteData16SendsTheHighByteFirst : Prop :=
  ∀ (w : BitVec 16) (s : State), s.params.wf = true → s.inCallback = false → s.divider ≠ 0 →
    encode (.wrdata16 w) = [0x22000000 + w.toNat] ∧
    (s.done = false → exec (.wrdata16 w) s = .next { s with fgBusy := true, held := some (.onDone (.wrdata16 w)) }) ∧
    (s.done = true → s.params.busWidth = .w8 → s.peripheralTakes 4 = true → exec (.wrdata16 w) s = .next { s with
      mode := .singleBeatWrite, pen := true, timcmp := compareValue 1 s.divider,
      bank := Lane.sent s.params ((w.extractLsb' 0 8).setWidth 16) ::
        List.replicate (s.params.shifters - 1) (Lane.cleared s.params),
      beatsLeft := 0, beatIdx := 1, sdone := false, tsf := false, sien := false, tien := false,
      cs := .high, dc := .high,
      trace := s.trace ++ [.drive .cs .low, .drive .dc .high,
        .wbeat .low .high s.rd ((w.extractLsb' 8 8).setWidth 16),
        .wbeat .low .high s.rd ((w.extractLsb' 0 8).setWidth 16), .drive .cs .high],
      responses := s.responses ++ [.ack], fgBusy := false, held := none,
      peripheralSteps := s.peripheralSteps.map (· - 4) }) ∧
    (s.done = true → s.params.busWidth = .w16 → s.peripheralTakes 2 = true → exec (.wrdata16 w) s = .next { s with
      mode := .singleBeatWrite, pen := true, timcmp := compareValue 1 s.divider,
      bank := Lane.sent s.params w :: List.replicate (s.params.shifters - 1) (Lane.cleared s.params),
      beatsLeft := 0, beatIdx := 1, sdone := false, tsf := false, sien := false, tien := false,
      cs := .high, dc := .high,
      trace := s.trace ++ [.drive .cs .low, .drive .dc .high, .wbeat .low .high s.rd w, .drive .cs .high],
      responses := s.responses ++ [.ack], fgBusy := false, held := none,
      peripheralSteps := s.peripheralSteps.map (· - 2) })

/-- R156: RDDATA's encoding, its hold, and its whole effect, with the oracle's answer `v` (any value: the next one
already fixed, or the free value for the trace so far, log 9), where the peripheral takes the read beat it waits for
(log 7). -/
def Obligations.ReadDataReturnsTheSampledByte : Prop :=
  ∀ (s : State) (v : Beat), s.params.wf = true → s.inCallback = false → s.divider ≠ 0 →
    encode .rddata = [0x23000000] ∧
    (s.done = false → exec .rddata s = .next { s with fgBusy := true, held := some (.onDone .rddata) }) ∧
    (s.done = true → s.peripheralTakes 1 = true →
      v = fitBus s.params (s.busIn.headD
        (Config.busIn (s.trace ++ [.drive .cs .low, .drive .dc .high, .drive .rd .low]))) →
      exec .rddata s = .next { s with
        mode := .singleBeatWrite, pen := true, timcmp := compareValue 1 s.divider,
        bank := List.replicate s.params.shifters (Lane.cleared s.params), beatsLeft := 0, beatIdx := 0,
        sdone := false, tsf := false, sien := false, tien := false, rxdata := v, busIn := s.busIn.tail,
        cs := .high, dc := .high, rd := .high,
        trace := s.trace ++ [.drive .cs .low, .drive .dc .high, .drive .rd .low, .rbeat .low .high .low v,
          .drive .rd .high, .drive .cs .high],
        responses := s.responses ++ [.byte (v.extractLsb' 0 8)], fgBusy := false, held := none,
        peripheralSteps := s.peripheralSteps.map (· - 1) })

/-- R157: RDSTATUS's encoding, its hold, and its whole effect: DC low throughout; where the peripheral takes the read
beat it waits for (log 7). -/
def Obligations.ReadStatusReturnsTheSampledByte : Prop :=
  ∀ (s : State) (v : Beat), s.params.wf = true → s.inCallback = false → s.divider ≠ 0 →
    encode .rdstatus = [0x24000000] ∧
    (s.done = false → exec .rdstatus s = .next { s with fgBusy := true, held := some (.onDone .rdstatus) }) ∧
    (s.done = true → s.peripheralTakes 1 = true →
      v = fitBus s.params (s.busIn.headD
        (Config.busIn (s.trace ++ [.drive .cs .low, .drive .dc .low, .drive .rd .low]))) →
      exec .rdstatus s = .next { s with
        mode := .singleBeatWrite, pen := true, timcmp := compareValue 1 s.divider,
        bank := List.replicate s.params.shifters (Lane.cleared s.params), beatsLeft := 0, beatIdx := 0,
        sdone := false, tsf := false, sien := false, tien := false, rxdata := v, busIn := s.busIn.tail,
        cs := .high, dc := .low, rd := .high,
        trace := s.trace ++ [.drive .cs .low, .drive .dc .low, .drive .rd .low, .rbeat .low .low .low v,
          .drive .rd .high, .drive .cs .high],
        responses := s.responses ++ [.byte (v.extractLsb' 0 8)], fgBusy := false, held := none,
        peripheralSteps := s.peripheralSteps.map (· - 1) })

/-- R88: when the foreground accepts, and when a held operation goes on; (a) the transfer operations, (b) the
micro-operations and INIT, (c) the callback; and that the foreground is free exactly when the operation has returned.
-/
def Obligations.AdmissionOfOperations : Prop :=
  (∀ (s : State) (i : Instr) (rest : List PortWord), decode s.params.addrWidth s.port = .ok (i, rest) →
    (s.canMove .accept = true ↔
      s.fgBusy = false ∧ s.inIrq = false ∧ s.sePending = false ∧ s.tcPending = false)) ∧
  (∀ (s : State) (i : Instr), s.held = some (.onDone i) →
    (s.canMove .resume = true ↔
      s.done = true ∧ s.inIrq = false ∧ s.sePending = false ∧ s.tcPending = false)) ∧
  (∀ (i : Instr) (s : State), s.inCallback = true → exec i s = .refused .opFromCallback) ∧
  (∀ (i : Instr) (s : State), i.isTransfer = true → s.inCallback = false →
    (s.divider = 0 → exec i s = .refused .dividerZero) ∧
    (s.divider ≠ 0 → s.done = false → exec i s = .next { s with fgBusy := true, held := some (.onDone i) })) ∧
  (∀ (i : Instr) (s : State), i.isTransfer = false → s.inCallback = false → s.done = false →
    exec i s = .refused (if (strobeTarget i).isSome then .strobeDuringSession else .configDuringSession)) ∧
  (∀ (m : Mode) (s : State), m ≠ .idle → s.inCallback = false → s.done = true → s.divider = 0 →
    exec (.config m) s = .refused .dividerZero) ∧
  (∀ (i : Instr) (s t : State), s.done = true → exec i s = .next t →
    t.fgBusy = t.held.isSome ∧ (t.held = none ↔ ∃ r, t.responses = s.responses ++ [r]))

/-- R239: any operation issued while `inCallback = 1` is refused; in particular one that the callback's host code
issues, from the burst-complete handler or from BURST of an empty buffer. -/
def Obligations.OperationsFromTheCallbackAreRefused : Prop :=
  (∀ (i : Instr) (s : State), s.inCallback = true → exec i s = .refused .opFromCallback) ∧
  (∀ (i : Instr) (rest : List PortWord) (s : State), decode s.params.addrWidth s.callbackPort = .ok (i, rest) →
    s.cbSlot = true → s.burstsRemaining = 1 → burstCompleteHandler s = .refused .opFromCallback) ∧
  (∀ (i : Instr) (rest : List PortWord) (base : Nat) (s : State),
    decode s.params.addrWidth s.callbackPort = .ok (i, rest) →
    s.inCallback = false → s.divider ≠ 0 → s.done = true → base ≤ 2 ^ s.params.addrWidth →
    exec (.burst true base 0) s = .refused .opFromCallback)

/-- R237 and R88, as far as an operation can show it: while a session is active an operation changes nothing but that
the foreground holds, and only a transfer operation is accepted at all. -/
def Obligations.ForegroundOnlyHoldsDuringSession : Prop :=
  ∀ (i : Instr) (s t : State), s.done = false → exec i s = .next t →
    i.isTransfer = true ∧ t = { s with fgBusy := true, held := some (.onDone i) }

/-- R158, which the spec derives: on return from a primitive the engine is back in write mode with chip-select
deasserted and nothing in flight; and R160, derived too: the beats it emitted are of its kind, if the read strobe was
deasserted before. It returns when the peripheral takes the steps it waits for; where the peripheral is stuck before
(log 7) it hangs (R161, R221, R224, U2): it holds in every later state, has not answered, and never faults or times
out. -/
def Obligations.PrimitivesReturnTheBusToWriteMode : Prop :=
  (∀ (i : Instr) (s : State), isSyncPrimitive i = true → s.params.wf = true → s.inCallback = false →
    s.divider ≠ 0 → s.done = true → s.rd = .high → s.peripheralTakes (s.primitiveSteps i) = true →
    ∃ t es, exec i s = .next t ∧ t.mode = .singleBeatWrite ∧ t.pen = true ∧ t.cs = .high ∧ t.rd = .high ∧
      t.beatsLeft = 0 ∧ t.sdone = false ∧ t.tsf = false ∧ t.done = true ∧ t.fgBusy = false ∧
      t.trace = s.trace ++ es ∧ es.all (primitiveEvent i) = true ∧ es.any isBeat = true) ∧
  (∀ (i : Instr) (s : State), isSyncPrimitive i = true → s.Inv → s.divider ≠ 0 → s.done = true →
    s.peripheralTakes (s.primitiveSteps i) = false →
    ∃ t, exec i s = .next t ∧ t.midPrimitive = true ∧ t.responses = s.responses ∧
      ∀ k, ∃ u, Host.Core.run Sys2Proof.core k t = .next u ∧ u.held = t.held ∧ u.fgBusy = true ∧
        u.responses = s.responses ∧ u.trace = t.trace)

/-- R159, which the spec derives, and log 7: before each beat of a primitive, whatever beats went before, its first
hold is lifted (R151: `RDY[0] = 1`; R143: `beatsLeft = 0`) and nothing is enabled; after the buffer write, or the
start of the read, exactly the steps of the peripheral that the fused form takes are enabled, one after the other;
then the flags that the foreground waits for are set and no further step of the peripheral is enabled; and no
interrupt is pending at any of these places. So a peripheral that is not stuck makes of each beat the actions of R151.
-/
def Obligations.FusedPrimitiveStepsAreEnabled : Prop :=
  (∀ (s : State) (dc : Level) (vs : List Beat) (v : Beat), s.params.wf = true →
    let t := vs.foldl State.oneWriteBeat ((s.configure .singleBeatWrite).select dc)
    let w := t.writeShiftBuf0 (beatBytes t.params v)
    (t.firstReady = true ∧ t.doneFlags = false ∧ t.peripheralIdle = true ∧ t.nothingPending = true) ∧
    (w.canBankLoad = true ∧ w.canWriteBeat = false ∧ w.canReadBeat = false ∧ w.doneFlags = false ∧
      w.nothingPending = true) ∧
    (w.bankLoad.canWriteBeat = true ∧ w.bankLoad.canBankLoad = false ∧ w.bankLoad.canReadBeat = false ∧
      w.bankLoad.doneFlags = false ∧ w.bankLoad.nothingPending = true) ∧
    (w.bankLoad.writeBeat.sdone = true ∧ w.bankLoad.writeBeat.tsf = true ∧
      w.bankLoad.writeBeat.peripheralIdle = true ∧ w.bankLoad.writeBeat.nothingPending = true) ∧
    (t.peripheralTakes 2 = true → ∀ later, State.sendBeats (v :: later) t =
      State.sendBeats later { t.oneWriteBeat v with peripheralSteps := t.peripheralSteps.map (· - 2) })) ∧
  (∀ (s : State) (dc : Level), s.params.wf = true →
    let t := ((s.configure .singleBeatRead).select dc).drive .rd .low
    let u := t.startRead
    (t.beatsLeft = 0 ∧ t.doneFlags = false ∧ t.peripheralIdle = true ∧ t.nothingPending = true) ∧
    (u.canReadBeat = true ∧ u.canBankLoad = false ∧ u.canWriteBeat = false ∧ u.doneFlags = false ∧
      u.nothingPending = true) ∧
    (u.readBeat.sdone = true ∧ u.readBeat.tsf = true ∧ u.readBeat.peripheralIdle = true ∧
      u.readBeat.nothingPending = true) ∧
    (t.peripheralTakes 1 = true → t.sampleBeat =
      State.finishRead { u.readBeat.clearDoneFlags with peripheralSteps := t.peripheralSteps.map (· - 1) }))

/-- R162, which the spec derives: with an oracle that echoes the write beats, reading after WRDATA16 returns both
bytes on an 8-bit bus, high byte first, and the low byte on a 16-bit bus; where the peripheral takes the steps they
wait for (log 7). -/
def Obligations.EchoedWordReadsBack : Prop :=
  ∀ (w : BitVec 16) (s : State) (later : List Beat), s.params.wf = true → s.inCallback = false → s.divider ≠ 0 →
    s.done = true →
    (s.params.busWidth = .w8 → s.peripheralTakes 6 = true →
      s.busIn = (w.extractLsb' 8 8).setWidth 16 :: (w.extractLsb' 0 8).setWidth 16 :: later →
      ∃ t, execAll [.wrdata16 w, .rddata, .rddata] s = .next t ∧
        t.responses = s.responses ++ [.ack, .byte (w.extractLsb' 8 8), .byte (w.extractLsb' 0 8)]) ∧
    (s.params.busWidth = .w16 → s.peripheralTakes 3 = true → s.busIn = w :: later →
      ∃ t, execAll [.wrdata16 w, .rddata] s = .next t ∧
        t.responses = s.responses ++ [.ack, .byte (w.extractLsb' 0 8)])

/-! ### Asynchronous Burst Engine -/

/-- R181, R184: BURST's encoding, its hold, its two refusals, the callback alone for an empty buffer (called from the
foreground: log 22), and the whole effect of its start phase otherwise. -/
def Obligations.BurstStartOpensTheSession : Prop :=
  ∀ (cb : Bool) (base : Nat) (count : BitVec 32) (s : State), s.params.wf = true → s.inCallback = false →
    s.divider ≠ 0 →
    encode (.burst cb base count) = [if cb then 0x30000001 else 0x30000000, base, count.toNat] ∧
    (s.done = false → exec (.burst cb base count) s =
      .next { s with fgBusy := true, held := some (.onDone (.burst cb base count)) }) ∧
    (s.done = true → 2 ^ 32 ≤ count.toNat * s.params.bytesPerElement →
      exec (.burst cb base count) s = .refused .lengthOverflow) ∧
    (s.done = true → count.toNat * s.params.bytesPerElement < 2 ^ 32 →
      2 ^ s.params.addrWidth < base + count.toNat * s.params.bytesPerElement →
      exec (.burst cb base count) s = .refused .bufferWraps) ∧
    (s.done = true → base ≤ 2 ^ s.params.addrWidth → count = 0 → (cb = true → s.callbackPort = []) →
      exec (.burst cb base count) s = .next { s with
        cbSlot := cb, trace := s.trace ++ (if cb then [.callback] else []), responses := s.responses ++ [.ack],
        fgBusy := false, held := none }) ∧
    (∀ total r : Nat, s.done = true → total = count.toNat * s.params.bytesPerElement → total < 2 ^ 32 →
      base + total ≤ 2 ^ s.params.addrWidth → count ≠ 0 → r = total % s.params.burstBytes →
      exec (.burst cb base count) s = .next { s with
        cbSlot := cb, mode := .multiBeatBurst, pen := true,
        bank := List.replicate s.params.shifters (Lane.cleared s.params), beatsLeft := 0, beatIdx := 0,
        sdone := false, tsf := false, sien := true, tien := true,
        timcmp := compareValue s.params.burstBeats s.divider,
        done := false, bufBase := base, totalBytes := BitVec.ofNat 32 total,
        bytesRemaining := BitVec.ofNat 32 total,
        burstsRemaining := BitVec.ofNat 32 ((total + s.params.burstBytes - 1) / s.params.burstBytes),
        readCursor := .live 0,
        finalBurstBuffer :=
          if r = 0 then s.finalBurstBuffer
          else (List.range r).map (fun k => Memory.read s.mem (base + (total - r) + k)) ++
            List.replicate (s.params.burstBytes - r) 0,
        cs := .low, dc := .high, trace := s.trace ++ [.drive .cs .low, .drive .dc .high],
        responses := s.responses ++ [.ack], fgBusy := false, held := none })

/-- R191: the shifter-empty handler with no data left disables its source and changes nothing else; the source is then
not pending, and no step of the session arms it again. -/
def Obligations.ShifterEmptyWithNothingLeftDisablesItself : Prop :=
  (∀ s : State, s.bytesRemaining = 0 →
    shifterEmptyHandler s = .next { s with sien := false, inIrq := false } ∧
    ({ s with sien := false, inIrq := false } : State).sePending = false) ∧
  (∀ s t : State, s.done = false → s.sien = false → step s = .next t → t.sien = false ∧ t.sePending = false)

/-- R192: the refill for the last, short burst. -/
def Obligations.ShifterEmptyLoadsTheShortLastBurst : Prop :=
  ∀ s : State, s.bytesRemaining ≠ 0 → s.bytesRemaining.toNat < s.params.burstBytes →
    shifterEmptyHandler s = .next { s with
      timcmp := compareValue (s.bytesRemaining.toNat / s.params.bytesPerBeat) s.divider,
      readCursor := .final, bytesRemaining := 0,
      bank := loadLanes s.params.shifterBytes s.bank s.finalBurstBuffer, inIrq := false }

/-- R193: a full refill from the live cursor, which advances by one burst. -/
def Obligations.ShifterEmptyLoadsAFullBurst : Prop :=
  ∀ (s : State) (o : Nat), s.params.wf = true → s.params.burstBytes ≤ s.bytesRemaining.toNat →
    s.readCursor = .live o → s.bufBase + o + s.params.burstBytes ≤ 2 ^ s.params.addrWidth →
    shifterEmptyHandler s = .next { s with
      bytesRemaining := BitVec.ofNat 32 (s.bytesRemaining.toNat - s.params.burstBytes),
      readCursor := .live (o + s.params.burstBytes),
      bank := loadLanes s.params.shifterBytes s.bank
        ((List.range s.params.burstBytes).map (fun k => Memory.read s.mem (s.bufBase + o + k))),
      inIrq := false }

/-- R194: after `LoadBank` shift buffer `i` holds bytes `i * SHIFTER_BYTES + k` of the data in order, and is not
ready; nothing but the buffers and their ready flags changes; the shifter-empty source is not pending, and a bank load
is enabled as soon as nothing is in flight. -/
def Obligations.LoadBankFillsTheBuffersInOrder : Prop :=
  ∀ (s : State) (data : List Byte), s.params.wf = true → data.length = s.params.burstBytes →
    s.bank.length = s.params.shifters →
    s.loadBank data = { s with bank := (s.loadBank data).bank } ∧
    (s.loadBank data).bank.length = s.params.shifters ∧ (s.loadBank data).sePending = false ∧
    (s.pen = true → s.mode = .multiBeatBurst → s.beatsLeft = 0 → (s.loadBank data).canBankLoad = true) ∧
    ∀ (i : Nat) (l : Lane), (s.loadBank data).bank[i]? = some l →
      l.rdy = false ∧ l.buf.length = s.params.shifterBytes ∧ (s.bank[i]?).map Lane.sreg = some l.sreg ∧
      ∀ k, k < s.params.shifterBytes → l.buf[k]? = data[i * s.params.shifterBytes + k]?

/-- R196: the guard of the burst-complete handler; it counts one burst; the last one ends the session, deasserts
chip-select and calls the callback. -/
def Obligations.BurstCompleteCountsAndEndsTheSession : Prop :=
  ∀ s : State,
    (s.canBurstComplete = true ↔
      s.mode = .multiBeatBurst ∧ s.tien = true ∧ s.tsf = true ∧ s.inIrq = false) ∧
    (1 < s.burstsRemaining.toNat → burstCompleteHandler s =
      .next { s with tsf := false, burstsRemaining := s.burstsRemaining - 1, inIrq := false }) ∧
    (s.burstsRemaining = 1 → s.cbSlot = false → burstCompleteHandler s =
      .next { s with
        tsf := false, burstsRemaining := 0, tien := false, done := true, cs := .high,
        trace := s.trace ++ [.drive .cs .high], inIrq := false, inCallback := false }) ∧
    (s.burstsRemaining = 1 → s.cbSlot = true → s.callbackPort = [] → burstCompleteHandler s =
      .next { s with
        tsf := false, burstsRemaining := 0, tien := false, done := true, cs := .high,
        trace := s.trace ++ [.drive .cs .high, .callback], inIrq := false, inCallback := false })

/-- R230, R231: entry changes `inIrq` only, return clears it and restores nothing; handlers do not nest (R190 gives
the guard of the shifter-empty handler); when both sources are pending the second runs after the first returned;
nothing in a handler can fault in a state with the invariant. -/
def Obligations.InterruptEntryAndReturn : Prop :=
  (∀ s : State, s.enterIrq = { s with inIrq := true } ∧ s.leaveIrq = { s with inIrq := false } ∧
    shifterEmptyHandler s = andThen (shifterEmptyBody s.enterIrq) (fun t => .next t.leaveIrq) ∧
    burstCompleteHandler s = andThen (burstCompleteBody s.enterIrq) (fun t => .next t.leaveIrq)) ∧
  (∀ s : State, s.canShifterEmpty = true ↔
    s.mode = .multiBeatBurst ∧ s.sien = true ∧ (∀ l ∈ s.bank, l.rdy = true) ∧ s.inIrq = false) ∧
  (∀ s : State, s.inIrq = true → s.canMove .shifterEmpty = false ∧ s.canMove .burstComplete = false) ∧
  (∀ s t : State, s.sePending = true → s.tcPending = true →
    (shifterEmptyHandler s = .next t → t.canBurstComplete = true) ∧
    (burstCompleteHandler s = .next t → t.canShifterEmpty = true)) ∧
  (∀ s : State, s.Inv → (s.canShifterEmpty = true → noFault (shifterEmptyHandler s) = true) ∧
    (s.canBurstComplete = true → noFault (burstCompleteHandler s) = true))

/-- R199, which the spec derives: the two handlers commute: either order answers the same next state, in every state.
-/
def Obligations.HandlersCommute : Prop :=
  ∀ s t : State,
    andThen (shifterEmptyHandler s) burstCompleteHandler = .next t ↔
      andThen (burstCompleteHandler s) shifterEmptyHandler = .next t

/-! ### The peripheral's steps -/

/-- R141: the guard of a bank load, and what it does: in MultiBeatBurst mode every lane moves, in SingleBeatWrite mode
lane 0 only; the beat count is latched from the compare register; the shifter-empty source becomes pending if armed.
-/
def Obligations.BankLoadMovesTheActiveLanes : Prop :=
  ∀ s : State, s.bank.length = s.params.shifters → 1 ≤ s.params.shifters →
    (s.canBankLoad = true ↔ s.pen = true ∧ s.beatsLeft = 0 ∧
      ((s.mode = .multiBeatBurst ∧ ∀ l ∈ s.bank, l.rdy = false) ∨
        (s.mode = .singleBeatWrite ∧ ∃ l, s.bank[0]? = some l ∧ l.rdy = false))) ∧
    (s.canBankLoad = true → ∃ bank,
      s.bankLoad = { s with
        bank := bank, beatsLeft := BitVec.ofNat 8 (((s.timcmp.extractLsb' 8 8).toNat + 1) / 2), beatIdx := 0 } ∧
      bank.length = s.bank.length ∧
      (∀ (i : Nat) (l : Lane), s.bank[i]? = some l →
        (s.mode = .multiBeatBurst ∨ i = 0 → bank[i]? = some { l with rdy := true, sreg := l.buf }) ∧
        (s.mode = .singleBeatWrite → i ≠ 0 → bank[i]? = some l)) ∧
      (s.mode = .multiBeatBurst → s.sien = true → ({ s with bank := bank } : State).sePending = true))

/-- R142: the guard of a write beat; it emits the next bus-width unit of the shifter in turn, byte 0 first; the last
beat sets both flags, which makes the burst-complete source pending if armed. -/
def Obligations.WriteBeatShiftsOutTheNextUnit : Prop :=
  (∀ s : State, s.canWriteBeat = true ↔ s.pen = true ∧
    (s.mode = .singleBeatWrite ∨ s.mode = .multiBeatBurst) ∧ s.beatsLeft ≠ 0 ∧
    (s.inIrq = true ∨ (s.sePending = false ∧ s.tcPending = false))) ∧
  ∀ (s : State) (l : Lane) (v : Beat) (k : Nat), k = s.beatIdx.toNat % s.params.beatsPerShifter →
    s.bank[s.beatIdx.toNat / s.params.beatsPerShifter]? = some l →
    (s.params.busWidth = .w8 → l.sreg[k]?.map (fun b => b.setWidth 16) = some v) →
    (s.params.busWidth = .w16 → ∃ hi lo, l.sreg[2 * k + 1]? = some hi ∧ l.sreg[2 * k]? = some lo ∧ v = hi ++ lo) →
    s.writeBeat = { s with
      trace := s.trace ++ [.wbeat s.cs s.dc s.rd v], beatIdx := s.beatIdx + 1, beatsLeft := s.beatsLeft - 1,
      sdone := decide (s.beatsLeft = 1) || s.sdone, tsf := decide (s.beatsLeft = 1) || s.tsf } ∧
    (s.beatsLeft = 1 → s.mode = .multiBeatBurst → s.tien = true → s.writeBeat.tcPending = true)

/-- R143: the start of a read transaction, the guard of a read beat, and its effect: it samples the oracle into
RXDATA, ends the transaction and sets both flags. -/
def Obligations.ReadBeatSamplesTheBus : Prop :=
  (∀ s : State, s.startRead = { s with
    beatsLeft := BitVec.ofNat 8 (((s.timcmp.extractLsb' 8 8).toNat + 1) / 2), beatIdx := 0 }) ∧
  (∀ s : State, s.canReadBeat = true ↔ s.pen = true ∧ s.mode = .singleBeatRead ∧ s.beatsLeft ≠ 0) ∧
  ∀ (s : State) (v : Beat), v = fitBus s.params (s.busIn.headD (Config.busIn s.trace)) →
    s.readBeat = { s with
      trace := s.trace ++ [.rbeat s.cs s.dc s.rd v], rxdata := v, busIn := s.busIn.tail, beatsLeft := 0,
      sdone := true, tsf := true }

/-! ### Agents and the step -/

/-- R229: while an interrupt is pending and no handler runs, a handler is enabled, and the foreground and the write
beat are not. -/
def Obligations.PendingInterruptsComeFirst : Prop :=
  ∀ s : State, s.sePending = true ∨ s.tcPending = true → s.inIrq = false →
    s.canMove .accept = false ∧ s.canMove .resume = false ∧ s.canWriteBeat = false ∧ s.canMove .writeBeat = false ∧
    (s.canShifterEmpty = true ∨ s.canBurstComplete = true)

/-- R228 and R140 as this model reads them (log 7, log 8, log 23): the handlers and the steps of the peripheral are
moves where their guards hold and their agent is not stuck, and do what their rules say; the order is open: where
several moves are enabled each of them can be the one taken; where one is, it is. -/
def Obligations.EveryEnabledMoveCanBeTaken : Prop :=
  (∀ s : State,
    (s.canMove .shifterEmpty = true ↔ s.interruptSteps ≠ some 0 ∧ s.canShifterEmpty = true) ∧
    (s.canMove .burstComplete = true ↔ s.interruptSteps ≠ some 0 ∧ s.canBurstComplete = true) ∧
    (s.canMove .bankLoad = true ↔ s.peripheralSteps ≠ some 0 ∧ s.canBankLoad = true) ∧
    (s.canMove .writeBeat = true ↔ s.peripheralSteps ≠ some 0 ∧ s.canWriteBeat = true) ∧
    (s.canMove .readBeat = true ↔ s.peripheralSteps ≠ some 0 ∧ s.canReadBeat = true) ∧
    perform .shifterEmpty s = shifterEmptyHandler { s with interruptSteps := s.interruptSteps.map (· - 1) } ∧
    perform .burstComplete s = burstCompleteHandler { s with interruptSteps := s.interruptSteps.map (· - 1) } ∧
    perform .bankLoad s = .next (({ s with peripheralSteps := s.peripheralSteps.map (· - 1) } : State).bankLoad) ∧
    perform .writeBeat s = .next (({ s with peripheralSteps := s.peripheralSteps.map (· - 1) } : State).writeBeat) ∧
    perform .readBeat s = .next (({ s with peripheralSteps := s.peripheralSteps.map (· - 1) } : State).readBeat)) ∧
  ∀ (s : State) (m : Move), s.params.wf = true → m ∈ s.enabled →
    (s.enabled = [m] → step s = perform m s) ∧
    (2 ≤ s.enabled.length → ∃ k, k < s.enabled.length ∧ step { s with sched := k :: s.sched } = perform m s)

/-- A step runs the decoded operation: where nothing but the foreground can step, the step is exec of the operation at
the front of the port, its words taken; and where more can, it is so for some schedule (R88). -/
def Obligations.StepRunsTheDecodedOperation : Prop :=
  ∀ (s : State) (i : Instr) (rest : List PortWord), s.params.wf = true →
    decode s.params.addrWidth s.port = .ok (i, rest) →
    s.fgBusy = false → s.held = none → s.inIrq = false → s.sePending = false → s.tcPending = false →
    (s.quiet = true → step s = exec i { s with port := rest }) ∧
    (s.quiet = false → ∃ k, step { s with sched := k :: s.sched } = exec i { s with port := rest })

/-- A held operation proceeds when its hold is lifted and nothing pre-empts it: where nothing else can step, the step
is exec of an operation that held on `done` (R88, R196), and the rest of a primitive, its flags cleared, that held on
the flags of a beat (R151, R152). -/
def Obligations.StepResumesTheHeldOperation : Prop :=
  ∀ s : State, s.params.wf = true → s.fgBusy = true → s.inIrq = false → s.sePending = false → s.tcPending = false →
    s.quiet = true →
    (∀ i, s.held = some (.onDone i) → s.done = true → step s = exec i s) ∧
    (∀ vs, s.held = some (.onReady vs) → s.firstReady = true → step s = .next (State.sendBeats vs s)) ∧
    (∀ vs, s.held = some (.onWriteFlags vs) → s.sdone = true → s.tsf = true →
      step s = .next (State.sendBeats vs { s with sdone := false, tsf := false })) ∧
    (s.held = some .onReadFlags → s.sdone = true → s.tsf = true →
      step s = .next (State.finishRead { s with sdone := false, tsf := false })) ∧
    (∀ h, s.held = some h → s.holdLifted = false → step s = .next s)

/-- R223, R8: a configuration outside the constraints is refused before any step; and no operation and no step changes
the parameters (the model's choice to hold them in State, log 1). -/
def Obligations.BadParametersAreRefused : Prop :=
  (∀ s : State, (s.params.shifters = 0 ∨ s.params.beatsPerShifter = 0 ∨
      128 < s.params.shifters * s.params.beatsPerShifter ∨ s.params.bytesPerElement = 0 ∨
      (s.params.busWidth = .w16 ∧ s.params.bytesPerElement % 2 = 1)) →
    step s = .refused .badParameters) ∧
  (∀ (i : Instr) (s t : State), exec i s = .next t → t.params = s.params) ∧
  (∀ s t : State, step s = .next t → t.params = s.params)

/-- R51: the reset values that the spec states for the elements that State holds (WR and D are not state, log 17; the
values the spec leaves unspecified, log 3 and log 4, are not claimed). -/
def Obligations.ResetValues : Prop :=
  ∀ p : Params,
    (State.resetWith p).cs = .high ∧ (State.resetWith p).dc = .high ∧ (State.resetWith p).rd = .high ∧
    (State.resetWith p).divider = 0 ∧ (State.resetWith p).mode = .idle ∧ (State.resetWith p).pen = false ∧
    (State.resetWith p).timcmp = 0 ∧ (State.resetWith p).bank.length = p.shifters ∧
    (∀ l ∈ (State.resetWith p).bank, l.rdy = true ∧ (∀ b ∈ l.buf, b = 0) ∧ (∀ b ∈ l.sreg, b = 0)) ∧
    (State.resetWith p).beatsLeft = 0 ∧ (State.resetWith p).beatIdx = 0 ∧ (State.resetWith p).sdone = false ∧
    (State.resetWith p).tsf = false ∧ (State.resetWith p).sien = false ∧ (State.resetWith p).tien = false ∧
    (State.resetWith p).done = true ∧ (State.resetWith p).cbSlot = false ∧ (State.resetWith p).fgBusy = false ∧
    (State.resetWith p).inIrq = false ∧ (State.resetWith p).inCallback = false ∧ (State.resetWith p).trace = []

/-- R252: before INIT, CONFIG and the six transfer operations are refused, and the strobe operations are accepted. -/
def Obligations.TheFirstOperationMustBeInit : Prop :=
  ∀ (p : Params) (i : Instr),
    (i.isTransfer = true → exec i (State.resetWith p) = .refused .dividerZero) ∧
    (∀ m, m ≠ .idle → exec (.config m) (State.resetWith p) = .refused .dividerZero) ∧
    ((strobeTarget i).isSome = true → ∃ t, exec i (State.resetWith p) = .next t) ∧
    (∀ sel, ∃ t, exec (.init sel) (State.resetWith p) = .next t ∧ t.divider = dividerOfSelector sel)

/-- R255, which the spec derives: the state after reset and INIT. -/
def Obligations.LaunchState : Prop :=
  ∀ (p : Params) (sel : BitVec 8),
    launch p sel = .next { State.resetWith p with
      divider := dividerOfSelector sel, trace := [.drive .cs .high, .drive .rd .high], responses := [.ack] } ∧
    observation .high .high .high [.drive .cs .high, .drive .rd .high] = []

/-! ### Invariants and whole runs -/

/-- The invariant holds at reset, with any legal parameters, and so do the levels of R50 (c), which the spec derives.
The reset memory and session record are the model's choice (log 4, log 5). -/
def Obligations.ResetHasTheInvariant : Prop :=
  (∀ p : Params, p.wf = true → (State.resetWith p).Inv ∧ (State.resetWith p).LinesInv) ∧ State.reset.Inv

/-- Every step keeps the invariant (the spec's own inferences R50 (a), (b), (e), (f), (g), the canonical memory, the
widths of the bank and of `bufBase`, that only a stuck peripheral holds a primitive up, and the account of bursts that
no burst-complete event is lost from). -/
def Obligations.EveryStepKeepsTheInvariant : Prop :=
  ∀ s t : State, s.Inv → step s = .next t → t.Inv

/-- No step from a state with the invariant faults: the engine never loses a burst, never refills from a cursor that
is not live, and never reads outside the address space (R93, R196, R220). -/
def Obligations.TheInvariantExcludesFaults : Prop :=
  ∀ s : State, s.Inv → noFault (step s) = true

/-- A session has no hang of its own: while it is active the guard of some step of the interrupt agent or the
peripheral holds (R262, R272), and the step can be taken unless its agent is stuck (R271, log 7, log 23). -/
def Obligations.AnActiveSessionAlwaysHasAStep : Prop :=
  ∀ s : State, s.Inv → s.done = false →
    (s.canShifterEmpty = true ∨ s.canBurstComplete = true ∨ s.canBankLoad = true ∨ s.canWriteBeat = true) ∧
    (s.peripheralSteps ≠ some 0 → s.interruptSteps ≠ some 0 →
      s.canMove .shifterEmpty = true ∨ s.canMove .burstComplete = true ∨ s.canMove .bankLoad = true ∨
        s.canMove .writeBeat = true)

/-- R50 (c), (d), which the spec derives: as long as only the seven exposed operations are issued, every step keeps
chip-select deasserted outside a session and the read strobe deasserted, but inside a primitive that holds (log 7). -/
def Obligations.ExposedOperationsLeaveTheLinesDeasserted : Prop :=
  ∀ s t : State, s.LinesInv → (∀ i rest, decode s.params.addrWidth s.port = .ok (i, rest) → i.isExposed = true) →
    step s = .next t → t.LinesInv

/-- R198, which the spec derives: for every schedule, when a session that BURST opened ends, the trace has grown by
the session's events and no others: the select lines, the buffer's beats in order, chip-select, the callback once. The
caller stores nothing to the buffer meanwhile (R265). -/
def Obligations.SessionDeliversTheBuffer : Prop :=
  ∀ (cb : Bool) (base : Nat) (count : BitVec 32) (s s1 t : State) (k : Nat), s.Inv → s.done = true →
    (∀ c ∈ s.hostStores, c.1 < base ∨ base + count.toNat * s.params.bytesPerElement ≤ c.1) →
    count ≠ 0 → exec (.burst cb base count) s = .next s1 →
    Host.Core.run Sys2Proof.core k s1 = .next t → t.done = true →
    (∀ j u, j < k → Host.Core.run Sys2Proof.core j s1 = .next u → u.done = false) →
    t.trace = s.trace ++ s.sessionEvents s.rd base (count.toNat * s.params.bytesPerElement) cb

/-- Every session ends, for every schedule, when no further operation is presented, the callback issues none, and
neither agent gets stuck (R201, R271). The premise is needed: with a stuck peripheral and beats still to send, or with
a stuck interrupt agent, no run ends the session, and none faults (R221, R224, U2; log 7, log 23). -/
def Obligations.EverySessionEnds : Prop :=
  (∀ s : State, s.Inv → s.done = false → s.port = [] → s.callbackPort = [] → s.peripheralSteps = none →
    s.interruptSteps = none → ∃ k t, Host.Core.run Sys2Proof.core k s = .next t ∧ t.done = true) ∧
  (∀ s : State, s.Inv → s.done = false → s.port = [] →
    (s.peripheralSteps = some 0 ∧ oneIf s.tsf < s.burstsRemaining.toNat ∨ s.interruptSteps = some 0) →
    ∀ k, ∃ t, Host.Core.run Sys2Proof.core k s = .next t ∧ t.done = false ∧ t.responses = s.responses)

/-- R61: what `MemRead` returns for bytes that exist, `n = 0` among them; and the block never writes host memory: no
operation changes it, and no step of any of the three agents does (a `hostStore` is the caller's own, not the block's). -/
def Obligations.TheBlockNeverWritesHostMemory : Prop :=
  (∀ (s : State) (addr n : Nat), addr + n ≤ 2 ^ s.params.addrWidth →
    ∃ d, s.memRead addr n = some d ∧ d.length = n ∧ ∀ k, k < n → d[k]? = some (Memory.read s.mem (addr + k))) ∧
  (∀ (i : Instr) (s t : State), exec i s = .next t → t.mem = s.mem) ∧
  (∀ (m : Move) (s t : State), m ≠ .hostStore → perform m s = .next t → t.mem = s.mem)

/-- R48: the trace is empty at reset and only ever grows; and so do the responses (log 13); and a step changes host
memory only by the caller's next store (log 16). -/
def Obligations.TheTraceOnlyGrows : Prop :=
  (∀ p : Params, (State.resetWith p).trace = []) ∧
  ∀ s t : State, step s = .next t →
    (∃ es, t.trace = s.trace ++ es) ∧ (∃ rs, t.responses = s.responses ++ rs) ∧
    (t.mem = s.mem ∨ ∃ c cs, s.hostStores = c :: cs ∧ t.hostStores = cs ∧ t.mem = Memory.write s.mem c.1 c.2)

/-- R44: `done` goes to 0 only by a BURST of at least one element, and to 1 only by the burst-complete handler run in
which `burstsRemaining` reaches 0, which deasserts chip-select. -/
def Obligations.DoneChangesOnlyAtSessionEnds : Prop :=
  ∀ s t : State, step s = .next t →
    (s.done = true → t.done = false → ∃ cb base count,
      (s.held = some (.onDone (.burst cb base count)) ∨
        ∃ rest, decode s.params.addrWidth s.port = .ok (.burst cb base count, rest)) ∧
        count ≠ 0) ∧
    (s.done = false → t.done = true →
      s.tcPending = true ∧ s.burstsRemaining = 1 ∧ t.burstsRemaining = 0 ∧ t.tien = false ∧ t.cs = .high)

/-- R27: the divider is written only by INIT. -/
def Obligations.OnlyInitWritesTheDivider : Prop :=
  ∀ s t : State, step s = .next t → t.divider ≠ s.divider →
    ∃ sel, (s.held = some (.onDone (.init sel)) ∨ ∃ rest, decode s.params.addrWidth s.port = .ok (.init sel, rest)) ∧
      t.divider = dividerOfSelector sel

/-- R50 (e), which the spec derives, and R40: during a session `bytesRemaining` never increases and `totalBytes` does
not change. -/
def Obligations.BytesRemainingNeverIncreases : Prop :=
  ∀ s t : State, s.done = false → step s = .next t →
    t.bytesRemaining.toNat ≤ s.bytesRemaining.toNat ∧ t.totalBytes = s.totalBytes ∧ t.bufBase = s.bufBase

/-- R262, with log 11: where the run is over and the caller stores nothing more, a step changes nothing. -/
def Obligations.ARunThatIsOverStaysOver : Prop :=
  ∀ s : State, s.Inv → s.runOver = true → s.hostStores = [] → step s = .next s
end

