-- ==== Sys2Proof/Laws/Memory.lean ====
section
/-! SUPPORT. Host memory: the canonical form is kept, and a read after a write. -/

namespace Sys2Proof.Machine

theorem Memory.rising_cons (c : Host.Cell) (m : List Host.Cell) :
    Memory.rising (c :: m) = true ↔ (∀ d ∈ m, c.1 < d.1) ∧ Memory.rising m = true := by
  simp [Memory.rising]

theorem Memory.wf_cons (c : Host.Cell) (m : List Host.Cell) :
    Memory.wf (c :: m) = true ↔ (∀ d ∈ m, c.1 < d.1) ∧ c.2 ≠ Memory.unlisted ∧ Memory.wf m = true := by
  simp only [Memory.wf, Bool.and_eq_true, Memory.rising_cons, List.all_cons, decide_eq_true_eq]
  tauto

@[simp] theorem Memory.wf_nil : Memory.wf [] = true := rfl

/-- An entry of a memory after a write is the written one or was there before. -/
theorem Memory.mem_write {m : List Host.Cell} {a : Nat} {b : Byte} {c : Host.Cell}
    (h : c ∈ Memory.write m a b) : c = (a, b) ∨ c ∈ m := by
  induction m with
  | nil => unfold Memory.write at h; split at h <;> simp_all
  | cons d m ih =>
    unfold Memory.write at h
    split at h
    · split at h <;> simp_all
    · split at h
      · split at h
        · exact .inr (List.mem_cons_of_mem _ h)
        · rcases List.mem_cons.1 h with h | h
          · exact .inl h
          · exact .inr (List.mem_cons_of_mem _ h)
      · rcases List.mem_cons.1 h with h | h
        · simp [h]
        · rcases ih h with h | h <;> simp [h]

/-- A write keeps the canonical form. -/
theorem Memory.write_wf {m : List Host.Cell} (h : Memory.wf m = true) (a : Nat) (b : Byte) :
    Memory.wf (Memory.write m a b) = true := by
  induction m with
  | nil =>
    unfold Memory.write
    split
    · rfl
    · rw [Memory.wf_cons]; exact ⟨by simp, by assumption, rfl⟩
  | cons c m ih =>
    obtain ⟨hlt, hne, hm⟩ := (Memory.wf_cons c m).1 h
    unfold Memory.write
    split
    · rename_i hac
      split
      · exact h
      · refine (Memory.wf_cons _ _).2 ⟨?_, by assumption, h⟩
        intro d hd
        rcases List.mem_cons.1 hd with rfl | hd
        · exact hac
        · exact Nat.lt_trans hac (hlt d hd)
    · split
      · rename_i heq
        split
        · exact hm
        · refine (Memory.wf_cons _ _).2 ⟨?_, by assumption, hm⟩
          intro d hd
          exact heq ▸ hlt d hd
      · refine (Memory.wf_cons _ _).2 ⟨?_, hne, ih hm⟩
        intro d hd
        rcases Memory.mem_write hd with rfl | hd
        · show c.1 < a; omega
        · exact hlt d hd

/-- An address below every entry reads as unlisted. -/
theorem Memory.read_of_lt {m : List Host.Cell} {a : Nat} (h : ∀ c ∈ m, a < c.1) :
    Memory.read m a = Memory.unlisted := by
  induction m with
  | nil => rfl
  | cons c m ih =>
    have hc := h c (by simp)
    unfold Memory.read
    rw [if_neg (by omega)]
    exact ih fun d hd => h d (by simp [hd])

/-- A read after a write: the written address gives the byte written, every other address what it gave before. -/
theorem Memory.read_write {m : List Host.Cell} (h : Memory.wf m = true) (a k : Nat) (b : Byte) :
    Memory.read (Memory.write m a b) k = if k = a then b else Memory.read m k := by
  induction m with
  | nil =>
    unfold Memory.write
    by_cases hb : b = Memory.unlisted <;> by_cases hk : a = k <;>
      simp_all [Memory.read, eq_comm]
  | cons c m ih =>
    obtain ⟨hlt, hne, hm⟩ := (Memory.wf_cons c m).1 h
    unfold Memory.write
    split
    · rename_i hac
      have hrd : Memory.read (c :: m) a = Memory.unlisted := Memory.read_of_lt (by
        intro d hd
        rcases List.mem_cons.1 hd with rfl | hd
        · exact hac
        · exact Nat.lt_trans hac (hlt d hd))
      split
      · split
        · subst_vars; exact hrd
        · rfl
      · by_cases hk : a = k
        · simp [Memory.read, hk]
        · rw [if_neg (Ne.symm hk)]; simp [Memory.read, hk]
    · split
      · rename_i heq
        have hrd : Memory.read m a = Memory.unlisted := Memory.read_of_lt (by
          intro d hd; exact heq ▸ hlt d hd)
        split
        · by_cases hk : k = a
          · subst_vars; simp [hrd]
          · rw [if_neg hk]; simp only [Memory.read]; rw [if_neg (by omega)]
        · by_cases hk : a = k
          · simp [Memory.read, hk]
          · rw [if_neg (Ne.symm hk)]; simp only [Memory.read]; rw [if_neg hk, if_neg (by omega)]
      · simp only [Memory.read]
        by_cases hk : c.1 = k
        · rw [if_pos hk, if_pos hk, if_neg (by omega)]
        · rw [if_neg hk, if_neg hk, ih hm]

@[simp] theorem State.memBytes_length (s : State) (a n : Nat) : (s.memBytes a n).length = n := by
  simp [State.memBytes]

/-- Byte `k` of a run of memory. -/
theorem State.memBytes_getD (s : State) (a n k : Nat) (h : k < n) :
    (s.memBytes a n).getD k 0 = Memory.read s.mem (a + k) := by
  simp [State.memBytes, h]

/-- What `MemRead` answers. -/
theorem State.memRead_eq_some {s : State} {a n : Nat} {d : List Byte} (h : s.memRead a n = some d) :
    a + n ≤ 2 ^ s.params.addrWidth ∧ d = s.memBytes a n := by
  unfold State.memRead at h
  split at h
  · exact ⟨by assumption, by simpa using h.symm⟩
  · cases h

end Sys2Proof.Machine
end

