-- ==== Sys2Proof/Laws/State.lean ====
section
/-! SUPPORT. One lemma per field per update of `State`: what each named update leaves and what it writes. -/

namespace Sys2Proof.Machine

/-! ### `State.setPin` -/

@[simp] theorem State.setPin_params (s : State) (l : Line) (v : Level) : (s.setPin l v).params = s.params := by cases l <;> rfl
@[simp] theorem State.setPin_divider (s : State) (l : Line) (v : Level) : (s.setPin l v).divider = s.divider := by cases l <;> rfl
@[simp] theorem State.setPin_mode (s : State) (l : Line) (v : Level) : (s.setPin l v).mode = s.mode := by cases l <;> rfl
@[simp] theorem State.setPin_pen (s : State) (l : Line) (v : Level) : (s.setPin l v).pen = s.pen := by cases l <;> rfl
@[simp] theorem State.setPin_timcmp (s : State) (l : Line) (v : Level) : (s.setPin l v).timcmp = s.timcmp := by cases l <;> rfl
@[simp] theorem State.setPin_bank (s : State) (l : Line) (v : Level) : (s.setPin l v).bank = s.bank := by cases l <;> rfl
@[simp] theorem State.setPin_beatsLeft (s : State) (l : Line) (v : Level) : (s.setPin l v).beatsLeft = s.beatsLeft := by cases l <;> rfl
@[simp] theorem State.setPin_beatIdx (s : State) (l : Line) (v : Level) : (s.setPin l v).beatIdx = s.beatIdx := by cases l <;> rfl
@[simp] theorem State.setPin_sdone (s : State) (l : Line) (v : Level) : (s.setPin l v).sdone = s.sdone := by cases l <;> rfl
@[simp] theorem State.setPin_tsf (s : State) (l : Line) (v : Level) : (s.setPin l v).tsf = s.tsf := by cases l <;> rfl
@[simp] theorem State.setPin_sien (s : State) (l : Line) (v : Level) : (s.setPin l v).sien = s.sien := by cases l <;> rfl
@[simp] theorem State.setPin_tien (s : State) (l : Line) (v : Level) : (s.setPin l v).tien = s.tien := by cases l <;> rfl
@[simp] theorem State.setPin_rxdata (s : State) (l : Line) (v : Level) : (s.setPin l v).rxdata = s.rxdata := by cases l <;> rfl
@[simp] theorem State.setPin_totalBytes (s : State) (l : Line) (v : Level) : (s.setPin l v).totalBytes = s.totalBytes := by cases l <;> rfl
@[simp] theorem State.setPin_bytesRemaining (s : State) (l : Line) (v : Level) : (s.setPin l v).bytesRemaining = s.bytesRemaining := by cases l <;> rfl
@[simp] theorem State.setPin_burstsRemaining (s : State) (l : Line) (v : Level) : (s.setPin l v).burstsRemaining = s.burstsRemaining := by cases l <;> rfl
@[simp] theorem State.setPin_readCursor (s : State) (l : Line) (v : Level) : (s.setPin l v).readCursor = s.readCursor := by cases l <;> rfl
@[simp] theorem State.setPin_finalBurstBuffer (s : State) (l : Line) (v : Level) : (s.setPin l v).finalBurstBuffer = s.finalBurstBuffer := by cases l <;> rfl
@[simp] theorem State.setPin_done (s : State) (l : Line) (v : Level) : (s.setPin l v).done = s.done := by cases l <;> rfl
@[simp] theorem State.setPin_cbSlot (s : State) (l : Line) (v : Level) : (s.setPin l v).cbSlot = s.cbSlot := by cases l <;> rfl
@[simp] theorem State.setPin_bufBase (s : State) (l : Line) (v : Level) : (s.setPin l v).bufBase = s.bufBase := by cases l <;> rfl
@[simp] theorem State.setPin_fgBusy (s : State) (l : Line) (v : Level) : (s.setPin l v).fgBusy = s.fgBusy := by cases l <;> rfl
@[simp] theorem State.setPin_inIrq (s : State) (l : Line) (v : Level) : (s.setPin l v).inIrq = s.inIrq := by cases l <;> rfl
@[simp] theorem State.setPin_inCallback (s : State) (l : Line) (v : Level) : (s.setPin l v).inCallback = s.inCallback := by cases l <;> rfl
@[simp] theorem State.setPin_trace (s : State) (l : Line) (v : Level) : (s.setPin l v).trace = s.trace := by cases l <;> rfl
@[simp] theorem State.setPin_mem (s : State) (l : Line) (v : Level) : (s.setPin l v).mem = s.mem := by cases l <;> rfl
@[simp] theorem State.setPin_port (s : State) (l : Line) (v : Level) : (s.setPin l v).port = s.port := by cases l <;> rfl
@[simp] theorem State.setPin_held (s : State) (l : Line) (v : Level) : (s.setPin l v).held = s.held := by cases l <;> rfl
@[simp] theorem State.setPin_responses (s : State) (l : Line) (v : Level) : (s.setPin l v).responses = s.responses := by cases l <;> rfl
@[simp] theorem State.setPin_callbackPort (s : State) (l : Line) (v : Level) : (s.setPin l v).callbackPort = s.callbackPort := by cases l <;> rfl
@[simp] theorem State.setPin_hostStores (s : State) (l : Line) (v : Level) : (s.setPin l v).hostStores = s.hostStores := by cases l <;> rfl
@[simp] theorem State.setPin_busIn (s : State) (l : Line) (v : Level) : (s.setPin l v).busIn = s.busIn := by cases l <;> rfl
@[simp] theorem State.setPin_peripheralSteps (s : State) (l : Line) (v : Level) : (s.setPin l v).peripheralSteps = s.peripheralSteps := by cases l <;> rfl
@[simp] theorem State.setPin_interruptSteps (s : State) (l : Line) (v : Level) : (s.setPin l v).interruptSteps = s.interruptSteps := by cases l <;> rfl
@[simp] theorem State.setPin_sched (s : State) (l : Line) (v : Level) : (s.setPin l v).sched = s.sched := by cases l <;> rfl
@[simp] theorem State.setPin_tick (s : State) (l : Line) (v : Level) : (s.setPin l v).tick = s.tick := by cases l <;> rfl

/-! ### `State.emit` -/

@[simp] theorem State.emit_params (s : State) (e : Event) : (s.emit e).params = s.params := rfl
@[simp] theorem State.emit_cs (s : State) (e : Event) : (s.emit e).cs = s.cs := rfl
@[simp] theorem State.emit_dc (s : State) (e : Event) : (s.emit e).dc = s.dc := rfl
@[simp] theorem State.emit_rd (s : State) (e : Event) : (s.emit e).rd = s.rd := rfl
@[simp] theorem State.emit_divider (s : State) (e : Event) : (s.emit e).divider = s.divider := rfl
@[simp] theorem State.emit_mode (s : State) (e : Event) : (s.emit e).mode = s.mode := rfl
@[simp] theorem State.emit_pen (s : State) (e : Event) : (s.emit e).pen = s.pen := rfl
@[simp] theorem State.emit_timcmp (s : State) (e : Event) : (s.emit e).timcmp = s.timcmp := rfl
@[simp] theorem State.emit_bank (s : State) (e : Event) : (s.emit e).bank = s.bank := rfl
@[simp] theorem State.emit_beatsLeft (s : State) (e : Event) : (s.emit e).beatsLeft = s.beatsLeft := rfl
@[simp] theorem State.emit_beatIdx (s : State) (e : Event) : (s.emit e).beatIdx = s.beatIdx := rfl
@[simp] theorem State.emit_sdone (s : State) (e : Event) : (s.emit e).sdone = s.sdone := rfl
@[simp] theorem State.emit_tsf (s : State) (e : Event) : (s.emit e).tsf = s.tsf := rfl
@[simp] theorem State.emit_sien (s : State) (e : Event) : (s.emit e).sien = s.sien := rfl
@[simp] theorem State.emit_tien (s : State) (e : Event) : (s.emit e).tien = s.tien := rfl
@[simp] theorem State.emit_rxdata (s : State) (e : Event) : (s.emit e).rxdata = s.rxdata := rfl
@[simp] theorem State.emit_totalBytes (s : State) (e : Event) : (s.emit e).totalBytes = s.totalBytes := rfl
@[simp] theorem State.emit_bytesRemaining (s : State) (e : Event) : (s.emit e).bytesRemaining = s.bytesRemaining := rfl
@[simp] theorem State.emit_burstsRemaining (s : State) (e : Event) : (s.emit e).burstsRemaining = s.burstsRemaining := rfl
@[simp] theorem State.emit_readCursor (s : State) (e : Event) : (s.emit e).readCursor = s.readCursor := rfl
@[simp] theorem State.emit_finalBurstBuffer (s : State) (e : Event) : (s.emit e).finalBurstBuffer = s.finalBurstBuffer := rfl
@[simp] theorem State.emit_done (s : State) (e : Event) : (s.emit e).done = s.done := rfl
@[simp] theorem State.emit_cbSlot (s : State) (e : Event) : (s.emit e).cbSlot = s.cbSlot := rfl
@[simp] theorem State.emit_bufBase (s : State) (e : Event) : (s.emit e).bufBase = s.bufBase := rfl
@[simp] theorem State.emit_fgBusy (s : State) (e : Event) : (s.emit e).fgBusy = s.fgBusy := rfl
@[simp] theorem State.emit_inIrq (s : State) (e : Event) : (s.emit e).inIrq = s.inIrq := rfl
@[simp] theorem State.emit_inCallback (s : State) (e : Event) : (s.emit e).inCallback = s.inCallback := rfl
@[simp] theorem State.emit_trace (s : State) (e : Event) : (s.emit e).trace = s.trace ++ [e] := rfl
@[simp] theorem State.emit_mem (s : State) (e : Event) : (s.emit e).mem = s.mem := rfl
@[simp] theorem State.emit_port (s : State) (e : Event) : (s.emit e).port = s.port := rfl
@[simp] theorem State.emit_held (s : State) (e : Event) : (s.emit e).held = s.held := rfl
@[simp] theorem State.emit_responses (s : State) (e : Event) : (s.emit e).responses = s.responses := rfl
@[simp] theorem State.emit_callbackPort (s : State) (e : Event) : (s.emit e).callbackPort = s.callbackPort := rfl
@[simp] theorem State.emit_hostStores (s : State) (e : Event) : (s.emit e).hostStores = s.hostStores := rfl
@[simp] theorem State.emit_busIn (s : State) (e : Event) : (s.emit e).busIn = s.busIn := rfl
@[simp] theorem State.emit_peripheralSteps (s : State) (e : Event) : (s.emit e).peripheralSteps = s.peripheralSteps := rfl
@[simp] theorem State.emit_interruptSteps (s : State) (e : Event) : (s.emit e).interruptSteps = s.interruptSteps := rfl
@[simp] theorem State.emit_sched (s : State) (e : Event) : (s.emit e).sched = s.sched := rfl
@[simp] theorem State.emit_tick (s : State) (e : Event) : (s.emit e).tick = s.tick := rfl

/-! ### `State.drive` -/

@[simp] theorem State.drive_params (s : State) (l : Line) (v : Level) : (s.drive l v).params = s.params := by cases l <;> rfl
@[simp] theorem State.drive_divider (s : State) (l : Line) (v : Level) : (s.drive l v).divider = s.divider := by cases l <;> rfl
@[simp] theorem State.drive_mode (s : State) (l : Line) (v : Level) : (s.drive l v).mode = s.mode := by cases l <;> rfl
@[simp] theorem State.drive_pen (s : State) (l : Line) (v : Level) : (s.drive l v).pen = s.pen := by cases l <;> rfl
@[simp] theorem State.drive_timcmp (s : State) (l : Line) (v : Level) : (s.drive l v).timcmp = s.timcmp := by cases l <;> rfl
@[simp] theorem State.drive_bank (s : State) (l : Line) (v : Level) : (s.drive l v).bank = s.bank := by cases l <;> rfl
@[simp] theorem State.drive_beatsLeft (s : State) (l : Line) (v : Level) : (s.drive l v).beatsLeft = s.beatsLeft := by cases l <;> rfl
@[simp] theorem State.drive_beatIdx (s : State) (l : Line) (v : Level) : (s.drive l v).beatIdx = s.beatIdx := by cases l <;> rfl
@[simp] theorem State.drive_sdone (s : State) (l : Line) (v : Level) : (s.drive l v).sdone = s.sdone := by cases l <;> rfl
@[simp] theorem State.drive_tsf (s : State) (l : Line) (v : Level) : (s.drive l v).tsf = s.tsf := by cases l <;> rfl
@[simp] theorem State.drive_sien (s : State) (l : Line) (v : Level) : (s.drive l v).sien = s.sien := by cases l <;> rfl
@[simp] theorem State.drive_tien (s : State) (l : Line) (v : Level) : (s.drive l v).tien = s.tien := by cases l <;> rfl
@[simp] theorem State.drive_rxdata (s : State) (l : Line) (v : Level) : (s.drive l v).rxdata = s.rxdata := by cases l <;> rfl
@[simp] theorem State.drive_totalBytes (s : State) (l : Line) (v : Level) : (s.drive l v).totalBytes = s.totalBytes := by cases l <;> rfl
@[simp] theorem State.drive_bytesRemaining (s : State) (l : Line) (v : Level) : (s.drive l v).bytesRemaining = s.bytesRemaining := by cases l <;> rfl
@[simp] theorem State.drive_burstsRemaining (s : State) (l : Line) (v : Level) : (s.drive l v).burstsRemaining = s.burstsRemaining := by cases l <;> rfl
@[simp] theorem State.drive_readCursor (s : State) (l : Line) (v : Level) : (s.drive l v).readCursor = s.readCursor := by cases l <;> rfl
@[simp] theorem State.drive_finalBurstBuffer (s : State) (l : Line) (v : Level) : (s.drive l v).finalBurstBuffer = s.finalBurstBuffer := by cases l <;> rfl
@[simp] theorem State.drive_done (s : State) (l : Line) (v : Level) : (s.drive l v).done = s.done := by cases l <;> rfl
@[simp] theorem State.drive_cbSlot (s : State) (l : Line) (v : Level) : (s.drive l v).cbSlot = s.cbSlot := by cases l <;> rfl
@[simp] theorem State.drive_bufBase (s : State) (l : Line) (v : Level) : (s.drive l v).bufBase = s.bufBase := by cases l <;> rfl
@[simp] theorem State.drive_fgBusy (s : State) (l : Line) (v : Level) : (s.drive l v).fgBusy = s.fgBusy := by cases l <;> rfl
@[simp] theorem State.drive_inIrq (s : State) (l : Line) (v : Level) : (s.drive l v).inIrq = s.inIrq := by cases l <;> rfl
@[simp] theorem State.drive_inCallback (s : State) (l : Line) (v : Level) : (s.drive l v).inCallback = s.inCallback := by cases l <;> rfl
@[simp] theorem State.drive_trace (s : State) (l : Line) (v : Level) : (s.drive l v).trace = s.trace ++ [.drive l v] := by cases l <;> rfl
@[simp] theorem State.drive_mem (s : State) (l : Line) (v : Level) : (s.drive l v).mem = s.mem := by cases l <;> rfl
@[simp] theorem State.drive_port (s : State) (l : Line) (v : Level) : (s.drive l v).port = s.port := by cases l <;> rfl
@[simp] theorem State.drive_held (s : State) (l : Line) (v : Level) : (s.drive l v).held = s.held := by cases l <;> rfl
@[simp] theorem State.drive_responses (s : State) (l : Line) (v : Level) : (s.drive l v).responses = s.responses := by cases l <;> rfl
@[simp] theorem State.drive_callbackPort (s : State) (l : Line) (v : Level) : (s.drive l v).callbackPort = s.callbackPort := by cases l <;> rfl
@[simp] theorem State.drive_hostStores (s : State) (l : Line) (v : Level) : (s.drive l v).hostStores = s.hostStores := by cases l <;> rfl
@[simp] theorem State.drive_busIn (s : State) (l : Line) (v : Level) : (s.drive l v).busIn = s.busIn := by cases l <;> rfl
@[simp] theorem State.drive_peripheralSteps (s : State) (l : Line) (v : Level) : (s.drive l v).peripheralSteps = s.peripheralSteps := by cases l <;> rfl
@[simp] theorem State.drive_interruptSteps (s : State) (l : Line) (v : Level) : (s.drive l v).interruptSteps = s.interruptSteps := by cases l <;> rfl
@[simp] theorem State.drive_sched (s : State) (l : Line) (v : Level) : (s.drive l v).sched = s.sched := by cases l <;> rfl
@[simp] theorem State.drive_tick (s : State) (l : Line) (v : Level) : (s.drive l v).tick = s.tick := by cases l <;> rfl

/-! ### `State.wbeat` -/

@[simp] theorem State.wbeat_params (s : State) (v : Beat) : (s.wbeat v).params = s.params := rfl
@[simp] theorem State.wbeat_cs (s : State) (v : Beat) : (s.wbeat v).cs = s.cs := rfl
@[simp] theorem State.wbeat_dc (s : State) (v : Beat) : (s.wbeat v).dc = s.dc := rfl
@[simp] theorem State.wbeat_rd (s : State) (v : Beat) : (s.wbeat v).rd = s.rd := rfl
@[simp] theorem State.wbeat_divider (s : State) (v : Beat) : (s.wbeat v).divider = s.divider := rfl
@[simp] theorem State.wbeat_mode (s : State) (v : Beat) : (s.wbeat v).mode = s.mode := rfl
@[simp] theorem State.wbeat_pen (s : State) (v : Beat) : (s.wbeat v).pen = s.pen := rfl
@[simp] theorem State.wbeat_timcmp (s : State) (v : Beat) : (s.wbeat v).timcmp = s.timcmp := rfl
@[simp] theorem State.wbeat_bank (s : State) (v : Beat) : (s.wbeat v).bank = s.bank := rfl
@[simp] theorem State.wbeat_beatsLeft (s : State) (v : Beat) : (s.wbeat v).beatsLeft = s.beatsLeft := rfl
@[simp] theorem State.wbeat_beatIdx (s : State) (v : Beat) : (s.wbeat v).beatIdx = s.beatIdx := rfl
@[simp] theorem State.wbeat_sdone (s : State) (v : Beat) : (s.wbeat v).sdone = s.sdone := rfl
@[simp] theorem State.wbeat_tsf (s : State) (v : Beat) : (s.wbeat v).tsf = s.tsf := rfl
@[simp] theorem State.wbeat_sien (s : State) (v : Beat) : (s.wbeat v).sien = s.sien := rfl
@[simp] theorem State.wbeat_tien (s : State) (v : Beat) : (s.wbeat v).tien = s.tien := rfl
@[simp] theorem State.wbeat_rxdata (s : State) (v : Beat) : (s.wbeat v).rxdata = s.rxdata := rfl
@[simp] theorem State.wbeat_totalBytes (s : State) (v : Beat) : (s.wbeat v).totalBytes = s.totalBytes := rfl
@[simp] theorem State.wbeat_bytesRemaining (s : State) (v : Beat) : (s.wbeat v).bytesRemaining = s.bytesRemaining := rfl
@[simp] theorem State.wbeat_burstsRemaining (s : State) (v : Beat) : (s.wbeat v).burstsRemaining = s.burstsRemaining := rfl
@[simp] theorem State.wbeat_readCursor (s : State) (v : Beat) : (s.wbeat v).readCursor = s.readCursor := rfl
@[simp] theorem State.wbeat_finalBurstBuffer (s : State) (v : Beat) : (s.wbeat v).finalBurstBuffer = s.finalBurstBuffer := rfl
@[simp] theorem State.wbeat_done (s : State) (v : Beat) : (s.wbeat v).done = s.done := rfl
@[simp] theorem State.wbeat_cbSlot (s : State) (v : Beat) : (s.wbeat v).cbSlot = s.cbSlot := rfl
@[simp] theorem State.wbeat_bufBase (s : State) (v : Beat) : (s.wbeat v).bufBase = s.bufBase := rfl
@[simp] theorem State.wbeat_fgBusy (s : State) (v : Beat) : (s.wbeat v).fgBusy = s.fgBusy := rfl
@[simp] theorem State.wbeat_inIrq (s : State) (v : Beat) : (s.wbeat v).inIrq = s.inIrq := rfl
@[simp] theorem State.wbeat_inCallback (s : State) (v : Beat) : (s.wbeat v).inCallback = s.inCallback := rfl
@[simp] theorem State.wbeat_trace (s : State) (v : Beat) : (s.wbeat v).trace = s.trace ++ [.wbeat s.cs s.dc s.rd v] := rfl
@[simp] theorem State.wbeat_mem (s : State) (v : Beat) : (s.wbeat v).mem = s.mem := rfl
@[simp] theorem State.wbeat_port (s : State) (v : Beat) : (s.wbeat v).port = s.port := rfl
@[simp] theorem State.wbeat_held (s : State) (v : Beat) : (s.wbeat v).held = s.held := rfl
@[simp] theorem State.wbeat_responses (s : State) (v : Beat) : (s.wbeat v).responses = s.responses := rfl
@[simp] theorem State.wbeat_callbackPort (s : State) (v : Beat) : (s.wbeat v).callbackPort = s.callbackPort := rfl
@[simp] theorem State.wbeat_hostStores (s : State) (v : Beat) : (s.wbeat v).hostStores = s.hostStores := rfl
@[simp] theorem State.wbeat_busIn (s : State) (v : Beat) : (s.wbeat v).busIn = s.busIn := rfl
@[simp] theorem State.wbeat_peripheralSteps (s : State) (v : Beat) : (s.wbeat v).peripheralSteps = s.peripheralSteps := rfl
@[simp] theorem State.wbeat_interruptSteps (s : State) (v : Beat) : (s.wbeat v).interruptSteps = s.interruptSteps := rfl
@[simp] theorem State.wbeat_sched (s : State) (v : Beat) : (s.wbeat v).sched = s.sched := rfl
@[simp] theorem State.wbeat_tick (s : State) (v : Beat) : (s.wbeat v).tick = s.tick := rfl

/-! ### `State.rbeat` -/

@[simp] theorem State.rbeat_params (s : State) : (s.rbeat).params = s.params := rfl
@[simp] theorem State.rbeat_cs (s : State) : (s.rbeat).cs = s.cs := rfl
@[simp] theorem State.rbeat_dc (s : State) : (s.rbeat).dc = s.dc := rfl
@[simp] theorem State.rbeat_rd (s : State) : (s.rbeat).rd = s.rd := rfl
@[simp] theorem State.rbeat_divider (s : State) : (s.rbeat).divider = s.divider := rfl
@[simp] theorem State.rbeat_mode (s : State) : (s.rbeat).mode = s.mode := rfl
@[simp] theorem State.rbeat_pen (s : State) : (s.rbeat).pen = s.pen := rfl
@[simp] theorem State.rbeat_timcmp (s : State) : (s.rbeat).timcmp = s.timcmp := rfl
@[simp] theorem State.rbeat_bank (s : State) : (s.rbeat).bank = s.bank := rfl
@[simp] theorem State.rbeat_beatsLeft (s : State) : (s.rbeat).beatsLeft = s.beatsLeft := rfl
@[simp] theorem State.rbeat_beatIdx (s : State) : (s.rbeat).beatIdx = s.beatIdx := rfl
@[simp] theorem State.rbeat_sdone (s : State) : (s.rbeat).sdone = s.sdone := rfl
@[simp] theorem State.rbeat_tsf (s : State) : (s.rbeat).tsf = s.tsf := rfl
@[simp] theorem State.rbeat_sien (s : State) : (s.rbeat).sien = s.sien := rfl
@[simp] theorem State.rbeat_tien (s : State) : (s.rbeat).tien = s.tien := rfl
@[simp] theorem State.rbeat_rxdata (s : State) : (s.rbeat).rxdata = s.nextBusIn := rfl
@[simp] theorem State.rbeat_totalBytes (s : State) : (s.rbeat).totalBytes = s.totalBytes := rfl
@[simp] theorem State.rbeat_bytesRemaining (s : State) : (s.rbeat).bytesRemaining = s.bytesRemaining := rfl
@[simp] theorem State.rbeat_burstsRemaining (s : State) : (s.rbeat).burstsRemaining = s.burstsRemaining := rfl
@[simp] theorem State.rbeat_readCursor (s : State) : (s.rbeat).readCursor = s.readCursor := rfl
@[simp] theorem State.rbeat_finalBurstBuffer (s : State) : (s.rbeat).finalBurstBuffer = s.finalBurstBuffer := rfl
@[simp] theorem State.rbeat_done (s : State) : (s.rbeat).done = s.done := rfl
@[simp] theorem State.rbeat_cbSlot (s : State) : (s.rbeat).cbSlot = s.cbSlot := rfl
@[simp] theorem State.rbeat_bufBase (s : State) : (s.rbeat).bufBase = s.bufBase := rfl
@[simp] theorem State.rbeat_fgBusy (s : State) : (s.rbeat).fgBusy = s.fgBusy := rfl
@[simp] theorem State.rbeat_inIrq (s : State) : (s.rbeat).inIrq = s.inIrq := rfl
@[simp] theorem State.rbeat_inCallback (s : State) : (s.rbeat).inCallback = s.inCallback := rfl
@[simp] theorem State.rbeat_trace (s : State) : (s.rbeat).trace = s.trace ++ [.rbeat s.cs s.dc s.rd s.nextBusIn] := rfl
@[simp] theorem State.rbeat_mem (s : State) : (s.rbeat).mem = s.mem := rfl
@[simp] theorem State.rbeat_port (s : State) : (s.rbeat).port = s.port := rfl
@[simp] theorem State.rbeat_held (s : State) : (s.rbeat).held = s.held := rfl
@[simp] theorem State.rbeat_responses (s : State) : (s.rbeat).responses = s.responses := rfl
@[simp] theorem State.rbeat_callbackPort (s : State) : (s.rbeat).callbackPort = s.callbackPort := rfl
@[simp] theorem State.rbeat_hostStores (s : State) : (s.rbeat).hostStores = s.hostStores := rfl
@[simp] theorem State.rbeat_busIn (s : State) : (s.rbeat).busIn = s.busIn.tail := rfl
@[simp] theorem State.rbeat_peripheralSteps (s : State) : (s.rbeat).peripheralSteps = s.peripheralSteps := rfl
@[simp] theorem State.rbeat_interruptSteps (s : State) : (s.rbeat).interruptSteps = s.interruptSteps := rfl
@[simp] theorem State.rbeat_sched (s : State) : (s.rbeat).sched = s.sched := rfl
@[simp] theorem State.rbeat_tick (s : State) : (s.rbeat).tick = s.tick := rfl

/-! ### `State.setDoneFlags` -/

@[simp] theorem State.setDoneFlags_params (s : State) : (s.setDoneFlags).params = s.params := rfl
@[simp] theorem State.setDoneFlags_cs (s : State) : (s.setDoneFlags).cs = s.cs := rfl
@[simp] theorem State.setDoneFlags_dc (s : State) : (s.setDoneFlags).dc = s.dc := rfl
@[simp] theorem State.setDoneFlags_rd (s : State) : (s.setDoneFlags).rd = s.rd := rfl
@[simp] theorem State.setDoneFlags_divider (s : State) : (s.setDoneFlags).divider = s.divider := rfl
@[simp] theorem State.setDoneFlags_mode (s : State) : (s.setDoneFlags).mode = s.mode := rfl
@[simp] theorem State.setDoneFlags_pen (s : State) : (s.setDoneFlags).pen = s.pen := rfl
@[simp] theorem State.setDoneFlags_timcmp (s : State) : (s.setDoneFlags).timcmp = s.timcmp := rfl
@[simp] theorem State.setDoneFlags_bank (s : State) : (s.setDoneFlags).bank = s.bank := rfl
@[simp] theorem State.setDoneFlags_beatsLeft (s : State) : (s.setDoneFlags).beatsLeft = s.beatsLeft := rfl
@[simp] theorem State.setDoneFlags_beatIdx (s : State) : (s.setDoneFlags).beatIdx = s.beatIdx := rfl
@[simp] theorem State.setDoneFlags_sdone (s : State) : (s.setDoneFlags).sdone = true := rfl
@[simp] theorem State.setDoneFlags_tsf (s : State) : (s.setDoneFlags).tsf = true := rfl
@[simp] theorem State.setDoneFlags_sien (s : State) : (s.setDoneFlags).sien = s.sien := rfl
@[simp] theorem State.setDoneFlags_tien (s : State) : (s.setDoneFlags).tien = s.tien := rfl
@[simp] theorem State.setDoneFlags_rxdata (s : State) : (s.setDoneFlags).rxdata = s.rxdata := rfl
@[simp] theorem State.setDoneFlags_totalBytes (s : State) : (s.setDoneFlags).totalBytes = s.totalBytes := rfl
@[simp] theorem State.setDoneFlags_bytesRemaining (s : State) : (s.setDoneFlags).bytesRemaining = s.bytesRemaining := rfl
@[simp] theorem State.setDoneFlags_burstsRemaining (s : State) : (s.setDoneFlags).burstsRemaining = s.burstsRemaining := rfl
@[simp] theorem State.setDoneFlags_readCursor (s : State) : (s.setDoneFlags).readCursor = s.readCursor := rfl
@[simp] theorem State.setDoneFlags_finalBurstBuffer (s : State) : (s.setDoneFlags).finalBurstBuffer = s.finalBurstBuffer := rfl
@[simp] theorem State.setDoneFlags_done (s : State) : (s.setDoneFlags).done = s.done := rfl
@[simp] theorem State.setDoneFlags_cbSlot (s : State) : (s.setDoneFlags).cbSlot = s.cbSlot := rfl
@[simp] theorem State.setDoneFlags_bufBase (s : State) : (s.setDoneFlags).bufBase = s.bufBase := rfl
@[simp] theorem State.setDoneFlags_fgBusy (s : State) : (s.setDoneFlags).fgBusy = s.fgBusy := rfl
@[simp] theorem State.setDoneFlags_inIrq (s : State) : (s.setDoneFlags).inIrq = s.inIrq := rfl
@[simp] theorem State.setDoneFlags_inCallback (s : State) : (s.setDoneFlags).inCallback = s.inCallback := rfl
@[simp] theorem State.setDoneFlags_trace (s : State) : (s.setDoneFlags).trace = s.trace := rfl
@[simp] theorem State.setDoneFlags_mem (s : State) : (s.setDoneFlags).mem = s.mem := rfl
@[simp] theorem State.setDoneFlags_port (s : State) : (s.setDoneFlags).port = s.port := rfl
@[simp] theorem State.setDoneFlags_held (s : State) : (s.setDoneFlags).held = s.held := rfl
@[simp] theorem State.setDoneFlags_responses (s : State) : (s.setDoneFlags).responses = s.responses := rfl
@[simp] theorem State.setDoneFlags_callbackPort (s : State) : (s.setDoneFlags).callbackPort = s.callbackPort := rfl
@[simp] theorem State.setDoneFlags_hostStores (s : State) : (s.setDoneFlags).hostStores = s.hostStores := rfl
@[simp] theorem State.setDoneFlags_busIn (s : State) : (s.setDoneFlags).busIn = s.busIn := rfl
@[simp] theorem State.setDoneFlags_peripheralSteps (s : State) : (s.setDoneFlags).peripheralSteps = s.peripheralSteps := rfl
@[simp] theorem State.setDoneFlags_interruptSteps (s : State) : (s.setDoneFlags).interruptSteps = s.interruptSteps := rfl
@[simp] theorem State.setDoneFlags_sched (s : State) : (s.setDoneFlags).sched = s.sched := rfl
@[simp] theorem State.setDoneFlags_tick (s : State) : (s.setDoneFlags).tick = s.tick := rfl

/-! ### `State.clearDoneFlags` -/

@[simp] theorem State.clearDoneFlags_params (s : State) : (s.clearDoneFlags).params = s.params := rfl
@[simp] theorem State.clearDoneFlags_cs (s : State) : (s.clearDoneFlags).cs = s.cs := rfl
@[simp] theorem State.clearDoneFlags_dc (s : State) : (s.clearDoneFlags).dc = s.dc := rfl
@[simp] theorem State.clearDoneFlags_rd (s : State) : (s.clearDoneFlags).rd = s.rd := rfl
@[simp] theorem State.clearDoneFlags_divider (s : State) : (s.clearDoneFlags).divider = s.divider := rfl
@[simp] theorem State.clearDoneFlags_mode (s : State) : (s.clearDoneFlags).mode = s.mode := rfl
@[simp] theorem State.clearDoneFlags_pen (s : State) : (s.clearDoneFlags).pen = s.pen := rfl
@[simp] theorem State.clearDoneFlags_timcmp (s : State) : (s.clearDoneFlags).timcmp = s.timcmp := rfl
@[simp] theorem State.clearDoneFlags_bank (s : State) : (s.clearDoneFlags).bank = s.bank := rfl
@[simp] theorem State.clearDoneFlags_beatsLeft (s : State) : (s.clearDoneFlags).beatsLeft = s.beatsLeft := rfl
@[simp] theorem State.clearDoneFlags_beatIdx (s : State) : (s.clearDoneFlags).beatIdx = s.beatIdx := rfl
@[simp] theorem State.clearDoneFlags_sdone (s : State) : (s.clearDoneFlags).sdone = false := rfl
@[simp] theorem State.clearDoneFlags_tsf (s : State) : (s.clearDoneFlags).tsf = false := rfl
@[simp] theorem State.clearDoneFlags_sien (s : State) : (s.clearDoneFlags).sien = s.sien := rfl
@[simp] theorem State.clearDoneFlags_tien (s : State) : (s.clearDoneFlags).tien = s.tien := rfl
@[simp] theorem State.clearDoneFlags_rxdata (s : State) : (s.clearDoneFlags).rxdata = s.rxdata := rfl
@[simp] theorem State.clearDoneFlags_totalBytes (s : State) : (s.clearDoneFlags).totalBytes = s.totalBytes := rfl
@[simp] theorem State.clearDoneFlags_bytesRemaining (s : State) : (s.clearDoneFlags).bytesRemaining = s.bytesRemaining := rfl
@[simp] theorem State.clearDoneFlags_burstsRemaining (s : State) : (s.clearDoneFlags).burstsRemaining = s.burstsRemaining := rfl
@[simp] theorem State.clearDoneFlags_readCursor (s : State) : (s.clearDoneFlags).readCursor = s.readCursor := rfl
@[simp] theorem State.clearDoneFlags_finalBurstBuffer (s : State) : (s.clearDoneFlags).finalBurstBuffer = s.finalBurstBuffer := rfl
@[simp] theorem State.clearDoneFlags_done (s : State) : (s.clearDoneFlags).done = s.done := rfl
@[simp] theorem State.clearDoneFlags_cbSlot (s : State) : (s.clearDoneFlags).cbSlot = s.cbSlot := rfl
@[simp] theorem State.clearDoneFlags_bufBase (s : State) : (s.clearDoneFlags).bufBase = s.bufBase := rfl
@[simp] theorem State.clearDoneFlags_fgBusy (s : State) : (s.clearDoneFlags).fgBusy = s.fgBusy := rfl
@[simp] theorem State.clearDoneFlags_inIrq (s : State) : (s.clearDoneFlags).inIrq = s.inIrq := rfl
@[simp] theorem State.clearDoneFlags_inCallback (s : State) : (s.clearDoneFlags).inCallback = s.inCallback := rfl
@[simp] theorem State.clearDoneFlags_trace (s : State) : (s.clearDoneFlags).trace = s.trace := rfl
@[simp] theorem State.clearDoneFlags_mem (s : State) : (s.clearDoneFlags).mem = s.mem := rfl
@[simp] theorem State.clearDoneFlags_port (s : State) : (s.clearDoneFlags).port = s.port := rfl
@[simp] theorem State.clearDoneFlags_held (s : State) : (s.clearDoneFlags).held = s.held := rfl
@[simp] theorem State.clearDoneFlags_responses (s : State) : (s.clearDoneFlags).responses = s.responses := rfl
@[simp] theorem State.clearDoneFlags_callbackPort (s : State) : (s.clearDoneFlags).callbackPort = s.callbackPort := rfl
@[simp] theorem State.clearDoneFlags_hostStores (s : State) : (s.clearDoneFlags).hostStores = s.hostStores := rfl
@[simp] theorem State.clearDoneFlags_busIn (s : State) : (s.clearDoneFlags).busIn = s.busIn := rfl
@[simp] theorem State.clearDoneFlags_peripheralSteps (s : State) : (s.clearDoneFlags).peripheralSteps = s.peripheralSteps := rfl
@[simp] theorem State.clearDoneFlags_interruptSteps (s : State) : (s.clearDoneFlags).interruptSteps = s.interruptSteps := rfl
@[simp] theorem State.clearDoneFlags_sched (s : State) : (s.clearDoneFlags).sched = s.sched := rfl
@[simp] theorem State.clearDoneFlags_tick (s : State) : (s.clearDoneFlags).tick = s.tick := rfl

/-! ### `State.armInterrupts` -/

@[simp] theorem State.armInterrupts_params (s : State) : (s.armInterrupts).params = s.params := rfl
@[simp] theorem State.armInterrupts_cs (s : State) : (s.armInterrupts).cs = s.cs := rfl
@[simp] theorem State.armInterrupts_dc (s : State) : (s.armInterrupts).dc = s.dc := rfl
@[simp] theorem State.armInterrupts_rd (s : State) : (s.armInterrupts).rd = s.rd := rfl
@[simp] theorem State.armInterrupts_divider (s : State) : (s.armInterrupts).divider = s.divider := rfl
@[simp] theorem State.armInterrupts_mode (s : State) : (s.armInterrupts).mode = s.mode := rfl
@[simp] theorem State.armInterrupts_pen (s : State) : (s.armInterrupts).pen = s.pen := rfl
@[simp] theorem State.armInterrupts_timcmp (s : State) : (s.armInterrupts).timcmp = s.timcmp := rfl
@[simp] theorem State.armInterrupts_bank (s : State) : (s.armInterrupts).bank = s.bank := rfl
@[simp] theorem State.armInterrupts_beatsLeft (s : State) : (s.armInterrupts).beatsLeft = s.beatsLeft := rfl
@[simp] theorem State.armInterrupts_beatIdx (s : State) : (s.armInterrupts).beatIdx = s.beatIdx := rfl
@[simp] theorem State.armInterrupts_sdone (s : State) : (s.armInterrupts).sdone = s.sdone := rfl
@[simp] theorem State.armInterrupts_tsf (s : State) : (s.armInterrupts).tsf = s.tsf := rfl
@[simp] theorem State.armInterrupts_sien (s : State) : (s.armInterrupts).sien = true := rfl
@[simp] theorem State.armInterrupts_tien (s : State) : (s.armInterrupts).tien = true := rfl
@[simp] theorem State.armInterrupts_rxdata (s : State) : (s.armInterrupts).rxdata = s.rxdata := rfl
@[simp] theorem State.armInterrupts_totalBytes (s : State) : (s.armInterrupts).totalBytes = s.totalBytes := rfl
@[simp] theorem State.armInterrupts_bytesRemaining (s : State) : (s.armInterrupts).bytesRemaining = s.bytesRemaining := rfl
@[simp] theorem State.armInterrupts_burstsRemaining (s : State) : (s.armInterrupts).burstsRemaining = s.burstsRemaining := rfl
@[simp] theorem State.armInterrupts_readCursor (s : State) : (s.armInterrupts).readCursor = s.readCursor := rfl
@[simp] theorem State.armInterrupts_finalBurstBuffer (s : State) : (s.armInterrupts).finalBurstBuffer = s.finalBurstBuffer := rfl
@[simp] theorem State.armInterrupts_done (s : State) : (s.armInterrupts).done = s.done := rfl
@[simp] theorem State.armInterrupts_cbSlot (s : State) : (s.armInterrupts).cbSlot = s.cbSlot := rfl
@[simp] theorem State.armInterrupts_bufBase (s : State) : (s.armInterrupts).bufBase = s.bufBase := rfl
@[simp] theorem State.armInterrupts_fgBusy (s : State) : (s.armInterrupts).fgBusy = s.fgBusy := rfl
@[simp] theorem State.armInterrupts_inIrq (s : State) : (s.armInterrupts).inIrq = s.inIrq := rfl
@[simp] theorem State.armInterrupts_inCallback (s : State) : (s.armInterrupts).inCallback = s.inCallback := rfl
@[simp] theorem State.armInterrupts_trace (s : State) : (s.armInterrupts).trace = s.trace := rfl
@[simp] theorem State.armInterrupts_mem (s : State) : (s.armInterrupts).mem = s.mem := rfl
@[simp] theorem State.armInterrupts_port (s : State) : (s.armInterrupts).port = s.port := rfl
@[simp] theorem State.armInterrupts_held (s : State) : (s.armInterrupts).held = s.held := rfl
@[simp] theorem State.armInterrupts_responses (s : State) : (s.armInterrupts).responses = s.responses := rfl
@[simp] theorem State.armInterrupts_callbackPort (s : State) : (s.armInterrupts).callbackPort = s.callbackPort := rfl
@[simp] theorem State.armInterrupts_hostStores (s : State) : (s.armInterrupts).hostStores = s.hostStores := rfl
@[simp] theorem State.armInterrupts_busIn (s : State) : (s.armInterrupts).busIn = s.busIn := rfl
@[simp] theorem State.armInterrupts_peripheralSteps (s : State) : (s.armInterrupts).peripheralSteps = s.peripheralSteps := rfl
@[simp] theorem State.armInterrupts_interruptSteps (s : State) : (s.armInterrupts).interruptSteps = s.interruptSteps := rfl
@[simp] theorem State.armInterrupts_sched (s : State) : (s.armInterrupts).sched = s.sched := rfl
@[simp] theorem State.armInterrupts_tick (s : State) : (s.armInterrupts).tick = s.tick := rfl

/-! ### `State.periphReset` -/

@[simp] theorem State.periphReset_params (s : State) : (s.periphReset).params = s.params := rfl
@[simp] theorem State.periphReset_cs (s : State) : (s.periphReset).cs = s.cs := rfl
@[simp] theorem State.periphReset_dc (s : State) : (s.periphReset).dc = s.dc := rfl
@[simp] theorem State.periphReset_rd (s : State) : (s.periphReset).rd = s.rd := rfl
@[simp] theorem State.periphReset_divider (s : State) : (s.periphReset).divider = s.divider := rfl
@[simp] theorem State.periphReset_mode (s : State) : (s.periphReset).mode = s.mode := rfl
@[simp] theorem State.periphReset_pen (s : State) : (s.periphReset).pen = s.pen := rfl
@[simp] theorem State.periphReset_timcmp (s : State) : (s.periphReset).timcmp = 0 := rfl
@[simp] theorem State.periphReset_bank (s : State) : (s.periphReset).bank = List.replicate s.params.shifters (Lane.cleared s.params) := rfl
@[simp] theorem State.periphReset_beatsLeft (s : State) : (s.periphReset).beatsLeft = 0 := rfl
@[simp] theorem State.periphReset_beatIdx (s : State) : (s.periphReset).beatIdx = 0 := rfl
@[simp] theorem State.periphReset_sdone (s : State) : (s.periphReset).sdone = false := rfl
@[simp] theorem State.periphReset_tsf (s : State) : (s.periphReset).tsf = false := rfl
@[simp] theorem State.periphReset_sien (s : State) : (s.periphReset).sien = false := rfl
@[simp] theorem State.periphReset_tien (s : State) : (s.periphReset).tien = false := rfl
@[simp] theorem State.periphReset_rxdata (s : State) : (s.periphReset).rxdata = s.rxdata := rfl
@[simp] theorem State.periphReset_totalBytes (s : State) : (s.periphReset).totalBytes = s.totalBytes := rfl
@[simp] theorem State.periphReset_bytesRemaining (s : State) : (s.periphReset).bytesRemaining = s.bytesRemaining := rfl
@[simp] theorem State.periphReset_burstsRemaining (s : State) : (s.periphReset).burstsRemaining = s.burstsRemaining := rfl
@[simp] theorem State.periphReset_readCursor (s : State) : (s.periphReset).readCursor = s.readCursor := rfl
@[simp] theorem State.periphReset_finalBurstBuffer (s : State) : (s.periphReset).finalBurstBuffer = s.finalBurstBuffer := rfl
@[simp] theorem State.periphReset_done (s : State) : (s.periphReset).done = s.done := rfl
@[simp] theorem State.periphReset_cbSlot (s : State) : (s.periphReset).cbSlot = s.cbSlot := rfl
@[simp] theorem State.periphReset_bufBase (s : State) : (s.periphReset).bufBase = s.bufBase := rfl
@[simp] theorem State.periphReset_fgBusy (s : State) : (s.periphReset).fgBusy = s.fgBusy := rfl
@[simp] theorem State.periphReset_inIrq (s : State) : (s.periphReset).inIrq = s.inIrq := rfl
@[simp] theorem State.periphReset_inCallback (s : State) : (s.periphReset).inCallback = s.inCallback := rfl
@[simp] theorem State.periphReset_trace (s : State) : (s.periphReset).trace = s.trace := rfl
@[simp] theorem State.periphReset_mem (s : State) : (s.periphReset).mem = s.mem := rfl
@[simp] theorem State.periphReset_port (s : State) : (s.periphReset).port = s.port := rfl
@[simp] theorem State.periphReset_held (s : State) : (s.periphReset).held = s.held := rfl
@[simp] theorem State.periphReset_responses (s : State) : (s.periphReset).responses = s.responses := rfl
@[simp] theorem State.periphReset_callbackPort (s : State) : (s.periphReset).callbackPort = s.callbackPort := rfl
@[simp] theorem State.periphReset_hostStores (s : State) : (s.periphReset).hostStores = s.hostStores := rfl
@[simp] theorem State.periphReset_busIn (s : State) : (s.periphReset).busIn = s.busIn := rfl
@[simp] theorem State.periphReset_peripheralSteps (s : State) : (s.periphReset).peripheralSteps = s.peripheralSteps := rfl
@[simp] theorem State.periphReset_interruptSteps (s : State) : (s.periphReset).interruptSteps = s.interruptSteps := rfl
@[simp] theorem State.periphReset_sched (s : State) : (s.periphReset).sched = s.sched := rfl
@[simp] theorem State.periphReset_tick (s : State) : (s.periphReset).tick = s.tick := rfl

/-! ### `State.program` -/

@[simp] theorem State.program_params (s : State) (m : Mode) : (s.program m).params = s.params := by cases m <;> rfl
@[simp] theorem State.program_cs (s : State) (m : Mode) : (s.program m).cs = s.cs := by cases m <;> rfl
@[simp] theorem State.program_dc (s : State) (m : Mode) : (s.program m).dc = s.dc := by cases m <;> rfl
@[simp] theorem State.program_rd (s : State) (m : Mode) : (s.program m).rd = s.rd := by cases m <;> rfl
@[simp] theorem State.program_divider (s : State) (m : Mode) : (s.program m).divider = s.divider := by cases m <;> rfl
@[simp] theorem State.program_mode (s : State) (m : Mode) : (s.program m).mode = s.mode := by cases m <;> rfl
@[simp] theorem State.program_pen (s : State) (m : Mode) : (s.program m).pen = s.pen := by cases m <;> rfl
@[simp] theorem State.program_bank (s : State) (m : Mode) : (s.program m).bank = s.bank := by cases m <;> rfl
@[simp] theorem State.program_beatsLeft (s : State) (m : Mode) : (s.program m).beatsLeft = s.beatsLeft := by cases m <;> rfl
@[simp] theorem State.program_beatIdx (s : State) (m : Mode) : (s.program m).beatIdx = s.beatIdx := by cases m <;> rfl
@[simp] theorem State.program_sdone (s : State) (m : Mode) : (s.program m).sdone = s.sdone := by cases m <;> rfl
@[simp] theorem State.program_tsf (s : State) (m : Mode) : (s.program m).tsf = s.tsf := by cases m <;> rfl
@[simp] theorem State.program_sien (s : State) (m : Mode) : (s.program m).sien = s.sien := by cases m <;> rfl
@[simp] theorem State.program_tien (s : State) (m : Mode) : (s.program m).tien = s.tien := by cases m <;> rfl
@[simp] theorem State.program_rxdata (s : State) (m : Mode) : (s.program m).rxdata = s.rxdata := by cases m <;> rfl
@[simp] theorem State.program_totalBytes (s : State) (m : Mode) : (s.program m).totalBytes = s.totalBytes := by cases m <;> rfl
@[simp] theorem State.program_bytesRemaining (s : State) (m : Mode) : (s.program m).bytesRemaining = s.bytesRemaining := by cases m <;> rfl
@[simp] theorem State.program_burstsRemaining (s : State) (m : Mode) : (s.program m).burstsRemaining = s.burstsRemaining := by cases m <;> rfl
@[simp] theorem State.program_readCursor (s : State) (m : Mode) : (s.program m).readCursor = s.readCursor := by cases m <;> rfl
@[simp] theorem State.program_finalBurstBuffer (s : State) (m : Mode) : (s.program m).finalBurstBuffer = s.finalBurstBuffer := by cases m <;> rfl
@[simp] theorem State.program_done (s : State) (m : Mode) : (s.program m).done = s.done := by cases m <;> rfl
@[simp] theorem State.program_cbSlot (s : State) (m : Mode) : (s.program m).cbSlot = s.cbSlot := by cases m <;> rfl
@[simp] theorem State.program_bufBase (s : State) (m : Mode) : (s.program m).bufBase = s.bufBase := by cases m <;> rfl
@[simp] theorem State.program_fgBusy (s : State) (m : Mode) : (s.program m).fgBusy = s.fgBusy := by cases m <;> rfl
@[simp] theorem State.program_inIrq (s : State) (m : Mode) : (s.program m).inIrq = s.inIrq := by cases m <;> rfl
@[simp] theorem State.program_inCallback (s : State) (m : Mode) : (s.program m).inCallback = s.inCallback := by cases m <;> rfl
@[simp] theorem State.program_trace (s : State) (m : Mode) : (s.program m).trace = s.trace := by cases m <;> rfl
@[simp] theorem State.program_mem (s : State) (m : Mode) : (s.program m).mem = s.mem := by cases m <;> rfl
@[simp] theorem State.program_port (s : State) (m : Mode) : (s.program m).port = s.port := by cases m <;> rfl
@[simp] theorem State.program_held (s : State) (m : Mode) : (s.program m).held = s.held := by cases m <;> rfl
@[simp] theorem State.program_responses (s : State) (m : Mode) : (s.program m).responses = s.responses := by cases m <;> rfl
@[simp] theorem State.program_callbackPort (s : State) (m : Mode) : (s.program m).callbackPort = s.callbackPort := by cases m <;> rfl
@[simp] theorem State.program_hostStores (s : State) (m : Mode) : (s.program m).hostStores = s.hostStores := by cases m <;> rfl
@[simp] theorem State.program_busIn (s : State) (m : Mode) : (s.program m).busIn = s.busIn := by cases m <;> rfl
@[simp] theorem State.program_peripheralSteps (s : State) (m : Mode) : (s.program m).peripheralSteps = s.peripheralSteps := by cases m <;> rfl
@[simp] theorem State.program_interruptSteps (s : State) (m : Mode) : (s.program m).interruptSteps = s.interruptSteps := by cases m <;> rfl
@[simp] theorem State.program_sched (s : State) (m : Mode) : (s.program m).sched = s.sched := by cases m <;> rfl
@[simp] theorem State.program_tick (s : State) (m : Mode) : (s.program m).tick = s.tick := by cases m <;> rfl

/-! ### `State.configure` -/

@[simp] theorem State.configure_params (s : State) (m : Mode) : (s.configure m).params = s.params := by cases m <;> rfl
@[simp] theorem State.configure_cs (s : State) (m : Mode) : (s.configure m).cs = s.cs := by cases m <;> rfl
@[simp] theorem State.configure_dc (s : State) (m : Mode) : (s.configure m).dc = s.dc := by cases m <;> rfl
@[simp] theorem State.configure_rd (s : State) (m : Mode) : (s.configure m).rd = s.rd := by cases m <;> rfl
@[simp] theorem State.configure_divider (s : State) (m : Mode) : (s.configure m).divider = s.divider := by cases m <;> rfl
@[simp] theorem State.configure_mode (s : State) (m : Mode) : (s.configure m).mode = m := by cases m <;> rfl
@[simp] theorem State.configure_pen (s : State) (m : Mode) : (s.configure m).pen = true := by cases m <;> rfl
@[simp] theorem State.configure_bank (s : State) (m : Mode) : (s.configure m).bank = List.replicate s.params.shifters (Lane.cleared s.params) := by cases m <;> rfl
@[simp] theorem State.configure_beatsLeft (s : State) (m : Mode) : (s.configure m).beatsLeft = 0 := by cases m <;> rfl
@[simp] theorem State.configure_beatIdx (s : State) (m : Mode) : (s.configure m).beatIdx = 0 := by cases m <;> rfl
@[simp] theorem State.configure_sdone (s : State) (m : Mode) : (s.configure m).sdone = false := by cases m <;> rfl
@[simp] theorem State.configure_tsf (s : State) (m : Mode) : (s.configure m).tsf = false := by cases m <;> rfl
@[simp] theorem State.configure_sien (s : State) (m : Mode) : (s.configure m).sien = false := by cases m <;> rfl
@[simp] theorem State.configure_tien (s : State) (m : Mode) : (s.configure m).tien = false := by cases m <;> rfl
@[simp] theorem State.configure_rxdata (s : State) (m : Mode) : (s.configure m).rxdata = s.rxdata := by cases m <;> rfl
@[simp] theorem State.configure_totalBytes (s : State) (m : Mode) : (s.configure m).totalBytes = s.totalBytes := by cases m <;> rfl
@[simp] theorem State.configure_bytesRemaining (s : State) (m : Mode) : (s.configure m).bytesRemaining = s.bytesRemaining := by cases m <;> rfl
@[simp] theorem State.configure_burstsRemaining (s : State) (m : Mode) : (s.configure m).burstsRemaining = s.burstsRemaining := by cases m <;> rfl
@[simp] theorem State.configure_readCursor (s : State) (m : Mode) : (s.configure m).readCursor = s.readCursor := by cases m <;> rfl
@[simp] theorem State.configure_finalBurstBuffer (s : State) (m : Mode) : (s.configure m).finalBurstBuffer = s.finalBurstBuffer := by cases m <;> rfl
@[simp] theorem State.configure_done (s : State) (m : Mode) : (s.configure m).done = s.done := by cases m <;> rfl
@[simp] theorem State.configure_cbSlot (s : State) (m : Mode) : (s.configure m).cbSlot = s.cbSlot := by cases m <;> rfl
@[simp] theorem State.configure_bufBase (s : State) (m : Mode) : (s.configure m).bufBase = s.bufBase := by cases m <;> rfl
@[simp] theorem State.configure_fgBusy (s : State) (m : Mode) : (s.configure m).fgBusy = s.fgBusy := by cases m <;> rfl
@[simp] theorem State.configure_inIrq (s : State) (m : Mode) : (s.configure m).inIrq = s.inIrq := by cases m <;> rfl
@[simp] theorem State.configure_inCallback (s : State) (m : Mode) : (s.configure m).inCallback = s.inCallback := by cases m <;> rfl
@[simp] theorem State.configure_trace (s : State) (m : Mode) : (s.configure m).trace = s.trace := by cases m <;> rfl
@[simp] theorem State.configure_mem (s : State) (m : Mode) : (s.configure m).mem = s.mem := by cases m <;> rfl
@[simp] theorem State.configure_port (s : State) (m : Mode) : (s.configure m).port = s.port := by cases m <;> rfl
@[simp] theorem State.configure_held (s : State) (m : Mode) : (s.configure m).held = s.held := by cases m <;> rfl
@[simp] theorem State.configure_responses (s : State) (m : Mode) : (s.configure m).responses = s.responses := by cases m <;> rfl
@[simp] theorem State.configure_callbackPort (s : State) (m : Mode) : (s.configure m).callbackPort = s.callbackPort := by cases m <;> rfl
@[simp] theorem State.configure_hostStores (s : State) (m : Mode) : (s.configure m).hostStores = s.hostStores := by cases m <;> rfl
@[simp] theorem State.configure_busIn (s : State) (m : Mode) : (s.configure m).busIn = s.busIn := by cases m <;> rfl
@[simp] theorem State.configure_peripheralSteps (s : State) (m : Mode) : (s.configure m).peripheralSteps = s.peripheralSteps := by cases m <;> rfl
@[simp] theorem State.configure_interruptSteps (s : State) (m : Mode) : (s.configure m).interruptSteps = s.interruptSteps := by cases m <;> rfl
@[simp] theorem State.configure_sched (s : State) (m : Mode) : (s.configure m).sched = s.sched := by cases m <;> rfl
@[simp] theorem State.configure_tick (s : State) (m : Mode) : (s.configure m).tick = s.tick := by cases m <;> rfl

/-! ### `State.writeShiftBuf0` -/

@[simp] theorem State.writeShiftBuf0_params (s : State) (b : List Byte) : (s.writeShiftBuf0 b).params = s.params := by unfold State.writeShiftBuf0; split <;> rfl
@[simp] theorem State.writeShiftBuf0_cs (s : State) (b : List Byte) : (s.writeShiftBuf0 b).cs = s.cs := by unfold State.writeShiftBuf0; split <;> rfl
@[simp] theorem State.writeShiftBuf0_dc (s : State) (b : List Byte) : (s.writeShiftBuf0 b).dc = s.dc := by unfold State.writeShiftBuf0; split <;> rfl
@[simp] theorem State.writeShiftBuf0_rd (s : State) (b : List Byte) : (s.writeShiftBuf0 b).rd = s.rd := by unfold State.writeShiftBuf0; split <;> rfl
@[simp] theorem State.writeShiftBuf0_divider (s : State) (b : List Byte) : (s.writeShiftBuf0 b).divider = s.divider := by unfold State.writeShiftBuf0; split <;> rfl
@[simp] theorem State.writeShiftBuf0_mode (s : State) (b : List Byte) : (s.writeShiftBuf0 b).mode = s.mode := by unfold State.writeShiftBuf0; split <;> rfl
@[simp] theorem State.writeShiftBuf0_pen (s : State) (b : List Byte) : (s.writeShiftBuf0 b).pen = s.pen := by unfold State.writeShiftBuf0; split <;> rfl
@[simp] theorem State.writeShiftBuf0_timcmp (s : State) (b : List Byte) : (s.writeShiftBuf0 b).timcmp = s.timcmp := by unfold State.writeShiftBuf0; split <;> rfl
@[simp] theorem State.writeShiftBuf0_beatsLeft (s : State) (b : List Byte) : (s.writeShiftBuf0 b).beatsLeft = s.beatsLeft := by unfold State.writeShiftBuf0; split <;> rfl
@[simp] theorem State.writeShiftBuf0_beatIdx (s : State) (b : List Byte) : (s.writeShiftBuf0 b).beatIdx = s.beatIdx := by unfold State.writeShiftBuf0; split <;> rfl
@[simp] theorem State.writeShiftBuf0_sdone (s : State) (b : List Byte) : (s.writeShiftBuf0 b).sdone = s.sdone := by unfold State.writeShiftBuf0; split <;> rfl
@[simp] theorem State.writeShiftBuf0_tsf (s : State) (b : List Byte) : (s.writeShiftBuf0 b).tsf = s.tsf := by unfold State.writeShiftBuf0; split <;> rfl
@[simp] theorem State.writeShiftBuf0_sien (s : State) (b : List Byte) : (s.writeShiftBuf0 b).sien = s.sien := by unfold State.writeShiftBuf0; split <;> rfl
@[simp] theorem State.writeShiftBuf0_tien (s : State) (b : List Byte) : (s.writeShiftBuf0 b).tien = s.tien := by unfold State.writeShiftBuf0; split <;> rfl
@[simp] theorem State.writeShiftBuf0_rxdata (s : State) (b : List Byte) : (s.writeShiftBuf0 b).rxdata = s.rxdata := by unfold State.writeShiftBuf0; split <;> rfl
@[simp] theorem State.writeShiftBuf0_totalBytes (s : State) (b : List Byte) : (s.writeShiftBuf0 b).totalBytes = s.totalBytes := by unfold State.writeShiftBuf0; split <;> rfl
@[simp] theorem State.writeShiftBuf0_bytesRemaining (s : State) (b : List Byte) : (s.writeShiftBuf0 b).bytesRemaining = s.bytesRemaining := by unfold State.writeShiftBuf0; split <;> rfl
@[simp] theorem State.writeShiftBuf0_burstsRemaining (s : State) (b : List Byte) : (s.writeShiftBuf0 b).burstsRemaining = s.burstsRemaining := by unfold State.writeShiftBuf0; split <;> rfl
@[simp] theorem State.writeShiftBuf0_readCursor (s : State) (b : List Byte) : (s.writeShiftBuf0 b).readCursor = s.readCursor := by unfold State.writeShiftBuf0; split <;> rfl
@[simp] theorem State.writeShiftBuf0_finalBurstBuffer (s : State) (b : List Byte) : (s.writeShiftBuf0 b).finalBurstBuffer = s.finalBurstBuffer := by unfold State.writeShiftBuf0; split <;> rfl
@[simp] theorem State.writeShiftBuf0_done (s : State) (b : List Byte) : (s.writeShiftBuf0 b).done = s.done := by unfold State.writeShiftBuf0; split <;> rfl
@[simp] theorem State.writeShiftBuf0_cbSlot (s : State) (b : List Byte) : (s.writeShiftBuf0 b).cbSlot = s.cbSlot := by unfold State.writeShiftBuf0; split <;> rfl
@[simp] theorem State.writeShiftBuf0_bufBase (s : State) (b : List Byte) : (s.writeShiftBuf0 b).bufBase = s.bufBase := by unfold State.writeShiftBuf0; split <;> rfl
@[simp] theorem State.writeShiftBuf0_fgBusy (s : State) (b : List Byte) : (s.writeShiftBuf0 b).fgBusy = s.fgBusy := by unfold State.writeShiftBuf0; split <;> rfl
@[simp] theorem State.writeShiftBuf0_inIrq (s : State) (b : List Byte) : (s.writeShiftBuf0 b).inIrq = s.inIrq := by unfold State.writeShiftBuf0; split <;> rfl
@[simp] theorem State.writeShiftBuf0_inCallback (s : State) (b : List Byte) : (s.writeShiftBuf0 b).inCallback = s.inCallback := by unfold State.writeShiftBuf0; split <;> rfl
@[simp] theorem State.writeShiftBuf0_trace (s : State) (b : List Byte) : (s.writeShiftBuf0 b).trace = s.trace := by unfold State.writeShiftBuf0; split <;> rfl
@[simp] theorem State.writeShiftBuf0_mem (s : State) (b : List Byte) : (s.writeShiftBuf0 b).mem = s.mem := by unfold State.writeShiftBuf0; split <;> rfl
@[simp] theorem State.writeShiftBuf0_port (s : State) (b : List Byte) : (s.writeShiftBuf0 b).port = s.port := by unfold State.writeShiftBuf0; split <;> rfl
@[simp] theorem State.writeShiftBuf0_held (s : State) (b : List Byte) : (s.writeShiftBuf0 b).held = s.held := by unfold State.writeShiftBuf0; split <;> rfl
@[simp] theorem State.writeShiftBuf0_responses (s : State) (b : List Byte) : (s.writeShiftBuf0 b).responses = s.responses := by unfold State.writeShiftBuf0; split <;> rfl
@[simp] theorem State.writeShiftBuf0_callbackPort (s : State) (b : List Byte) : (s.writeShiftBuf0 b).callbackPort = s.callbackPort := by unfold State.writeShiftBuf0; split <;> rfl
@[simp] theorem State.writeShiftBuf0_hostStores (s : State) (b : List Byte) : (s.writeShiftBuf0 b).hostStores = s.hostStores := by unfold State.writeShiftBuf0; split <;> rfl
@[simp] theorem State.writeShiftBuf0_busIn (s : State) (b : List Byte) : (s.writeShiftBuf0 b).busIn = s.busIn := by unfold State.writeShiftBuf0; split <;> rfl
@[simp] theorem State.writeShiftBuf0_peripheralSteps (s : State) (b : List Byte) : (s.writeShiftBuf0 b).peripheralSteps = s.peripheralSteps := by unfold State.writeShiftBuf0; split <;> rfl
@[simp] theorem State.writeShiftBuf0_interruptSteps (s : State) (b : List Byte) : (s.writeShiftBuf0 b).interruptSteps = s.interruptSteps := by unfold State.writeShiftBuf0; split <;> rfl
@[simp] theorem State.writeShiftBuf0_sched (s : State) (b : List Byte) : (s.writeShiftBuf0 b).sched = s.sched := by unfold State.writeShiftBuf0; split <;> rfl
@[simp] theorem State.writeShiftBuf0_tick (s : State) (b : List Byte) : (s.writeShiftBuf0 b).tick = s.tick := by unfold State.writeShiftBuf0; split <;> rfl

/-! ### `State.loadBank` -/

@[simp] theorem State.loadBank_params (s : State) (d : List Byte) : (s.loadBank d).params = s.params := rfl
@[simp] theorem State.loadBank_cs (s : State) (d : List Byte) : (s.loadBank d).cs = s.cs := rfl
@[simp] theorem State.loadBank_dc (s : State) (d : List Byte) : (s.loadBank d).dc = s.dc := rfl
@[simp] theorem State.loadBank_rd (s : State) (d : List Byte) : (s.loadBank d).rd = s.rd := rfl
@[simp] theorem State.loadBank_divider (s : State) (d : List Byte) : (s.loadBank d).divider = s.divider := rfl
@[simp] theorem State.loadBank_mode (s : State) (d : List Byte) : (s.loadBank d).mode = s.mode := rfl
@[simp] theorem State.loadBank_pen (s : State) (d : List Byte) : (s.loadBank d).pen = s.pen := rfl
@[simp] theorem State.loadBank_timcmp (s : State) (d : List Byte) : (s.loadBank d).timcmp = s.timcmp := rfl
@[simp] theorem State.loadBank_bank (s : State) (d : List Byte) : (s.loadBank d).bank = loadLanes s.params.shifterBytes s.bank d := rfl
@[simp] theorem State.loadBank_beatsLeft (s : State) (d : List Byte) : (s.loadBank d).beatsLeft = s.beatsLeft := rfl
@[simp] theorem State.loadBank_beatIdx (s : State) (d : List Byte) : (s.loadBank d).beatIdx = s.beatIdx := rfl
@[simp] theorem State.loadBank_sdone (s : State) (d : List Byte) : (s.loadBank d).sdone = s.sdone := rfl
@[simp] theorem State.loadBank_tsf (s : State) (d : List Byte) : (s.loadBank d).tsf = s.tsf := rfl
@[simp] theorem State.loadBank_sien (s : State) (d : List Byte) : (s.loadBank d).sien = s.sien := rfl
@[simp] theorem State.loadBank_tien (s : State) (d : List Byte) : (s.loadBank d).tien = s.tien := rfl
@[simp] theorem State.loadBank_rxdata (s : State) (d : List Byte) : (s.loadBank d).rxdata = s.rxdata := rfl
@[simp] theorem State.loadBank_totalBytes (s : State) (d : List Byte) : (s.loadBank d).totalBytes = s.totalBytes := rfl
@[simp] theorem State.loadBank_bytesRemaining (s : State) (d : List Byte) : (s.loadBank d).bytesRemaining = s.bytesRemaining := rfl
@[simp] theorem State.loadBank_burstsRemaining (s : State) (d : List Byte) : (s.loadBank d).burstsRemaining = s.burstsRemaining := rfl
@[simp] theorem State.loadBank_readCursor (s : State) (d : List Byte) : (s.loadBank d).readCursor = s.readCursor := rfl
@[simp] theorem State.loadBank_finalBurstBuffer (s : State) (d : List Byte) : (s.loadBank d).finalBurstBuffer = s.finalBurstBuffer := rfl
@[simp] theorem State.loadBank_done (s : State) (d : List Byte) : (s.loadBank d).done = s.done := rfl
@[simp] theorem State.loadBank_cbSlot (s : State) (d : List Byte) : (s.loadBank d).cbSlot = s.cbSlot := rfl
@[simp] theorem State.loadBank_bufBase (s : State) (d : List Byte) : (s.loadBank d).bufBase = s.bufBase := rfl
@[simp] theorem State.loadBank_fgBusy (s : State) (d : List Byte) : (s.loadBank d).fgBusy = s.fgBusy := rfl
@[simp] theorem State.loadBank_inIrq (s : State) (d : List Byte) : (s.loadBank d).inIrq = s.inIrq := rfl
@[simp] theorem State.loadBank_inCallback (s : State) (d : List Byte) : (s.loadBank d).inCallback = s.inCallback := rfl
@[simp] theorem State.loadBank_trace (s : State) (d : List Byte) : (s.loadBank d).trace = s.trace := rfl
@[simp] theorem State.loadBank_mem (s : State) (d : List Byte) : (s.loadBank d).mem = s.mem := rfl
@[simp] theorem State.loadBank_port (s : State) (d : List Byte) : (s.loadBank d).port = s.port := rfl
@[simp] theorem State.loadBank_held (s : State) (d : List Byte) : (s.loadBank d).held = s.held := rfl
@[simp] theorem State.loadBank_responses (s : State) (d : List Byte) : (s.loadBank d).responses = s.responses := rfl
@[simp] theorem State.loadBank_callbackPort (s : State) (d : List Byte) : (s.loadBank d).callbackPort = s.callbackPort := rfl
@[simp] theorem State.loadBank_hostStores (s : State) (d : List Byte) : (s.loadBank d).hostStores = s.hostStores := rfl
@[simp] theorem State.loadBank_busIn (s : State) (d : List Byte) : (s.loadBank d).busIn = s.busIn := rfl
@[simp] theorem State.loadBank_peripheralSteps (s : State) (d : List Byte) : (s.loadBank d).peripheralSteps = s.peripheralSteps := rfl
@[simp] theorem State.loadBank_interruptSteps (s : State) (d : List Byte) : (s.loadBank d).interruptSteps = s.interruptSteps := rfl
@[simp] theorem State.loadBank_sched (s : State) (d : List Byte) : (s.loadBank d).sched = s.sched := rfl
@[simp] theorem State.loadBank_tick (s : State) (d : List Byte) : (s.loadBank d).tick = s.tick := rfl

/-! ### `State.ret` -/

@[simp] theorem State.ret_params (s : State) (r : Response) : (s.ret r).params = s.params := rfl
@[simp] theorem State.ret_cs (s : State) (r : Response) : (s.ret r).cs = s.cs := rfl
@[simp] theorem State.ret_dc (s : State) (r : Response) : (s.ret r).dc = s.dc := rfl
@[simp] theorem State.ret_rd (s : State) (r : Response) : (s.ret r).rd = s.rd := rfl
@[simp] theorem State.ret_divider (s : State) (r : Response) : (s.ret r).divider = s.divider := rfl
@[simp] theorem State.ret_mode (s : State) (r : Response) : (s.ret r).mode = s.mode := rfl
@[simp] theorem State.ret_pen (s : State) (r : Response) : (s.ret r).pen = s.pen := rfl
@[simp] theorem State.ret_timcmp (s : State) (r : Response) : (s.ret r).timcmp = s.timcmp := rfl
@[simp] theorem State.ret_bank (s : State) (r : Response) : (s.ret r).bank = s.bank := rfl
@[simp] theorem State.ret_beatsLeft (s : State) (r : Response) : (s.ret r).beatsLeft = s.beatsLeft := rfl
@[simp] theorem State.ret_beatIdx (s : State) (r : Response) : (s.ret r).beatIdx = s.beatIdx := rfl
@[simp] theorem State.ret_sdone (s : State) (r : Response) : (s.ret r).sdone = s.sdone := rfl
@[simp] theorem State.ret_tsf (s : State) (r : Response) : (s.ret r).tsf = s.tsf := rfl
@[simp] theorem State.ret_sien (s : State) (r : Response) : (s.ret r).sien = s.sien := rfl
@[simp] theorem State.ret_tien (s : State) (r : Response) : (s.ret r).tien = s.tien := rfl
@[simp] theorem State.ret_rxdata (s : State) (r : Response) : (s.ret r).rxdata = s.rxdata := rfl
@[simp] theorem State.ret_totalBytes (s : State) (r : Response) : (s.ret r).totalBytes = s.totalBytes := rfl
@[simp] theorem State.ret_bytesRemaining (s : State) (r : Response) : (s.ret r).bytesRemaining = s.bytesRemaining := rfl
@[simp] theorem State.ret_burstsRemaining (s : State) (r : Response) : (s.ret r).burstsRemaining = s.burstsRemaining := rfl
@[simp] theorem State.ret_readCursor (s : State) (r : Response) : (s.ret r).readCursor = s.readCursor := rfl
@[simp] theorem State.ret_finalBurstBuffer (s : State) (r : Response) : (s.ret r).finalBurstBuffer = s.finalBurstBuffer := rfl
@[simp] theorem State.ret_done (s : State) (r : Response) : (s.ret r).done = s.done := rfl
@[simp] theorem State.ret_cbSlot (s : State) (r : Response) : (s.ret r).cbSlot = s.cbSlot := rfl
@[simp] theorem State.ret_bufBase (s : State) (r : Response) : (s.ret r).bufBase = s.bufBase := rfl
@[simp] theorem State.ret_fgBusy (s : State) (r : Response) : (s.ret r).fgBusy = false := rfl
@[simp] theorem State.ret_inIrq (s : State) (r : Response) : (s.ret r).inIrq = s.inIrq := rfl
@[simp] theorem State.ret_inCallback (s : State) (r : Response) : (s.ret r).inCallback = s.inCallback := rfl
@[simp] theorem State.ret_trace (s : State) (r : Response) : (s.ret r).trace = s.trace := rfl
@[simp] theorem State.ret_mem (s : State) (r : Response) : (s.ret r).mem = s.mem := rfl
@[simp] theorem State.ret_port (s : State) (r : Response) : (s.ret r).port = s.port := rfl
@[simp] theorem State.ret_held (s : State) (r : Response) : (s.ret r).held = none := rfl
@[simp] theorem State.ret_responses (s : State) (r : Response) : (s.ret r).responses = s.responses ++ [r] := rfl
@[simp] theorem State.ret_callbackPort (s : State) (r : Response) : (s.ret r).callbackPort = s.callbackPort := rfl
@[simp] theorem State.ret_hostStores (s : State) (r : Response) : (s.ret r).hostStores = s.hostStores := rfl
@[simp] theorem State.ret_busIn (s : State) (r : Response) : (s.ret r).busIn = s.busIn := rfl
@[simp] theorem State.ret_peripheralSteps (s : State) (r : Response) : (s.ret r).peripheralSteps = s.peripheralSteps := rfl
@[simp] theorem State.ret_interruptSteps (s : State) (r : Response) : (s.ret r).interruptSteps = s.interruptSteps := rfl
@[simp] theorem State.ret_sched (s : State) (r : Response) : (s.ret r).sched = s.sched := rfl
@[simp] theorem State.ret_tick (s : State) (r : Response) : (s.ret r).tick = s.tick := rfl

/-! ### `State.hold` -/

@[simp] theorem State.hold_params (s : State) (h : Hold) : (s.hold h).params = s.params := rfl
@[simp] theorem State.hold_cs (s : State) (h : Hold) : (s.hold h).cs = s.cs := rfl
@[simp] theorem State.hold_dc (s : State) (h : Hold) : (s.hold h).dc = s.dc := rfl
@[simp] theorem State.hold_rd (s : State) (h : Hold) : (s.hold h).rd = s.rd := rfl
@[simp] theorem State.hold_divider (s : State) (h : Hold) : (s.hold h).divider = s.divider := rfl
@[simp] theorem State.hold_mode (s : State) (h : Hold) : (s.hold h).mode = s.mode := rfl
@[simp] theorem State.hold_pen (s : State) (h : Hold) : (s.hold h).pen = s.pen := rfl
@[simp] theorem State.hold_timcmp (s : State) (h : Hold) : (s.hold h).timcmp = s.timcmp := rfl
@[simp] theorem State.hold_bank (s : State) (h : Hold) : (s.hold h).bank = s.bank := rfl
@[simp] theorem State.hold_beatsLeft (s : State) (h : Hold) : (s.hold h).beatsLeft = s.beatsLeft := rfl
@[simp] theorem State.hold_beatIdx (s : State) (h : Hold) : (s.hold h).beatIdx = s.beatIdx := rfl
@[simp] theorem State.hold_sdone (s : State) (h : Hold) : (s.hold h).sdone = s.sdone := rfl
@[simp] theorem State.hold_tsf (s : State) (h : Hold) : (s.hold h).tsf = s.tsf := rfl
@[simp] theorem State.hold_sien (s : State) (h : Hold) : (s.hold h).sien = s.sien := rfl
@[simp] theorem State.hold_tien (s : State) (h : Hold) : (s.hold h).tien = s.tien := rfl
@[simp] theorem State.hold_rxdata (s : State) (h : Hold) : (s.hold h).rxdata = s.rxdata := rfl
@[simp] theorem State.hold_totalBytes (s : State) (h : Hold) : (s.hold h).totalBytes = s.totalBytes := rfl
@[simp] theorem State.hold_bytesRemaining (s : State) (h : Hold) : (s.hold h).bytesRemaining = s.bytesRemaining := rfl
@[simp] theorem State.hold_burstsRemaining (s : State) (h : Hold) : (s.hold h).burstsRemaining = s.burstsRemaining := rfl
@[simp] theorem State.hold_readCursor (s : State) (h : Hold) : (s.hold h).readCursor = s.readCursor := rfl
@[simp] theorem State.hold_finalBurstBuffer (s : State) (h : Hold) : (s.hold h).finalBurstBuffer = s.finalBurstBuffer := rfl
@[simp] theorem State.hold_done (s : State) (h : Hold) : (s.hold h).done = s.done := rfl
@[simp] theorem State.hold_cbSlot (s : State) (h : Hold) : (s.hold h).cbSlot = s.cbSlot := rfl
@[simp] theorem State.hold_bufBase (s : State) (h : Hold) : (s.hold h).bufBase = s.bufBase := rfl
@[simp] theorem State.hold_fgBusy (s : State) (h : Hold) : (s.hold h).fgBusy = true := rfl
@[simp] theorem State.hold_inIrq (s : State) (h : Hold) : (s.hold h).inIrq = s.inIrq := rfl
@[simp] theorem State.hold_inCallback (s : State) (h : Hold) : (s.hold h).inCallback = s.inCallback := rfl
@[simp] theorem State.hold_trace (s : State) (h : Hold) : (s.hold h).trace = s.trace := rfl
@[simp] theorem State.hold_mem (s : State) (h : Hold) : (s.hold h).mem = s.mem := rfl
@[simp] theorem State.hold_port (s : State) (h : Hold) : (s.hold h).port = s.port := rfl
@[simp] theorem State.hold_held (s : State) (h : Hold) : (s.hold h).held = some h := rfl
@[simp] theorem State.hold_responses (s : State) (h : Hold) : (s.hold h).responses = s.responses := rfl
@[simp] theorem State.hold_callbackPort (s : State) (h : Hold) : (s.hold h).callbackPort = s.callbackPort := rfl
@[simp] theorem State.hold_hostStores (s : State) (h : Hold) : (s.hold h).hostStores = s.hostStores := rfl
@[simp] theorem State.hold_busIn (s : State) (h : Hold) : (s.hold h).busIn = s.busIn := rfl
@[simp] theorem State.hold_peripheralSteps (s : State) (h : Hold) : (s.hold h).peripheralSteps = s.peripheralSteps := rfl
@[simp] theorem State.hold_interruptSteps (s : State) (h : Hold) : (s.hold h).interruptSteps = s.interruptSteps := rfl
@[simp] theorem State.hold_sched (s : State) (h : Hold) : (s.hold h).sched = s.sched := rfl
@[simp] theorem State.hold_tick (s : State) (h : Hold) : (s.hold h).tick = s.tick := rfl

/-! ### `State.spendPeripheral` -/

@[simp] theorem State.spendPeripheral_params (s : State) : (s.spendPeripheral).params = s.params := rfl
@[simp] theorem State.spendPeripheral_cs (s : State) : (s.spendPeripheral).cs = s.cs := rfl
@[simp] theorem State.spendPeripheral_dc (s : State) : (s.spendPeripheral).dc = s.dc := rfl
@[simp] theorem State.spendPeripheral_rd (s : State) : (s.spendPeripheral).rd = s.rd := rfl
@[simp] theorem State.spendPeripheral_divider (s : State) : (s.spendPeripheral).divider = s.divider := rfl
@[simp] theorem State.spendPeripheral_mode (s : State) : (s.spendPeripheral).mode = s.mode := rfl
@[simp] theorem State.spendPeripheral_pen (s : State) : (s.spendPeripheral).pen = s.pen := rfl
@[simp] theorem State.spendPeripheral_timcmp (s : State) : (s.spendPeripheral).timcmp = s.timcmp := rfl
@[simp] theorem State.spendPeripheral_bank (s : State) : (s.spendPeripheral).bank = s.bank := rfl
@[simp] theorem State.spendPeripheral_beatsLeft (s : State) : (s.spendPeripheral).beatsLeft = s.beatsLeft := rfl
@[simp] theorem State.spendPeripheral_beatIdx (s : State) : (s.spendPeripheral).beatIdx = s.beatIdx := rfl
@[simp] theorem State.spendPeripheral_sdone (s : State) : (s.spendPeripheral).sdone = s.sdone := rfl
@[simp] theorem State.spendPeripheral_tsf (s : State) : (s.spendPeripheral).tsf = s.tsf := rfl
@[simp] theorem State.spendPeripheral_sien (s : State) : (s.spendPeripheral).sien = s.sien := rfl
@[simp] theorem State.spendPeripheral_tien (s : State) : (s.spendPeripheral).tien = s.tien := rfl
@[simp] theorem State.spendPeripheral_rxdata (s : State) : (s.spendPeripheral).rxdata = s.rxdata := rfl
@[simp] theorem State.spendPeripheral_totalBytes (s : State) : (s.spendPeripheral).totalBytes = s.totalBytes := rfl
@[simp] theorem State.spendPeripheral_bytesRemaining (s : State) : (s.spendPeripheral).bytesRemaining = s.bytesRemaining := rfl
@[simp] theorem State.spendPeripheral_burstsRemaining (s : State) : (s.spendPeripheral).burstsRemaining = s.burstsRemaining := rfl
@[simp] theorem State.spendPeripheral_readCursor (s : State) : (s.spendPeripheral).readCursor = s.readCursor := rfl
@[simp] theorem State.spendPeripheral_finalBurstBuffer (s : State) : (s.spendPeripheral).finalBurstBuffer = s.finalBurstBuffer := rfl
@[simp] theorem State.spendPeripheral_done (s : State) : (s.spendPeripheral).done = s.done := rfl
@[simp] theorem State.spendPeripheral_cbSlot (s : State) : (s.spendPeripheral).cbSlot = s.cbSlot := rfl
@[simp] theorem State.spendPeripheral_bufBase (s : State) : (s.spendPeripheral).bufBase = s.bufBase := rfl
@[simp] theorem State.spendPeripheral_fgBusy (s : State) : (s.spendPeripheral).fgBusy = s.fgBusy := rfl
@[simp] theorem State.spendPeripheral_inIrq (s : State) : (s.spendPeripheral).inIrq = s.inIrq := rfl
@[simp] theorem State.spendPeripheral_inCallback (s : State) : (s.spendPeripheral).inCallback = s.inCallback := rfl
@[simp] theorem State.spendPeripheral_trace (s : State) : (s.spendPeripheral).trace = s.trace := rfl
@[simp] theorem State.spendPeripheral_mem (s : State) : (s.spendPeripheral).mem = s.mem := rfl
@[simp] theorem State.spendPeripheral_port (s : State) : (s.spendPeripheral).port = s.port := rfl
@[simp] theorem State.spendPeripheral_held (s : State) : (s.spendPeripheral).held = s.held := rfl
@[simp] theorem State.spendPeripheral_responses (s : State) : (s.spendPeripheral).responses = s.responses := rfl
@[simp] theorem State.spendPeripheral_callbackPort (s : State) : (s.spendPeripheral).callbackPort = s.callbackPort := rfl
@[simp] theorem State.spendPeripheral_hostStores (s : State) : (s.spendPeripheral).hostStores = s.hostStores := rfl
@[simp] theorem State.spendPeripheral_busIn (s : State) : (s.spendPeripheral).busIn = s.busIn := rfl
@[simp] theorem State.spendPeripheral_peripheralSteps (s : State) : (s.spendPeripheral).peripheralSteps = s.peripheralSteps.map (· - 1) := rfl
@[simp] theorem State.spendPeripheral_interruptSteps (s : State) : (s.spendPeripheral).interruptSteps = s.interruptSteps := rfl
@[simp] theorem State.spendPeripheral_sched (s : State) : (s.spendPeripheral).sched = s.sched := rfl
@[simp] theorem State.spendPeripheral_tick (s : State) : (s.spendPeripheral).tick = s.tick := rfl

/-! ### `State.spendInterrupt` -/

@[simp] theorem State.spendInterrupt_params (s : State) : (s.spendInterrupt).params = s.params := rfl
@[simp] theorem State.spendInterrupt_cs (s : State) : (s.spendInterrupt).cs = s.cs := rfl
@[simp] theorem State.spendInterrupt_dc (s : State) : (s.spendInterrupt).dc = s.dc := rfl
@[simp] theorem State.spendInterrupt_rd (s : State) : (s.spendInterrupt).rd = s.rd := rfl
@[simp] theorem State.spendInterrupt_divider (s : State) : (s.spendInterrupt).divider = s.divider := rfl
@[simp] theorem State.spendInterrupt_mode (s : State) : (s.spendInterrupt).mode = s.mode := rfl
@[simp] theorem State.spendInterrupt_pen (s : State) : (s.spendInterrupt).pen = s.pen := rfl
@[simp] theorem State.spendInterrupt_timcmp (s : State) : (s.spendInterrupt).timcmp = s.timcmp := rfl
@[simp] theorem State.spendInterrupt_bank (s : State) : (s.spendInterrupt).bank = s.bank := rfl
@[simp] theorem State.spendInterrupt_beatsLeft (s : State) : (s.spendInterrupt).beatsLeft = s.beatsLeft := rfl
@[simp] theorem State.spendInterrupt_beatIdx (s : State) : (s.spendInterrupt).beatIdx = s.beatIdx := rfl
@[simp] theorem State.spendInterrupt_sdone (s : State) : (s.spendInterrupt).sdone = s.sdone := rfl
@[simp] theorem State.spendInterrupt_tsf (s : State) : (s.spendInterrupt).tsf = s.tsf := rfl
@[simp] theorem State.spendInterrupt_sien (s : State) : (s.spendInterrupt).sien = s.sien := rfl
@[simp] theorem State.spendInterrupt_tien (s : State) : (s.spendInterrupt).tien = s.tien := rfl
@[simp] theorem State.spendInterrupt_rxdata (s : State) : (s.spendInterrupt).rxdata = s.rxdata := rfl
@[simp] theorem State.spendInterrupt_totalBytes (s : State) : (s.spendInterrupt).totalBytes = s.totalBytes := rfl
@[simp] theorem State.spendInterrupt_bytesRemaining (s : State) : (s.spendInterrupt).bytesRemaining = s.bytesRemaining := rfl
@[simp] theorem State.spendInterrupt_burstsRemaining (s : State) : (s.spendInterrupt).burstsRemaining = s.burstsRemaining := rfl
@[simp] theorem State.spendInterrupt_readCursor (s : State) : (s.spendInterrupt).readCursor = s.readCursor := rfl
@[simp] theorem State.spendInterrupt_finalBurstBuffer (s : State) : (s.spendInterrupt).finalBurstBuffer = s.finalBurstBuffer := rfl
@[simp] theorem State.spendInterrupt_done (s : State) : (s.spendInterrupt).done = s.done := rfl
@[simp] theorem State.spendInterrupt_cbSlot (s : State) : (s.spendInterrupt).cbSlot = s.cbSlot := rfl
@[simp] theorem State.spendInterrupt_bufBase (s : State) : (s.spendInterrupt).bufBase = s.bufBase := rfl
@[simp] theorem State.spendInterrupt_fgBusy (s : State) : (s.spendInterrupt).fgBusy = s.fgBusy := rfl
@[simp] theorem State.spendInterrupt_inIrq (s : State) : (s.spendInterrupt).inIrq = s.inIrq := rfl
@[simp] theorem State.spendInterrupt_inCallback (s : State) : (s.spendInterrupt).inCallback = s.inCallback := rfl
@[simp] theorem State.spendInterrupt_trace (s : State) : (s.spendInterrupt).trace = s.trace := rfl
@[simp] theorem State.spendInterrupt_mem (s : State) : (s.spendInterrupt).mem = s.mem := rfl
@[simp] theorem State.spendInterrupt_port (s : State) : (s.spendInterrupt).port = s.port := rfl
@[simp] theorem State.spendInterrupt_held (s : State) : (s.spendInterrupt).held = s.held := rfl
@[simp] theorem State.spendInterrupt_responses (s : State) : (s.spendInterrupt).responses = s.responses := rfl
@[simp] theorem State.spendInterrupt_callbackPort (s : State) : (s.spendInterrupt).callbackPort = s.callbackPort := rfl
@[simp] theorem State.spendInterrupt_hostStores (s : State) : (s.spendInterrupt).hostStores = s.hostStores := rfl
@[simp] theorem State.spendInterrupt_busIn (s : State) : (s.spendInterrupt).busIn = s.busIn := rfl
@[simp] theorem State.spendInterrupt_peripheralSteps (s : State) : (s.spendInterrupt).peripheralSteps = s.peripheralSteps := rfl
@[simp] theorem State.spendInterrupt_interruptSteps (s : State) : (s.spendInterrupt).interruptSteps = s.interruptSteps.map (· - 1) := rfl
@[simp] theorem State.spendInterrupt_sched (s : State) : (s.spendInterrupt).sched = s.sched := rfl
@[simp] theorem State.spendInterrupt_tick (s : State) : (s.spendInterrupt).tick = s.tick := rfl

/-! ### `State.enterIrq` -/

@[simp] theorem State.enterIrq_params (s : State) : (s.enterIrq).params = s.params := rfl
@[simp] theorem State.enterIrq_cs (s : State) : (s.enterIrq).cs = s.cs := rfl
@[simp] theorem State.enterIrq_dc (s : State) : (s.enterIrq).dc = s.dc := rfl
@[simp] theorem State.enterIrq_rd (s : State) : (s.enterIrq).rd = s.rd := rfl
@[simp] theorem State.enterIrq_divider (s : State) : (s.enterIrq).divider = s.divider := rfl
@[simp] theorem State.enterIrq_mode (s : State) : (s.enterIrq).mode = s.mode := rfl
@[simp] theorem State.enterIrq_pen (s : State) : (s.enterIrq).pen = s.pen := rfl
@[simp] theorem State.enterIrq_timcmp (s : State) : (s.enterIrq).timcmp = s.timcmp := rfl
@[simp] theorem State.enterIrq_bank (s : State) : (s.enterIrq).bank = s.bank := rfl
@[simp] theorem State.enterIrq_beatsLeft (s : State) : (s.enterIrq).beatsLeft = s.beatsLeft := rfl
@[simp] theorem State.enterIrq_beatIdx (s : State) : (s.enterIrq).beatIdx = s.beatIdx := rfl
@[simp] theorem State.enterIrq_sdone (s : State) : (s.enterIrq).sdone = s.sdone := rfl
@[simp] theorem State.enterIrq_tsf (s : State) : (s.enterIrq).tsf = s.tsf := rfl
@[simp] theorem State.enterIrq_sien (s : State) : (s.enterIrq).sien = s.sien := rfl
@[simp] theorem State.enterIrq_tien (s : State) : (s.enterIrq).tien = s.tien := rfl
@[simp] theorem State.enterIrq_rxdata (s : State) : (s.enterIrq).rxdata = s.rxdata := rfl
@[simp] theorem State.enterIrq_totalBytes (s : State) : (s.enterIrq).totalBytes = s.totalBytes := rfl
@[simp] theorem State.enterIrq_bytesRemaining (s : State) : (s.enterIrq).bytesRemaining = s.bytesRemaining := rfl
@[simp] theorem State.enterIrq_burstsRemaining (s : State) : (s.enterIrq).burstsRemaining = s.burstsRemaining := rfl
@[simp] theorem State.enterIrq_readCursor (s : State) : (s.enterIrq).readCursor = s.readCursor := rfl
@[simp] theorem State.enterIrq_finalBurstBuffer (s : State) : (s.enterIrq).finalBurstBuffer = s.finalBurstBuffer := rfl
@[simp] theorem State.enterIrq_done (s : State) : (s.enterIrq).done = s.done := rfl
@[simp] theorem State.enterIrq_cbSlot (s : State) : (s.enterIrq).cbSlot = s.cbSlot := rfl
@[simp] theorem State.enterIrq_bufBase (s : State) : (s.enterIrq).bufBase = s.bufBase := rfl
@[simp] theorem State.enterIrq_fgBusy (s : State) : (s.enterIrq).fgBusy = s.fgBusy := rfl
@[simp] theorem State.enterIrq_inIrq (s : State) : (s.enterIrq).inIrq = true := rfl
@[simp] theorem State.enterIrq_inCallback (s : State) : (s.enterIrq).inCallback = s.inCallback := rfl
@[simp] theorem State.enterIrq_trace (s : State) : (s.enterIrq).trace = s.trace := rfl
@[simp] theorem State.enterIrq_mem (s : State) : (s.enterIrq).mem = s.mem := rfl
@[simp] theorem State.enterIrq_port (s : State) : (s.enterIrq).port = s.port := rfl
@[simp] theorem State.enterIrq_held (s : State) : (s.enterIrq).held = s.held := rfl
@[simp] theorem State.enterIrq_responses (s : State) : (s.enterIrq).responses = s.responses := rfl
@[simp] theorem State.enterIrq_callbackPort (s : State) : (s.enterIrq).callbackPort = s.callbackPort := rfl
@[simp] theorem State.enterIrq_hostStores (s : State) : (s.enterIrq).hostStores = s.hostStores := rfl
@[simp] theorem State.enterIrq_busIn (s : State) : (s.enterIrq).busIn = s.busIn := rfl
@[simp] theorem State.enterIrq_peripheralSteps (s : State) : (s.enterIrq).peripheralSteps = s.peripheralSteps := rfl
@[simp] theorem State.enterIrq_interruptSteps (s : State) : (s.enterIrq).interruptSteps = s.interruptSteps := rfl
@[simp] theorem State.enterIrq_sched (s : State) : (s.enterIrq).sched = s.sched := rfl
@[simp] theorem State.enterIrq_tick (s : State) : (s.enterIrq).tick = s.tick := rfl

/-! ### `State.leaveIrq` -/

@[simp] theorem State.leaveIrq_params (s : State) : (s.leaveIrq).params = s.params := rfl
@[simp] theorem State.leaveIrq_cs (s : State) : (s.leaveIrq).cs = s.cs := rfl
@[simp] theorem State.leaveIrq_dc (s : State) : (s.leaveIrq).dc = s.dc := rfl
@[simp] theorem State.leaveIrq_rd (s : State) : (s.leaveIrq).rd = s.rd := rfl
@[simp] theorem State.leaveIrq_divider (s : State) : (s.leaveIrq).divider = s.divider := rfl
@[simp] theorem State.leaveIrq_mode (s : State) : (s.leaveIrq).mode = s.mode := rfl
@[simp] theorem State.leaveIrq_pen (s : State) : (s.leaveIrq).pen = s.pen := rfl
@[simp] theorem State.leaveIrq_timcmp (s : State) : (s.leaveIrq).timcmp = s.timcmp := rfl
@[simp] theorem State.leaveIrq_bank (s : State) : (s.leaveIrq).bank = s.bank := rfl
@[simp] theorem State.leaveIrq_beatsLeft (s : State) : (s.leaveIrq).beatsLeft = s.beatsLeft := rfl
@[simp] theorem State.leaveIrq_beatIdx (s : State) : (s.leaveIrq).beatIdx = s.beatIdx := rfl
@[simp] theorem State.leaveIrq_sdone (s : State) : (s.leaveIrq).sdone = s.sdone := rfl
@[simp] theorem State.leaveIrq_tsf (s : State) : (s.leaveIrq).tsf = s.tsf := rfl
@[simp] theorem State.leaveIrq_sien (s : State) : (s.leaveIrq).sien = s.sien := rfl
@[simp] theorem State.leaveIrq_tien (s : State) : (s.leaveIrq).tien = s.tien := rfl
@[simp] theorem State.leaveIrq_rxdata (s : State) : (s.leaveIrq).rxdata = s.rxdata := rfl
@[simp] theorem State.leaveIrq_totalBytes (s : State) : (s.leaveIrq).totalBytes = s.totalBytes := rfl
@[simp] theorem State.leaveIrq_bytesRemaining (s : State) : (s.leaveIrq).bytesRemaining = s.bytesRemaining := rfl
@[simp] theorem State.leaveIrq_burstsRemaining (s : State) : (s.leaveIrq).burstsRemaining = s.burstsRemaining := rfl
@[simp] theorem State.leaveIrq_readCursor (s : State) : (s.leaveIrq).readCursor = s.readCursor := rfl
@[simp] theorem State.leaveIrq_finalBurstBuffer (s : State) : (s.leaveIrq).finalBurstBuffer = s.finalBurstBuffer := rfl
@[simp] theorem State.leaveIrq_done (s : State) : (s.leaveIrq).done = s.done := rfl
@[simp] theorem State.leaveIrq_cbSlot (s : State) : (s.leaveIrq).cbSlot = s.cbSlot := rfl
@[simp] theorem State.leaveIrq_bufBase (s : State) : (s.leaveIrq).bufBase = s.bufBase := rfl
@[simp] theorem State.leaveIrq_fgBusy (s : State) : (s.leaveIrq).fgBusy = s.fgBusy := rfl
@[simp] theorem State.leaveIrq_inIrq (s : State) : (s.leaveIrq).inIrq = false := rfl
@[simp] theorem State.leaveIrq_inCallback (s : State) : (s.leaveIrq).inCallback = s.inCallback := rfl
@[simp] theorem State.leaveIrq_trace (s : State) : (s.leaveIrq).trace = s.trace := rfl
@[simp] theorem State.leaveIrq_mem (s : State) : (s.leaveIrq).mem = s.mem := rfl
@[simp] theorem State.leaveIrq_port (s : State) : (s.leaveIrq).port = s.port := rfl
@[simp] theorem State.leaveIrq_held (s : State) : (s.leaveIrq).held = s.held := rfl
@[simp] theorem State.leaveIrq_responses (s : State) : (s.leaveIrq).responses = s.responses := rfl
@[simp] theorem State.leaveIrq_callbackPort (s : State) : (s.leaveIrq).callbackPort = s.callbackPort := rfl
@[simp] theorem State.leaveIrq_hostStores (s : State) : (s.leaveIrq).hostStores = s.hostStores := rfl
@[simp] theorem State.leaveIrq_busIn (s : State) : (s.leaveIrq).busIn = s.busIn := rfl
@[simp] theorem State.leaveIrq_peripheralSteps (s : State) : (s.leaveIrq).peripheralSteps = s.peripheralSteps := rfl
@[simp] theorem State.leaveIrq_interruptSteps (s : State) : (s.leaveIrq).interruptSteps = s.interruptSteps := rfl
@[simp] theorem State.leaveIrq_sched (s : State) : (s.leaveIrq).sched = s.sched := rfl
@[simp] theorem State.leaveIrq_tick (s : State) : (s.leaveIrq).tick = s.tick := rfl

/-! ### `State.bankLoad` -/

@[simp] theorem State.bankLoad_params (s : State) : (s.bankLoad).params = s.params := rfl
@[simp] theorem State.bankLoad_cs (s : State) : (s.bankLoad).cs = s.cs := rfl
@[simp] theorem State.bankLoad_dc (s : State) : (s.bankLoad).dc = s.dc := rfl
@[simp] theorem State.bankLoad_rd (s : State) : (s.bankLoad).rd = s.rd := rfl
@[simp] theorem State.bankLoad_divider (s : State) : (s.bankLoad).divider = s.divider := rfl
@[simp] theorem State.bankLoad_mode (s : State) : (s.bankLoad).mode = s.mode := rfl
@[simp] theorem State.bankLoad_pen (s : State) : (s.bankLoad).pen = s.pen := rfl
@[simp] theorem State.bankLoad_timcmp (s : State) : (s.bankLoad).timcmp = s.timcmp := rfl
@[simp] theorem State.bankLoad_bank (s : State) : (s.bankLoad).bank = (s.bank.take s.activeLanes).map Lane.shiftIn ++ s.bank.drop s.activeLanes := rfl
@[simp] theorem State.bankLoad_beatsLeft (s : State) : (s.bankLoad).beatsLeft = beatsOfCompare s.timcmp := rfl
@[simp] theorem State.bankLoad_beatIdx (s : State) : (s.bankLoad).beatIdx = 0 := rfl
@[simp] theorem State.bankLoad_sdone (s : State) : (s.bankLoad).sdone = s.sdone := rfl
@[simp] theorem State.bankLoad_tsf (s : State) : (s.bankLoad).tsf = s.tsf := rfl
@[simp] theorem State.bankLoad_sien (s : State) : (s.bankLoad).sien = s.sien := rfl
@[simp] theorem State.bankLoad_tien (s : State) : (s.bankLoad).tien = s.tien := rfl
@[simp] theorem State.bankLoad_rxdata (s : State) : (s.bankLoad).rxdata = s.rxdata := rfl
@[simp] theorem State.bankLoad_totalBytes (s : State) : (s.bankLoad).totalBytes = s.totalBytes := rfl
@[simp] theorem State.bankLoad_bytesRemaining (s : State) : (s.bankLoad).bytesRemaining = s.bytesRemaining := rfl
@[simp] theorem State.bankLoad_burstsRemaining (s : State) : (s.bankLoad).burstsRemaining = s.burstsRemaining := rfl
@[simp] theorem State.bankLoad_readCursor (s : State) : (s.bankLoad).readCursor = s.readCursor := rfl
@[simp] theorem State.bankLoad_finalBurstBuffer (s : State) : (s.bankLoad).finalBurstBuffer = s.finalBurstBuffer := rfl
@[simp] theorem State.bankLoad_done (s : State) : (s.bankLoad).done = s.done := rfl
@[simp] theorem State.bankLoad_cbSlot (s : State) : (s.bankLoad).cbSlot = s.cbSlot := rfl
@[simp] theorem State.bankLoad_bufBase (s : State) : (s.bankLoad).bufBase = s.bufBase := rfl
@[simp] theorem State.bankLoad_fgBusy (s : State) : (s.bankLoad).fgBusy = s.fgBusy := rfl
@[simp] theorem State.bankLoad_inIrq (s : State) : (s.bankLoad).inIrq = s.inIrq := rfl
@[simp] theorem State.bankLoad_inCallback (s : State) : (s.bankLoad).inCallback = s.inCallback := rfl
@[simp] theorem State.bankLoad_trace (s : State) : (s.bankLoad).trace = s.trace := rfl
@[simp] theorem State.bankLoad_mem (s : State) : (s.bankLoad).mem = s.mem := rfl
@[simp] theorem State.bankLoad_port (s : State) : (s.bankLoad).port = s.port := rfl
@[simp] theorem State.bankLoad_held (s : State) : (s.bankLoad).held = s.held := rfl
@[simp] theorem State.bankLoad_responses (s : State) : (s.bankLoad).responses = s.responses := rfl
@[simp] theorem State.bankLoad_callbackPort (s : State) : (s.bankLoad).callbackPort = s.callbackPort := rfl
@[simp] theorem State.bankLoad_hostStores (s : State) : (s.bankLoad).hostStores = s.hostStores := rfl
@[simp] theorem State.bankLoad_busIn (s : State) : (s.bankLoad).busIn = s.busIn := rfl
@[simp] theorem State.bankLoad_peripheralSteps (s : State) : (s.bankLoad).peripheralSteps = s.peripheralSteps := rfl
@[simp] theorem State.bankLoad_interruptSteps (s : State) : (s.bankLoad).interruptSteps = s.interruptSteps := rfl
@[simp] theorem State.bankLoad_sched (s : State) : (s.bankLoad).sched = s.sched := rfl
@[simp] theorem State.bankLoad_tick (s : State) : (s.bankLoad).tick = s.tick := rfl

/-! ### `State.writeBeat` -/

@[simp] theorem State.writeBeat_params (s : State) : (s.writeBeat).params = s.params := by unfold State.writeBeat; split <;> rfl
@[simp] theorem State.writeBeat_cs (s : State) : (s.writeBeat).cs = s.cs := by unfold State.writeBeat; split <;> rfl
@[simp] theorem State.writeBeat_dc (s : State) : (s.writeBeat).dc = s.dc := by unfold State.writeBeat; split <;> rfl
@[simp] theorem State.writeBeat_rd (s : State) : (s.writeBeat).rd = s.rd := by unfold State.writeBeat; split <;> rfl
@[simp] theorem State.writeBeat_divider (s : State) : (s.writeBeat).divider = s.divider := by unfold State.writeBeat; split <;> rfl
@[simp] theorem State.writeBeat_mode (s : State) : (s.writeBeat).mode = s.mode := by unfold State.writeBeat; split <;> rfl
@[simp] theorem State.writeBeat_pen (s : State) : (s.writeBeat).pen = s.pen := by unfold State.writeBeat; split <;> rfl
@[simp] theorem State.writeBeat_timcmp (s : State) : (s.writeBeat).timcmp = s.timcmp := by unfold State.writeBeat; split <;> rfl
@[simp] theorem State.writeBeat_bank (s : State) : (s.writeBeat).bank = s.bank := by unfold State.writeBeat; split <;> rfl
@[simp] theorem State.writeBeat_beatsLeft (s : State) : (s.writeBeat).beatsLeft = s.beatsLeft - 1 := by unfold State.writeBeat; split <;> rfl
@[simp] theorem State.writeBeat_beatIdx (s : State) : (s.writeBeat).beatIdx = s.beatIdx + 1 := by unfold State.writeBeat; split <;> rfl
@[simp] theorem State.writeBeat_sien (s : State) : (s.writeBeat).sien = s.sien := by unfold State.writeBeat; split <;> rfl
@[simp] theorem State.writeBeat_tien (s : State) : (s.writeBeat).tien = s.tien := by unfold State.writeBeat; split <;> rfl
@[simp] theorem State.writeBeat_rxdata (s : State) : (s.writeBeat).rxdata = s.rxdata := by unfold State.writeBeat; split <;> rfl
@[simp] theorem State.writeBeat_totalBytes (s : State) : (s.writeBeat).totalBytes = s.totalBytes := by unfold State.writeBeat; split <;> rfl
@[simp] theorem State.writeBeat_bytesRemaining (s : State) : (s.writeBeat).bytesRemaining = s.bytesRemaining := by unfold State.writeBeat; split <;> rfl
@[simp] theorem State.writeBeat_burstsRemaining (s : State) : (s.writeBeat).burstsRemaining = s.burstsRemaining := by unfold State.writeBeat; split <;> rfl
@[simp] theorem State.writeBeat_readCursor (s : State) : (s.writeBeat).readCursor = s.readCursor := by unfold State.writeBeat; split <;> rfl
@[simp] theorem State.writeBeat_finalBurstBuffer (s : State) : (s.writeBeat).finalBurstBuffer = s.finalBurstBuffer := by unfold State.writeBeat; split <;> rfl
@[simp] theorem State.writeBeat_done (s : State) : (s.writeBeat).done = s.done := by unfold State.writeBeat; split <;> rfl
@[simp] theorem State.writeBeat_cbSlot (s : State) : (s.writeBeat).cbSlot = s.cbSlot := by unfold State.writeBeat; split <;> rfl
@[simp] theorem State.writeBeat_bufBase (s : State) : (s.writeBeat).bufBase = s.bufBase := by unfold State.writeBeat; split <;> rfl
@[simp] theorem State.writeBeat_fgBusy (s : State) : (s.writeBeat).fgBusy = s.fgBusy := by unfold State.writeBeat; split <;> rfl
@[simp] theorem State.writeBeat_inIrq (s : State) : (s.writeBeat).inIrq = s.inIrq := by unfold State.writeBeat; split <;> rfl
@[simp] theorem State.writeBeat_inCallback (s : State) : (s.writeBeat).inCallback = s.inCallback := by unfold State.writeBeat; split <;> rfl
@[simp] theorem State.writeBeat_trace (s : State) : (s.writeBeat).trace = s.trace ++ [.wbeat s.cs s.dc s.rd s.beatValue] := by unfold State.writeBeat; split <;> rfl
@[simp] theorem State.writeBeat_mem (s : State) : (s.writeBeat).mem = s.mem := by unfold State.writeBeat; split <;> rfl
@[simp] theorem State.writeBeat_port (s : State) : (s.writeBeat).port = s.port := by unfold State.writeBeat; split <;> rfl
@[simp] theorem State.writeBeat_held (s : State) : (s.writeBeat).held = s.held := by unfold State.writeBeat; split <;> rfl
@[simp] theorem State.writeBeat_responses (s : State) : (s.writeBeat).responses = s.responses := by unfold State.writeBeat; split <;> rfl
@[simp] theorem State.writeBeat_callbackPort (s : State) : (s.writeBeat).callbackPort = s.callbackPort := by unfold State.writeBeat; split <;> rfl
@[simp] theorem State.writeBeat_hostStores (s : State) : (s.writeBeat).hostStores = s.hostStores := by unfold State.writeBeat; split <;> rfl
@[simp] theorem State.writeBeat_busIn (s : State) : (s.writeBeat).busIn = s.busIn := by unfold State.writeBeat; split <;> rfl
@[simp] theorem State.writeBeat_peripheralSteps (s : State) : (s.writeBeat).peripheralSteps = s.peripheralSteps := by unfold State.writeBeat; split <;> rfl
@[simp] theorem State.writeBeat_interruptSteps (s : State) : (s.writeBeat).interruptSteps = s.interruptSteps := by unfold State.writeBeat; split <;> rfl
@[simp] theorem State.writeBeat_sched (s : State) : (s.writeBeat).sched = s.sched := by unfold State.writeBeat; split <;> rfl
@[simp] theorem State.writeBeat_tick (s : State) : (s.writeBeat).tick = s.tick := by unfold State.writeBeat; split <;> rfl

/-! ### `State.startRead` -/

@[simp] theorem State.startRead_params (s : State) : (s.startRead).params = s.params := rfl
@[simp] theorem State.startRead_cs (s : State) : (s.startRead).cs = s.cs := rfl
@[simp] theorem State.startRead_dc (s : State) : (s.startRead).dc = s.dc := rfl
@[simp] theorem State.startRead_rd (s : State) : (s.startRead).rd = s.rd := rfl
@[simp] theorem State.startRead_divider (s : State) : (s.startRead).divider = s.divider := rfl
@[simp] theorem State.startRead_mode (s : State) : (s.startRead).mode = s.mode := rfl
@[simp] theorem State.startRead_pen (s : State) : (s.startRead).pen = s.pen := rfl
@[simp] theorem State.startRead_timcmp (s : State) : (s.startRead).timcmp = s.timcmp := rfl
@[simp] theorem State.startRead_bank (s : State) : (s.startRead).bank = s.bank := rfl
@[simp] theorem State.startRead_beatsLeft (s : State) : (s.startRead).beatsLeft = beatsOfCompare s.timcmp := rfl
@[simp] theorem State.startRead_beatIdx (s : State) : (s.startRead).beatIdx = 0 := rfl
@[simp] theorem State.startRead_sdone (s : State) : (s.startRead).sdone = s.sdone := rfl
@[simp] theorem State.startRead_tsf (s : State) : (s.startRead).tsf = s.tsf := rfl
@[simp] theorem State.startRead_sien (s : State) : (s.startRead).sien = s.sien := rfl
@[simp] theorem State.startRead_tien (s : State) : (s.startRead).tien = s.tien := rfl
@[simp] theorem State.startRead_rxdata (s : State) : (s.startRead).rxdata = s.rxdata := rfl
@[simp] theorem State.startRead_totalBytes (s : State) : (s.startRead).totalBytes = s.totalBytes := rfl
@[simp] theorem State.startRead_bytesRemaining (s : State) : (s.startRead).bytesRemaining = s.bytesRemaining := rfl
@[simp] theorem State.startRead_burstsRemaining (s : State) : (s.startRead).burstsRemaining = s.burstsRemaining := rfl
@[simp] theorem State.startRead_readCursor (s : State) : (s.startRead).readCursor = s.readCursor := rfl
@[simp] theorem State.startRead_finalBurstBuffer (s : State) : (s.startRead).finalBurstBuffer = s.finalBurstBuffer := rfl
@[simp] theorem State.startRead_done (s : State) : (s.startRead).done = s.done := rfl
@[simp] theorem State.startRead_cbSlot (s : State) : (s.startRead).cbSlot = s.cbSlot := rfl
@[simp] theorem State.startRead_bufBase (s : State) : (s.startRead).bufBase = s.bufBase := rfl
@[simp] theorem State.startRead_fgBusy (s : State) : (s.startRead).fgBusy = s.fgBusy := rfl
@[simp] theorem State.startRead_inIrq (s : State) : (s.startRead).inIrq = s.inIrq := rfl
@[simp] theorem State.startRead_inCallback (s : State) : (s.startRead).inCallback = s.inCallback := rfl
@[simp] theorem State.startRead_trace (s : State) : (s.startRead).trace = s.trace := rfl
@[simp] theorem State.startRead_mem (s : State) : (s.startRead).mem = s.mem := rfl
@[simp] theorem State.startRead_port (s : State) : (s.startRead).port = s.port := rfl
@[simp] theorem State.startRead_held (s : State) : (s.startRead).held = s.held := rfl
@[simp] theorem State.startRead_responses (s : State) : (s.startRead).responses = s.responses := rfl
@[simp] theorem State.startRead_callbackPort (s : State) : (s.startRead).callbackPort = s.callbackPort := rfl
@[simp] theorem State.startRead_hostStores (s : State) : (s.startRead).hostStores = s.hostStores := rfl
@[simp] theorem State.startRead_busIn (s : State) : (s.startRead).busIn = s.busIn := rfl
@[simp] theorem State.startRead_peripheralSteps (s : State) : (s.startRead).peripheralSteps = s.peripheralSteps := rfl
@[simp] theorem State.startRead_interruptSteps (s : State) : (s.startRead).interruptSteps = s.interruptSteps := rfl
@[simp] theorem State.startRead_sched (s : State) : (s.startRead).sched = s.sched := rfl
@[simp] theorem State.startRead_tick (s : State) : (s.startRead).tick = s.tick := rfl

/-! ### `State.readBeat` -/

@[simp] theorem State.readBeat_params (s : State) : (s.readBeat).params = s.params := rfl
@[simp] theorem State.readBeat_cs (s : State) : (s.readBeat).cs = s.cs := rfl
@[simp] theorem State.readBeat_dc (s : State) : (s.readBeat).dc = s.dc := rfl
@[simp] theorem State.readBeat_rd (s : State) : (s.readBeat).rd = s.rd := rfl
@[simp] theorem State.readBeat_divider (s : State) : (s.readBeat).divider = s.divider := rfl
@[simp] theorem State.readBeat_mode (s : State) : (s.readBeat).mode = s.mode := rfl
@[simp] theorem State.readBeat_pen (s : State) : (s.readBeat).pen = s.pen := rfl
@[simp] theorem State.readBeat_timcmp (s : State) : (s.readBeat).timcmp = s.timcmp := rfl
@[simp] theorem State.readBeat_bank (s : State) : (s.readBeat).bank = s.bank := rfl
@[simp] theorem State.readBeat_beatsLeft (s : State) : (s.readBeat).beatsLeft = 0 := rfl
@[simp] theorem State.readBeat_beatIdx (s : State) : (s.readBeat).beatIdx = s.beatIdx := rfl
@[simp] theorem State.readBeat_sdone (s : State) : (s.readBeat).sdone = true := rfl
@[simp] theorem State.readBeat_tsf (s : State) : (s.readBeat).tsf = true := rfl
@[simp] theorem State.readBeat_sien (s : State) : (s.readBeat).sien = s.sien := rfl
@[simp] theorem State.readBeat_tien (s : State) : (s.readBeat).tien = s.tien := rfl
@[simp] theorem State.readBeat_rxdata (s : State) : (s.readBeat).rxdata = s.nextBusIn := rfl
@[simp] theorem State.readBeat_totalBytes (s : State) : (s.readBeat).totalBytes = s.totalBytes := rfl
@[simp] theorem State.readBeat_bytesRemaining (s : State) : (s.readBeat).bytesRemaining = s.bytesRemaining := rfl
@[simp] theorem State.readBeat_burstsRemaining (s : State) : (s.readBeat).burstsRemaining = s.burstsRemaining := rfl
@[simp] theorem State.readBeat_readCursor (s : State) : (s.readBeat).readCursor = s.readCursor := rfl
@[simp] theorem State.readBeat_finalBurstBuffer (s : State) : (s.readBeat).finalBurstBuffer = s.finalBurstBuffer := rfl
@[simp] theorem State.readBeat_done (s : State) : (s.readBeat).done = s.done := rfl
@[simp] theorem State.readBeat_cbSlot (s : State) : (s.readBeat).cbSlot = s.cbSlot := rfl
@[simp] theorem State.readBeat_bufBase (s : State) : (s.readBeat).bufBase = s.bufBase := rfl
@[simp] theorem State.readBeat_fgBusy (s : State) : (s.readBeat).fgBusy = s.fgBusy := rfl
@[simp] theorem State.readBeat_inIrq (s : State) : (s.readBeat).inIrq = s.inIrq := rfl
@[simp] theorem State.readBeat_inCallback (s : State) : (s.readBeat).inCallback = s.inCallback := rfl
@[simp] theorem State.readBeat_trace (s : State) : (s.readBeat).trace = s.trace ++ [.rbeat s.cs s.dc s.rd s.nextBusIn] := rfl
@[simp] theorem State.readBeat_mem (s : State) : (s.readBeat).mem = s.mem := rfl
@[simp] theorem State.readBeat_port (s : State) : (s.readBeat).port = s.port := rfl
@[simp] theorem State.readBeat_held (s : State) : (s.readBeat).held = s.held := rfl
@[simp] theorem State.readBeat_responses (s : State) : (s.readBeat).responses = s.responses := rfl
@[simp] theorem State.readBeat_callbackPort (s : State) : (s.readBeat).callbackPort = s.callbackPort := rfl
@[simp] theorem State.readBeat_hostStores (s : State) : (s.readBeat).hostStores = s.hostStores := rfl
@[simp] theorem State.readBeat_busIn (s : State) : (s.readBeat).busIn = s.busIn.tail := rfl
@[simp] theorem State.readBeat_peripheralSteps (s : State) : (s.readBeat).peripheralSteps = s.peripheralSteps := rfl
@[simp] theorem State.readBeat_interruptSteps (s : State) : (s.readBeat).interruptSteps = s.interruptSteps := rfl
@[simp] theorem State.readBeat_sched (s : State) : (s.readBeat).sched = s.sched := rfl
@[simp] theorem State.readBeat_tick (s : State) : (s.readBeat).tick = s.tick := rfl

/-! ### `State.primeCompare` -/

@[simp] theorem State.primeCompare_params (s : State) (n : Nat) : (s.primeCompare n).params = s.params := rfl
@[simp] theorem State.primeCompare_cs (s : State) (n : Nat) : (s.primeCompare n).cs = s.cs := rfl
@[simp] theorem State.primeCompare_dc (s : State) (n : Nat) : (s.primeCompare n).dc = s.dc := rfl
@[simp] theorem State.primeCompare_rd (s : State) (n : Nat) : (s.primeCompare n).rd = s.rd := rfl
@[simp] theorem State.primeCompare_divider (s : State) (n : Nat) : (s.primeCompare n).divider = s.divider := rfl
@[simp] theorem State.primeCompare_mode (s : State) (n : Nat) : (s.primeCompare n).mode = s.mode := rfl
@[simp] theorem State.primeCompare_pen (s : State) (n : Nat) : (s.primeCompare n).pen = s.pen := rfl
@[simp] theorem State.primeCompare_timcmp (s : State) (n : Nat) : (s.primeCompare n).timcmp = compareValue n s.divider := rfl
@[simp] theorem State.primeCompare_bank (s : State) (n : Nat) : (s.primeCompare n).bank = s.bank := rfl
@[simp] theorem State.primeCompare_beatsLeft (s : State) (n : Nat) : (s.primeCompare n).beatsLeft = s.beatsLeft := rfl
@[simp] theorem State.primeCompare_beatIdx (s : State) (n : Nat) : (s.primeCompare n).beatIdx = s.beatIdx := rfl
@[simp] theorem State.primeCompare_sdone (s : State) (n : Nat) : (s.primeCompare n).sdone = s.sdone := rfl
@[simp] theorem State.primeCompare_tsf (s : State) (n : Nat) : (s.primeCompare n).tsf = s.tsf := rfl
@[simp] theorem State.primeCompare_sien (s : State) (n : Nat) : (s.primeCompare n).sien = s.sien := rfl
@[simp] theorem State.primeCompare_tien (s : State) (n : Nat) : (s.primeCompare n).tien = s.tien := rfl
@[simp] theorem State.primeCompare_rxdata (s : State) (n : Nat) : (s.primeCompare n).rxdata = s.rxdata := rfl
@[simp] theorem State.primeCompare_totalBytes (s : State) (n : Nat) : (s.primeCompare n).totalBytes = s.totalBytes := rfl
@[simp] theorem State.primeCompare_bytesRemaining (s : State) (n : Nat) : (s.primeCompare n).bytesRemaining = s.bytesRemaining := rfl
@[simp] theorem State.primeCompare_burstsRemaining (s : State) (n : Nat) : (s.primeCompare n).burstsRemaining = s.burstsRemaining := rfl
@[simp] theorem State.primeCompare_readCursor (s : State) (n : Nat) : (s.primeCompare n).readCursor = s.readCursor := rfl
@[simp] theorem State.primeCompare_finalBurstBuffer (s : State) (n : Nat) : (s.primeCompare n).finalBurstBuffer = s.finalBurstBuffer := rfl
@[simp] theorem State.primeCompare_done (s : State) (n : Nat) : (s.primeCompare n).done = s.done := rfl
@[simp] theorem State.primeCompare_cbSlot (s : State) (n : Nat) : (s.primeCompare n).cbSlot = s.cbSlot := rfl
@[simp] theorem State.primeCompare_bufBase (s : State) (n : Nat) : (s.primeCompare n).bufBase = s.bufBase := rfl
@[simp] theorem State.primeCompare_fgBusy (s : State) (n : Nat) : (s.primeCompare n).fgBusy = s.fgBusy := rfl
@[simp] theorem State.primeCompare_inIrq (s : State) (n : Nat) : (s.primeCompare n).inIrq = s.inIrq := rfl
@[simp] theorem State.primeCompare_inCallback (s : State) (n : Nat) : (s.primeCompare n).inCallback = s.inCallback := rfl
@[simp] theorem State.primeCompare_trace (s : State) (n : Nat) : (s.primeCompare n).trace = s.trace := rfl
@[simp] theorem State.primeCompare_mem (s : State) (n : Nat) : (s.primeCompare n).mem = s.mem := rfl
@[simp] theorem State.primeCompare_port (s : State) (n : Nat) : (s.primeCompare n).port = s.port := rfl
@[simp] theorem State.primeCompare_held (s : State) (n : Nat) : (s.primeCompare n).held = s.held := rfl
@[simp] theorem State.primeCompare_responses (s : State) (n : Nat) : (s.primeCompare n).responses = s.responses := rfl
@[simp] theorem State.primeCompare_callbackPort (s : State) (n : Nat) : (s.primeCompare n).callbackPort = s.callbackPort := rfl
@[simp] theorem State.primeCompare_hostStores (s : State) (n : Nat) : (s.primeCompare n).hostStores = s.hostStores := rfl
@[simp] theorem State.primeCompare_busIn (s : State) (n : Nat) : (s.primeCompare n).busIn = s.busIn := rfl
@[simp] theorem State.primeCompare_peripheralSteps (s : State) (n : Nat) : (s.primeCompare n).peripheralSteps = s.peripheralSteps := rfl
@[simp] theorem State.primeCompare_interruptSteps (s : State) (n : Nat) : (s.primeCompare n).interruptSteps = s.interruptSteps := rfl
@[simp] theorem State.primeCompare_sched (s : State) (n : Nat) : (s.primeCompare n).sched = s.sched := rfl
@[simp] theorem State.primeCompare_tick (s : State) (n : Nat) : (s.primeCompare n).tick = s.tick := rfl

/-! ### `State.openSession` -/

@[simp] theorem State.openSession_params (s : State) (base total : Nat) : (s.openSession base total).params = s.params := rfl
@[simp] theorem State.openSession_cs (s : State) (base total : Nat) : (s.openSession base total).cs = s.cs := rfl
@[simp] theorem State.openSession_dc (s : State) (base total : Nat) : (s.openSession base total).dc = s.dc := rfl
@[simp] theorem State.openSession_rd (s : State) (base total : Nat) : (s.openSession base total).rd = s.rd := rfl
@[simp] theorem State.openSession_divider (s : State) (base total : Nat) : (s.openSession base total).divider = s.divider := rfl
@[simp] theorem State.openSession_mode (s : State) (base total : Nat) : (s.openSession base total).mode = s.mode := rfl
@[simp] theorem State.openSession_pen (s : State) (base total : Nat) : (s.openSession base total).pen = s.pen := rfl
@[simp] theorem State.openSession_timcmp (s : State) (base total : Nat) : (s.openSession base total).timcmp = s.timcmp := rfl
@[simp] theorem State.openSession_bank (s : State) (base total : Nat) : (s.openSession base total).bank = s.bank := rfl
@[simp] theorem State.openSession_beatsLeft (s : State) (base total : Nat) : (s.openSession base total).beatsLeft = s.beatsLeft := rfl
@[simp] theorem State.openSession_beatIdx (s : State) (base total : Nat) : (s.openSession base total).beatIdx = s.beatIdx := rfl
@[simp] theorem State.openSession_sdone (s : State) (base total : Nat) : (s.openSession base total).sdone = s.sdone := rfl
@[simp] theorem State.openSession_tsf (s : State) (base total : Nat) : (s.openSession base total).tsf = s.tsf := rfl
@[simp] theorem State.openSession_sien (s : State) (base total : Nat) : (s.openSession base total).sien = s.sien := rfl
@[simp] theorem State.openSession_tien (s : State) (base total : Nat) : (s.openSession base total).tien = s.tien := rfl
@[simp] theorem State.openSession_rxdata (s : State) (base total : Nat) : (s.openSession base total).rxdata = s.rxdata := rfl
@[simp] theorem State.openSession_totalBytes (s : State) (base total : Nat) : (s.openSession base total).totalBytes = BitVec.ofNat 32 total := rfl
@[simp] theorem State.openSession_bytesRemaining (s : State) (base total : Nat) : (s.openSession base total).bytesRemaining = BitVec.ofNat 32 total := rfl
@[simp] theorem State.openSession_burstsRemaining (s : State) (base total : Nat) : (s.openSession base total).burstsRemaining = BitVec.ofNat 32 (ceilDiv total s.params.burstBytes) := rfl
@[simp] theorem State.openSession_readCursor (s : State) (base total : Nat) : (s.openSession base total).readCursor = .live 0 := rfl
@[simp] theorem State.openSession_done (s : State) (base total : Nat) : (s.openSession base total).done = false := rfl
@[simp] theorem State.openSession_cbSlot (s : State) (base total : Nat) : (s.openSession base total).cbSlot = s.cbSlot := rfl
@[simp] theorem State.openSession_bufBase (s : State) (base total : Nat) : (s.openSession base total).bufBase = base := rfl
@[simp] theorem State.openSession_fgBusy (s : State) (base total : Nat) : (s.openSession base total).fgBusy = s.fgBusy := rfl
@[simp] theorem State.openSession_inIrq (s : State) (base total : Nat) : (s.openSession base total).inIrq = s.inIrq := rfl
@[simp] theorem State.openSession_inCallback (s : State) (base total : Nat) : (s.openSession base total).inCallback = s.inCallback := rfl
@[simp] theorem State.openSession_trace (s : State) (base total : Nat) : (s.openSession base total).trace = s.trace := rfl
@[simp] theorem State.openSession_mem (s : State) (base total : Nat) : (s.openSession base total).mem = s.mem := rfl
@[simp] theorem State.openSession_port (s : State) (base total : Nat) : (s.openSession base total).port = s.port := rfl
@[simp] theorem State.openSession_held (s : State) (base total : Nat) : (s.openSession base total).held = s.held := rfl
@[simp] theorem State.openSession_responses (s : State) (base total : Nat) : (s.openSession base total).responses = s.responses := rfl
@[simp] theorem State.openSession_callbackPort (s : State) (base total : Nat) : (s.openSession base total).callbackPort = s.callbackPort := rfl
@[simp] theorem State.openSession_hostStores (s : State) (base total : Nat) : (s.openSession base total).hostStores = s.hostStores := rfl
@[simp] theorem State.openSession_busIn (s : State) (base total : Nat) : (s.openSession base total).busIn = s.busIn := rfl
@[simp] theorem State.openSession_peripheralSteps (s : State) (base total : Nat) : (s.openSession base total).peripheralSteps = s.peripheralSteps := rfl
@[simp] theorem State.openSession_interruptSteps (s : State) (base total : Nat) : (s.openSession base total).interruptSteps = s.interruptSteps := rfl
@[simp] theorem State.openSession_sched (s : State) (base total : Nat) : (s.openSession base total).sched = s.sched := rfl
@[simp] theorem State.openSession_tick (s : State) (base total : Nat) : (s.openSession base total).tick = s.tick := rfl

/-! ### `State.lastRefill` -/

@[simp] theorem State.lastRefill_params (s : State) : (s.lastRefill).params = s.params := rfl
@[simp] theorem State.lastRefill_cs (s : State) : (s.lastRefill).cs = s.cs := rfl
@[simp] theorem State.lastRefill_dc (s : State) : (s.lastRefill).dc = s.dc := rfl
@[simp] theorem State.lastRefill_rd (s : State) : (s.lastRefill).rd = s.rd := rfl
@[simp] theorem State.lastRefill_divider (s : State) : (s.lastRefill).divider = s.divider := rfl
@[simp] theorem State.lastRefill_mode (s : State) : (s.lastRefill).mode = s.mode := rfl
@[simp] theorem State.lastRefill_pen (s : State) : (s.lastRefill).pen = s.pen := rfl
@[simp] theorem State.lastRefill_timcmp (s : State) : (s.lastRefill).timcmp = compareValue (s.bytesRemaining.toNat / s.params.bytesPerBeat) s.divider := rfl
@[simp] theorem State.lastRefill_bank (s : State) : (s.lastRefill).bank = loadLanes s.params.shifterBytes s.bank s.finalBurstBuffer := rfl
@[simp] theorem State.lastRefill_beatsLeft (s : State) : (s.lastRefill).beatsLeft = s.beatsLeft := rfl
@[simp] theorem State.lastRefill_beatIdx (s : State) : (s.lastRefill).beatIdx = s.beatIdx := rfl
@[simp] theorem State.lastRefill_sdone (s : State) : (s.lastRefill).sdone = s.sdone := rfl
@[simp] theorem State.lastRefill_tsf (s : State) : (s.lastRefill).tsf = s.tsf := rfl
@[simp] theorem State.lastRefill_sien (s : State) : (s.lastRefill).sien = s.sien := rfl
@[simp] theorem State.lastRefill_tien (s : State) : (s.lastRefill).tien = s.tien := rfl
@[simp] theorem State.lastRefill_rxdata (s : State) : (s.lastRefill).rxdata = s.rxdata := rfl
@[simp] theorem State.lastRefill_totalBytes (s : State) : (s.lastRefill).totalBytes = s.totalBytes := rfl
@[simp] theorem State.lastRefill_bytesRemaining (s : State) : (s.lastRefill).bytesRemaining = 0 := rfl
@[simp] theorem State.lastRefill_burstsRemaining (s : State) : (s.lastRefill).burstsRemaining = s.burstsRemaining := rfl
@[simp] theorem State.lastRefill_readCursor (s : State) : (s.lastRefill).readCursor = .final := rfl
@[simp] theorem State.lastRefill_finalBurstBuffer (s : State) : (s.lastRefill).finalBurstBuffer = s.finalBurstBuffer := rfl
@[simp] theorem State.lastRefill_done (s : State) : (s.lastRefill).done = s.done := rfl
@[simp] theorem State.lastRefill_cbSlot (s : State) : (s.lastRefill).cbSlot = s.cbSlot := rfl
@[simp] theorem State.lastRefill_bufBase (s : State) : (s.lastRefill).bufBase = s.bufBase := rfl
@[simp] theorem State.lastRefill_fgBusy (s : State) : (s.lastRefill).fgBusy = s.fgBusy := rfl
@[simp] theorem State.lastRefill_inIrq (s : State) : (s.lastRefill).inIrq = s.inIrq := rfl
@[simp] theorem State.lastRefill_inCallback (s : State) : (s.lastRefill).inCallback = s.inCallback := rfl
@[simp] theorem State.lastRefill_trace (s : State) : (s.lastRefill).trace = s.trace := rfl
@[simp] theorem State.lastRefill_mem (s : State) : (s.lastRefill).mem = s.mem := rfl
@[simp] theorem State.lastRefill_port (s : State) : (s.lastRefill).port = s.port := rfl
@[simp] theorem State.lastRefill_held (s : State) : (s.lastRefill).held = s.held := rfl
@[simp] theorem State.lastRefill_responses (s : State) : (s.lastRefill).responses = s.responses := rfl
@[simp] theorem State.lastRefill_callbackPort (s : State) : (s.lastRefill).callbackPort = s.callbackPort := rfl
@[simp] theorem State.lastRefill_hostStores (s : State) : (s.lastRefill).hostStores = s.hostStores := rfl
@[simp] theorem State.lastRefill_busIn (s : State) : (s.lastRefill).busIn = s.busIn := rfl
@[simp] theorem State.lastRefill_peripheralSteps (s : State) : (s.lastRefill).peripheralSteps = s.peripheralSteps := rfl
@[simp] theorem State.lastRefill_interruptSteps (s : State) : (s.lastRefill).interruptSteps = s.interruptSteps := rfl
@[simp] theorem State.lastRefill_sched (s : State) : (s.lastRefill).sched = s.sched := rfl
@[simp] theorem State.lastRefill_tick (s : State) : (s.lastRefill).tick = s.tick := rfl

/-! ### `State.ackBurst` -/

@[simp] theorem State.ackBurst_params (s : State) : (s.ackBurst).params = s.params := rfl
@[simp] theorem State.ackBurst_cs (s : State) : (s.ackBurst).cs = s.cs := rfl
@[simp] theorem State.ackBurst_dc (s : State) : (s.ackBurst).dc = s.dc := rfl
@[simp] theorem State.ackBurst_rd (s : State) : (s.ackBurst).rd = s.rd := rfl
@[simp] theorem State.ackBurst_divider (s : State) : (s.ackBurst).divider = s.divider := rfl
@[simp] theorem State.ackBurst_mode (s : State) : (s.ackBurst).mode = s.mode := rfl
@[simp] theorem State.ackBurst_pen (s : State) : (s.ackBurst).pen = s.pen := rfl
@[simp] theorem State.ackBurst_timcmp (s : State) : (s.ackBurst).timcmp = s.timcmp := rfl
@[simp] theorem State.ackBurst_bank (s : State) : (s.ackBurst).bank = s.bank := rfl
@[simp] theorem State.ackBurst_beatsLeft (s : State) : (s.ackBurst).beatsLeft = s.beatsLeft := rfl
@[simp] theorem State.ackBurst_beatIdx (s : State) : (s.ackBurst).beatIdx = s.beatIdx := rfl
@[simp] theorem State.ackBurst_sdone (s : State) : (s.ackBurst).sdone = s.sdone := rfl
@[simp] theorem State.ackBurst_tsf (s : State) : (s.ackBurst).tsf = false := rfl
@[simp] theorem State.ackBurst_sien (s : State) : (s.ackBurst).sien = s.sien := rfl
@[simp] theorem State.ackBurst_tien (s : State) : (s.ackBurst).tien = s.tien := rfl
@[simp] theorem State.ackBurst_rxdata (s : State) : (s.ackBurst).rxdata = s.rxdata := rfl
@[simp] theorem State.ackBurst_totalBytes (s : State) : (s.ackBurst).totalBytes = s.totalBytes := rfl
@[simp] theorem State.ackBurst_bytesRemaining (s : State) : (s.ackBurst).bytesRemaining = s.bytesRemaining := rfl
@[simp] theorem State.ackBurst_burstsRemaining (s : State) : (s.ackBurst).burstsRemaining = s.burstsRemaining - 1 := rfl
@[simp] theorem State.ackBurst_readCursor (s : State) : (s.ackBurst).readCursor = s.readCursor := rfl
@[simp] theorem State.ackBurst_finalBurstBuffer (s : State) : (s.ackBurst).finalBurstBuffer = s.finalBurstBuffer := rfl
@[simp] theorem State.ackBurst_done (s : State) : (s.ackBurst).done = s.done := rfl
@[simp] theorem State.ackBurst_cbSlot (s : State) : (s.ackBurst).cbSlot = s.cbSlot := rfl
@[simp] theorem State.ackBurst_bufBase (s : State) : (s.ackBurst).bufBase = s.bufBase := rfl
@[simp] theorem State.ackBurst_fgBusy (s : State) : (s.ackBurst).fgBusy = s.fgBusy := rfl
@[simp] theorem State.ackBurst_inIrq (s : State) : (s.ackBurst).inIrq = s.inIrq := rfl
@[simp] theorem State.ackBurst_inCallback (s : State) : (s.ackBurst).inCallback = s.inCallback := rfl
@[simp] theorem State.ackBurst_trace (s : State) : (s.ackBurst).trace = s.trace := rfl
@[simp] theorem State.ackBurst_mem (s : State) : (s.ackBurst).mem = s.mem := rfl
@[simp] theorem State.ackBurst_port (s : State) : (s.ackBurst).port = s.port := rfl
@[simp] theorem State.ackBurst_held (s : State) : (s.ackBurst).held = s.held := rfl
@[simp] theorem State.ackBurst_responses (s : State) : (s.ackBurst).responses = s.responses := rfl
@[simp] theorem State.ackBurst_callbackPort (s : State) : (s.ackBurst).callbackPort = s.callbackPort := rfl
@[simp] theorem State.ackBurst_hostStores (s : State) : (s.ackBurst).hostStores = s.hostStores := rfl
@[simp] theorem State.ackBurst_busIn (s : State) : (s.ackBurst).busIn = s.busIn := rfl
@[simp] theorem State.ackBurst_peripheralSteps (s : State) : (s.ackBurst).peripheralSteps = s.peripheralSteps := rfl
@[simp] theorem State.ackBurst_interruptSteps (s : State) : (s.ackBurst).interruptSteps = s.interruptSteps := rfl
@[simp] theorem State.ackBurst_sched (s : State) : (s.ackBurst).sched = s.sched := rfl
@[simp] theorem State.ackBurst_tick (s : State) : (s.ackBurst).tick = s.tick := rfl

/-! ### `State.closeSession` -/

@[simp] theorem State.closeSession_params (s : State) : (s.closeSession).params = s.params := rfl
@[simp] theorem State.closeSession_cs (s : State) : (s.closeSession).cs = .high := rfl
@[simp] theorem State.closeSession_dc (s : State) : (s.closeSession).dc = s.dc := rfl
@[simp] theorem State.closeSession_rd (s : State) : (s.closeSession).rd = s.rd := rfl
@[simp] theorem State.closeSession_divider (s : State) : (s.closeSession).divider = s.divider := rfl
@[simp] theorem State.closeSession_mode (s : State) : (s.closeSession).mode = s.mode := rfl
@[simp] theorem State.closeSession_pen (s : State) : (s.closeSession).pen = s.pen := rfl
@[simp] theorem State.closeSession_timcmp (s : State) : (s.closeSession).timcmp = s.timcmp := rfl
@[simp] theorem State.closeSession_bank (s : State) : (s.closeSession).bank = s.bank := rfl
@[simp] theorem State.closeSession_beatsLeft (s : State) : (s.closeSession).beatsLeft = s.beatsLeft := rfl
@[simp] theorem State.closeSession_beatIdx (s : State) : (s.closeSession).beatIdx = s.beatIdx := rfl
@[simp] theorem State.closeSession_sdone (s : State) : (s.closeSession).sdone = s.sdone := rfl
@[simp] theorem State.closeSession_tsf (s : State) : (s.closeSession).tsf = s.tsf := rfl
@[simp] theorem State.closeSession_sien (s : State) : (s.closeSession).sien = s.sien := rfl
@[simp] theorem State.closeSession_tien (s : State) : (s.closeSession).tien = false := rfl
@[simp] theorem State.closeSession_rxdata (s : State) : (s.closeSession).rxdata = s.rxdata := rfl
@[simp] theorem State.closeSession_totalBytes (s : State) : (s.closeSession).totalBytes = s.totalBytes := rfl
@[simp] theorem State.closeSession_bytesRemaining (s : State) : (s.closeSession).bytesRemaining = s.bytesRemaining := rfl
@[simp] theorem State.closeSession_burstsRemaining (s : State) : (s.closeSession).burstsRemaining = s.burstsRemaining := rfl
@[simp] theorem State.closeSession_readCursor (s : State) : (s.closeSession).readCursor = s.readCursor := rfl
@[simp] theorem State.closeSession_finalBurstBuffer (s : State) : (s.closeSession).finalBurstBuffer = s.finalBurstBuffer := rfl
@[simp] theorem State.closeSession_done (s : State) : (s.closeSession).done = true := rfl
@[simp] theorem State.closeSession_cbSlot (s : State) : (s.closeSession).cbSlot = s.cbSlot := rfl
@[simp] theorem State.closeSession_bufBase (s : State) : (s.closeSession).bufBase = s.bufBase := rfl
@[simp] theorem State.closeSession_fgBusy (s : State) : (s.closeSession).fgBusy = s.fgBusy := rfl
@[simp] theorem State.closeSession_inIrq (s : State) : (s.closeSession).inIrq = s.inIrq := rfl
@[simp] theorem State.closeSession_inCallback (s : State) : (s.closeSession).inCallback = s.inCallback := rfl
@[simp] theorem State.closeSession_trace (s : State) : (s.closeSession).trace = s.trace ++ [.drive .cs .high] := rfl
@[simp] theorem State.closeSession_mem (s : State) : (s.closeSession).mem = s.mem := rfl
@[simp] theorem State.closeSession_port (s : State) : (s.closeSession).port = s.port := rfl
@[simp] theorem State.closeSession_held (s : State) : (s.closeSession).held = s.held := rfl
@[simp] theorem State.closeSession_responses (s : State) : (s.closeSession).responses = s.responses := rfl
@[simp] theorem State.closeSession_callbackPort (s : State) : (s.closeSession).callbackPort = s.callbackPort := rfl
@[simp] theorem State.closeSession_hostStores (s : State) : (s.closeSession).hostStores = s.hostStores := rfl
@[simp] theorem State.closeSession_busIn (s : State) : (s.closeSession).busIn = s.busIn := rfl
@[simp] theorem State.closeSession_peripheralSteps (s : State) : (s.closeSession).peripheralSteps = s.peripheralSteps := rfl
@[simp] theorem State.closeSession_interruptSteps (s : State) : (s.closeSession).interruptSteps = s.interruptSteps := rfl
@[simp] theorem State.closeSession_sched (s : State) : (s.closeSession).sched = s.sched := rfl
@[simp] theorem State.closeSession_tick (s : State) : (s.closeSession).tick = s.tick := rfl

/-! ### `State.afterChoice` -/

@[simp] theorem State.afterChoice_params (s : State) : (s.afterChoice).params = s.params := by unfold State.afterChoice; split <;> rfl
@[simp] theorem State.afterChoice_cs (s : State) : (s.afterChoice).cs = s.cs := by unfold State.afterChoice; split <;> rfl
@[simp] theorem State.afterChoice_dc (s : State) : (s.afterChoice).dc = s.dc := by unfold State.afterChoice; split <;> rfl
@[simp] theorem State.afterChoice_rd (s : State) : (s.afterChoice).rd = s.rd := by unfold State.afterChoice; split <;> rfl
@[simp] theorem State.afterChoice_divider (s : State) : (s.afterChoice).divider = s.divider := by unfold State.afterChoice; split <;> rfl
@[simp] theorem State.afterChoice_mode (s : State) : (s.afterChoice).mode = s.mode := by unfold State.afterChoice; split <;> rfl
@[simp] theorem State.afterChoice_pen (s : State) : (s.afterChoice).pen = s.pen := by unfold State.afterChoice; split <;> rfl
@[simp] theorem State.afterChoice_timcmp (s : State) : (s.afterChoice).timcmp = s.timcmp := by unfold State.afterChoice; split <;> rfl
@[simp] theorem State.afterChoice_bank (s : State) : (s.afterChoice).bank = s.bank := by unfold State.afterChoice; split <;> rfl
@[simp] theorem State.afterChoice_beatsLeft (s : State) : (s.afterChoice).beatsLeft = s.beatsLeft := by unfold State.afterChoice; split <;> rfl
@[simp] theorem State.afterChoice_beatIdx (s : State) : (s.afterChoice).beatIdx = s.beatIdx := by unfold State.afterChoice; split <;> rfl
@[simp] theorem State.afterChoice_sdone (s : State) : (s.afterChoice).sdone = s.sdone := by unfold State.afterChoice; split <;> rfl
@[simp] theorem State.afterChoice_tsf (s : State) : (s.afterChoice).tsf = s.tsf := by unfold State.afterChoice; split <;> rfl
@[simp] theorem State.afterChoice_sien (s : State) : (s.afterChoice).sien = s.sien := by unfold State.afterChoice; split <;> rfl
@[simp] theorem State.afterChoice_tien (s : State) : (s.afterChoice).tien = s.tien := by unfold State.afterChoice; split <;> rfl
@[simp] theorem State.afterChoice_rxdata (s : State) : (s.afterChoice).rxdata = s.rxdata := by unfold State.afterChoice; split <;> rfl
@[simp] theorem State.afterChoice_totalBytes (s : State) : (s.afterChoice).totalBytes = s.totalBytes := by unfold State.afterChoice; split <;> rfl
@[simp] theorem State.afterChoice_bytesRemaining (s : State) : (s.afterChoice).bytesRemaining = s.bytesRemaining := by unfold State.afterChoice; split <;> rfl
@[simp] theorem State.afterChoice_burstsRemaining (s : State) : (s.afterChoice).burstsRemaining = s.burstsRemaining := by unfold State.afterChoice; split <;> rfl
@[simp] theorem State.afterChoice_readCursor (s : State) : (s.afterChoice).readCursor = s.readCursor := by unfold State.afterChoice; split <;> rfl
@[simp] theorem State.afterChoice_finalBurstBuffer (s : State) : (s.afterChoice).finalBurstBuffer = s.finalBurstBuffer := by unfold State.afterChoice; split <;> rfl
@[simp] theorem State.afterChoice_done (s : State) : (s.afterChoice).done = s.done := by unfold State.afterChoice; split <;> rfl
@[simp] theorem State.afterChoice_cbSlot (s : State) : (s.afterChoice).cbSlot = s.cbSlot := by unfold State.afterChoice; split <;> rfl
@[simp] theorem State.afterChoice_bufBase (s : State) : (s.afterChoice).bufBase = s.bufBase := by unfold State.afterChoice; split <;> rfl
@[simp] theorem State.afterChoice_fgBusy (s : State) : (s.afterChoice).fgBusy = s.fgBusy := by unfold State.afterChoice; split <;> rfl
@[simp] theorem State.afterChoice_inIrq (s : State) : (s.afterChoice).inIrq = s.inIrq := by unfold State.afterChoice; split <;> rfl
@[simp] theorem State.afterChoice_inCallback (s : State) : (s.afterChoice).inCallback = s.inCallback := by unfold State.afterChoice; split <;> rfl
@[simp] theorem State.afterChoice_trace (s : State) : (s.afterChoice).trace = s.trace := by unfold State.afterChoice; split <;> rfl
@[simp] theorem State.afterChoice_mem (s : State) : (s.afterChoice).mem = s.mem := by unfold State.afterChoice; split <;> rfl
@[simp] theorem State.afterChoice_port (s : State) : (s.afterChoice).port = s.port := by unfold State.afterChoice; split <;> rfl
@[simp] theorem State.afterChoice_held (s : State) : (s.afterChoice).held = s.held := by unfold State.afterChoice; split <;> rfl
@[simp] theorem State.afterChoice_responses (s : State) : (s.afterChoice).responses = s.responses := by unfold State.afterChoice; split <;> rfl
@[simp] theorem State.afterChoice_callbackPort (s : State) : (s.afterChoice).callbackPort = s.callbackPort := by unfold State.afterChoice; split <;> rfl
@[simp] theorem State.afterChoice_hostStores (s : State) : (s.afterChoice).hostStores = s.hostStores := by unfold State.afterChoice; split <;> rfl
@[simp] theorem State.afterChoice_busIn (s : State) : (s.afterChoice).busIn = s.busIn := by unfold State.afterChoice; split <;> rfl
@[simp] theorem State.afterChoice_peripheralSteps (s : State) : (s.afterChoice).peripheralSteps = s.peripheralSteps := by unfold State.afterChoice; split <;> rfl
@[simp] theorem State.afterChoice_interruptSteps (s : State) : (s.afterChoice).interruptSteps = s.interruptSteps := by unfold State.afterChoice; split <;> rfl

/-! ### The pins -/

@[simp] theorem State.setPin_pin (s : State) (l k : Line) (v : Level) :
    (s.setPin l v).pin k = if k = l then v else s.pin k := by cases l <;> cases k <;> rfl
@[simp] theorem State.drive_pin (s : State) (l k : Line) (v : Level) :
    (s.drive l v).pin k = if k = l then v else s.pin k := by cases l <;> cases k <;> rfl
@[simp] theorem State.drive_cs_cs (s : State) (v : Level) : (s.drive .cs v).cs = v := rfl
@[simp] theorem State.drive_cs_dc (s : State) (v : Level) : (s.drive .cs v).dc = s.dc := rfl
@[simp] theorem State.drive_cs_rd (s : State) (v : Level) : (s.drive .cs v).rd = s.rd := rfl
@[simp] theorem State.drive_dc_cs (s : State) (v : Level) : (s.drive .dc v).cs = s.cs := rfl
@[simp] theorem State.drive_dc_dc (s : State) (v : Level) : (s.drive .dc v).dc = v := rfl
@[simp] theorem State.drive_dc_rd (s : State) (v : Level) : (s.drive .dc v).rd = s.rd := rfl
@[simp] theorem State.drive_rd_cs (s : State) (v : Level) : (s.drive .rd v).cs = s.cs := rfl
@[simp] theorem State.drive_rd_dc (s : State) (v : Level) : (s.drive .rd v).dc = s.dc := rfl
@[simp] theorem State.drive_rd_rd (s : State) (v : Level) : (s.drive .rd v).rd = v := rfl

/-! ### The fields that depend on a case -/

@[simp] theorem State.configure_write_timcmp (s : State) :
    (s.configure .singleBeatWrite).timcmp = compareValue 1 s.divider := rfl
@[simp] theorem State.configure_read_timcmp (s : State) :
    (s.configure .singleBeatRead).timcmp = compareValue 1 s.divider := rfl
@[simp] theorem State.configure_burst_timcmp (s : State) :
    (s.configure .multiBeatBurst).timcmp = compareValue s.params.burstBeats s.divider := rfl
@[simp] theorem State.writeBeat_sdone (s : State) :
    s.writeBeat.sdone = (decide (s.beatsLeft = 1) || s.sdone) := by
  unfold State.writeBeat; split <;> simp_all [State.setDoneFlags]
@[simp] theorem State.writeBeat_tsf (s : State) : s.writeBeat.tsf = (decide (s.beatsLeft = 1) || s.tsf) := by
  unfold State.writeBeat; split <;> simp_all [State.setDoneFlags]
@[simp] theorem State.openSession_finalBurstBuffer (s : State) (base total : Nat) :
    (s.openSession base total).finalBurstBuffer =
      if total % s.params.burstBytes = 0 then s.finalBurstBuffer
      else s.memBytes (base + (total - total % s.params.burstBytes)) (total % s.params.burstBytes) ++
        List.replicate (s.params.burstBytes - total % s.params.burstBytes) 0 := rfl

/-! ### The reset -/

@[simp] theorem State.resetWith_done (p : Params) : (State.resetWith p).done = true := rfl
@[simp] theorem State.resetWith_params (p : Params) : (State.resetWith p).params = p := rfl
@[simp] theorem State.resetWith_mem (p : Params) : (State.resetWith p).mem = [] := rfl
@[simp] theorem State.resetWith_trace (p : Params) : (State.resetWith p).trace = [] := rfl

end Sys2Proof.Machine
end

