-- ==== Sys2Proof/Laws/Ops.lean ====
section
/-! SUPPORT. For each shared operation, everything it can do, said once. -/

namespace Sys2Proof.Machine

/-! ### Outcomes -/

@[simp] theorem andThen_next (s : State) (f : State → Result) : andThen (.next s) f = f s := rfl
@[simp] theorem andThen_fault (e : Fault) (f : State → Result) : andThen (.fault e) f = .fault e := rfl
@[simp] theorem andThen_refused (e : Refusal) (f : State → Result) : andThen (.refused e) f = .refused e := rfl

/-- A chain answers next only through a next state of its first part. -/
theorem andThen_eq_next {r : Result} {f : State → Result} {t : State} (h : andThen r f = .next t) :
    ∃ u, r = .next u ∧ f u = .next t := by
  cases r with
  | next u => exact ⟨u, rfl, h⟩
  | fault e => cases h
  | refused e => cases h

/-! ### Admission -/

/-- All that the admission of a transfer operation can do. -/
theorem admitTransfer_eq_next {i : Instr} {s t : State} {run : State → Result}
    (h : admitTransfer i s run = .next t) :
    s.inCallback = false ∧ s.divider ≠ 0 ∧
      ((s.done = true ∧ run s = .next t) ∨ (s.done = false ∧ t = s.hold (.onDone i))) := by
  unfold admitTransfer at h
  split at h
  · cases h
  · split at h
    · cases h
    · split at h
      · exact ⟨by simp_all, by assumption, .inl ⟨by assumption, h⟩⟩
      · exact ⟨by simp_all, by assumption, .inr ⟨by simp_all, by cases h; rfl⟩⟩

/-- All that the admission of a strobe operation, INIT or CONFIG can do. -/
theorem admitControl_eq_next {reason : Refusal} {s t : State} {run : State → Result}
    (h : admitControl reason s run = .next t) : s.inCallback = false ∧ s.done = true ∧ run s = .next t := by
  unfold admitControl at h
  split at h
  · cases h
  · split at h
    · exact ⟨by simp_all, by assumption, h⟩
    · cases h

theorem admitTransfer_run {i : Instr} {s : State} {run : State → Result} (hc : s.inCallback = false)
    (hd : s.divider ≠ 0) (h : s.done = true) : admitTransfer i s run = run s := by
  rw [admitTransfer, hc, if_neg (by decide), if_neg hd, if_pos h]

theorem admitTransfer_hold {i : Instr} {s : State} {run : State → Result} (hc : s.inCallback = false)
    (hd : s.divider ≠ 0) (h : s.done = false) : admitTransfer i s run = .next (s.hold (.onDone i)) := by
  rw [admitTransfer, hc, if_neg (by decide), if_neg hd, h, if_neg (by decide)]

theorem admitControl_run {reason : Refusal} {s : State} {run : State → Result} (hc : s.inCallback = false)
    (h : s.done = true) : admitControl reason s run = run s := by
  simp [admitControl, hc, h]

/-! ### Steps an agent still takes -/

theorem takesSteps_one (k : Option Nat) : takesSteps k 1 = true ↔ k ≠ some 0 := by
  cases k with
  | none => simp [takesSteps]
  | some n => simp [takesSteps]; omega

/-- One step of the supply used, one fewer is left. -/
theorem takesSteps_spend (k : Option Nat) (n : Nat) (h : takesSteps k 1 = true) :
    takesSteps (k.map (· - 1)) n = takesSteps k (n + 1) := by
  cases k with
  | none => rfl
  | some m =>
    simp only [takesSteps, Option.map_some, decide_eq_true_eq] at h ⊢
    congr 1
    exact propext (by omega)

theorem takesSteps_mono {k : Option Nat} {m n : Nat} (hmn : m ≤ n) (h : takesSteps k n = true) :
    takesSteps k m = true := by
  cases k with
  | none => rfl
  | some j => simp only [takesSteps, decide_eq_true_eq] at h ⊢; omega

@[simp] theorem State.peripheralLive_iff (s : State) : s.peripheralLive = true ↔ s.peripheralSteps ≠ some 0 :=
  takesSteps_one _

@[simp] theorem State.interruptLive_iff (s : State) : s.interruptLive = true ↔ s.interruptSteps ≠ some 0 :=
  takesSteps_one _

@[simp] theorem State.spendPeripheral_canBankLoad (s : State) : s.spendPeripheral.canBankLoad = s.canBankLoad := rfl
@[simp] theorem State.spendPeripheral_canWriteBeat (s : State) : s.spendPeripheral.canWriteBeat = s.canWriteBeat := rfl
@[simp] theorem State.spendPeripheral_canReadBeat (s : State) : s.spendPeripheral.canReadBeat = s.canReadBeat := rfl
@[simp] theorem State.spendInterrupt_sePending (s : State) : s.spendInterrupt.sePending = s.sePending := rfl
@[simp] theorem State.spendInterrupt_tcPending (s : State) : s.spendInterrupt.tcPending = s.tcPending := rfl

/-- All that the peripheral's enabled step can do: nothing, or the one rule whose guard holds, by a peripheral that is not
stuck. -/
theorem State.peripheralStep_cases (s : State) :
    s.peripheralStep = s ∨
    (s.peripheralSteps ≠ some 0 ∧ s.canBankLoad = true ∧ s.peripheralStep = s.spendPeripheral.bankLoad) ∨
    (s.peripheralSteps ≠ some 0 ∧ s.canWriteBeat = true ∧ s.peripheralStep = s.spendPeripheral.writeBeat) ∨
    (s.peripheralSteps ≠ some 0 ∧ s.canReadBeat = true ∧ s.peripheralStep = s.spendPeripheral.readBeat) := by
  unfold State.peripheralStep
  split
  · rename_i hl
    have hl' := s.peripheralLive_iff.1 hl
    split
    · exact .inr (.inl ⟨hl', by assumption, rfl⟩)
    · split
      · exact .inr (.inr (.inl ⟨hl', by assumption, rfl⟩))
      · split
        · exact .inr (.inr (.inr ⟨hl', by assumption, rfl⟩))
        · exact .inl rfl
  · exact .inl rfl

/-- A stuck peripheral takes no step. -/
theorem State.peripheralStep_stuck {s : State} (h : s.peripheralSteps = some 0) : s.peripheralStep = s := by
  unfold State.peripheralStep
  rw [if_neg (by simp [h])]

/-! ### Contexts -/

/-- All that a handler can do: its body from the interrupt context, then the return. -/
theorem handle_eq_next {body : State → Result} {s t : State} (h : handle body s = .next t) :
    ∃ u, body s.enterIrq = .next u ∧ t = u.leaveIrq := by
  obtain ⟨u, hu, ht⟩ := andThen_eq_next h
  exact ⟨u, hu, by cases ht; rfl⟩

/-- All that calling the callback can do: nothing, or the one event. -/
theorem runCallback_eq_next {s t : State} (h : runCallback s = .next t) :
    t = { s with trace := s.trace ++ (if s.cbSlot then [.callback] else []), inCallback := false } ∧
      (s.cbSlot = true → decode s.params.addrWidth s.callbackPort = .error .incomplete) := by
  unfold runCallback at h
  split at h
  · rename_i hcb
    split at h
    · cases h
    · cases h
    · rename_i hd
      cases h
      exact ⟨by simp [hcb, State.emit], fun _ => hd⟩
  · rename_i hcb
    cases h
    exact ⟨by simp [hcb], fun h => absurd h hcb⟩

/-- The callback never faults. -/
theorem runCallback_noFault (s : State) (e : Fault) : runCallback s ≠ .fault e := by
  unfold runCallback
  split
  · split <;> simp
  · simp

/-! ### The shifter bank -/

@[simp] theorem loadLanes_length (n : Nat) (ls : List Lane) (d : List Byte) :
    (loadLanes n ls d).length = ls.length := by
  induction ls generalizing d with
  | nil => rfl
  | cons l ls ih => simp [loadLanes, ih]

/-- Lane `i` of a loaded bank holds bytes `i * n` to `i * n + n - 1`, is not ready, and keeps its shifter (43_burst.md R194). -/
theorem loadLanes_getElem? (n : Nat) (ls : List Lane) (d : List Byte) (i : Nat) :
    (loadLanes n ls d)[i]? =
      ls[i]?.map (fun l => { l with buf := (d.drop (i * n)).take n, rdy := false }) := by
  induction ls generalizing d i with
  | nil => simp [loadLanes]
  | cons l ls ih =>
    cases i with
    | zero => simp [loadLanes]
    | succ i =>
      simp only [loadLanes, List.getElem?_cons_succ, ih, List.drop_drop]
      rw [Nat.succ_mul, Nat.add_comm (i * n) n]

/-- Every lane of a loaded bank is taken. -/
theorem loadLanes_rdy {n : Nat} {ls : List Lane} {d : List Byte} {l : Lane} (h : l ∈ loadLanes n ls d) :
    l.rdy = false := by
  induction ls generalizing d with
  | nil => cases h
  | cons k ls ih =>
    rcases List.mem_cons.1 h with rfl | h
    · rfl
    · exact ih h

/-- A bank load in MultiBeatBurst mode moves every lane. -/
theorem State.bankLoad_burst_bank {s : State} (hm : s.mode = .multiBeatBurst)
    (hb : s.bank.length = s.params.shifters) : s.bankLoad.bank = s.bank.map Lane.shiftIn := by
  simp [State.activeLanes, hm, ← hb]

/-- A bank load in SingleBeatWrite mode moves lane 0 only. -/
theorem State.bankLoad_single_bank {s : State} {l : Lane} {ls : List Lane} (hm : s.mode = .singleBeatWrite)
    (hb : s.bank = l :: ls) : s.bankLoad.bank = l.shiftIn :: ls := by
  simp [State.activeLanes, hm, hb]

/-! ### Compare values (30_encoding.md R95) -/

/-- The high field of a concatenation. -/
theorem append_high {n m : Nat} (a : BitVec n) (b : BitVec m) : (a ++ b).extractLsb' m n = a := by
  apply BitVec.eq_of_getLsbD_eq
  intro i hi
  simp [BitVec.getLsbD_append, hi]

/-- The low field of a concatenation. -/
theorem append_low {n m : Nat} (a : BitVec n) (b : BitVec m) : (a ++ b).extractLsb' 0 m = b := by
  apply BitVec.eq_of_getLsbD_eq
  intro i hi
  simp [BitVec.getLsbD_append, hi]

@[simp] theorem compareValue_high (n : Nat) (d : BitVec 8) :
    (compareValue n d).extractLsb' 8 8 = BitVec.ofNat 8 (n * 2 - 1) := append_high _ _

@[simp] theorem compareValue_low (n : Nat) (d : BitVec 8) :
    (compareValue n d).extractLsb' 0 8 = BitVec.ofNat 8 (d.toNat / 2 - 1) := append_low _ _

/-- The beat count latched from a compare value is the one it was made from. -/
theorem beatsOfCompare_compareValue {n : Nat} (h1 : 1 ≤ n) (h2 : n ≤ 128) (d : BitVec 8) :
    beatsOfCompare (compareValue n d) = BitVec.ofNat 8 n := by
  unfold beatsOfCompare
  rw [compareValue_high, BitVec.toNat_ofNat]
  congr 1
  omega

end Sys2Proof.Machine

namespace Sys2Proof

/-! ### Parameters -/

theorem Params.wf_iff (p : Params) :
    p.wf = true ↔ 1 ≤ p.shifters ∧ 1 ≤ p.beatsPerShifter ∧ p.burstBeats ≤ 128 ∧ 1 ≤ p.bytesPerElement ∧
      p.bytesPerElement % p.bytesPerBeat = 0 := by
  simp [Params.wf, and_assoc]

theorem Params.bytesPerBeat_pos (p : Params) : 0 < p.bytesPerBeat := by
  unfold Params.bytesPerBeat; split <;> decide

theorem Params.burstBytes_pos {p : Params} (h : p.wf = true) : 0 < p.burstBytes := by
  obtain ⟨h1, h2, -⟩ := (Params.wf_iff p).1 h
  exact Nat.mul_pos (Nat.mul_pos h1 h2) p.bytesPerBeat_pos

/-- `BURST_BYTES = N * SHIFTER_BYTES`. -/
theorem Params.burstBytes_eq (p : Params) : p.burstBytes = p.shifters * p.shifterBytes := by
  simp [Params.burstBytes, Params.burstBeats, Params.shifterBytes, Nat.mul_assoc]

end Sys2Proof
end

