-- ==== Sys2Proof/Laws/Agents.lean ====
section
/-! SUPPORT. Which moves a state enables, and everything one step can do, said once. -/

namespace Sys2Proof.Machine

@[simp] theorem mem_enabled (s : State) (m : Move) : m ∈ s.enabled ↔ s.canMove m = true := by
  cases m <;> simp [State.enabled, allMoves]

/-- Using a schedule choice enables and disables no move. -/
@[simp] theorem afterChoice_canMove (s : State) (m : Move) : s.afterChoice.canMove m = s.canMove m := by
  unfold State.afterChoice
  split <;> cases m <;> rfl

/-- Everything a step can answer as next state: none enabled and nothing changed, or an enabled move, taken from the
state itself when it is the only one, else from the state whose schedule choice is used. -/
theorem step_eq_next {s t : State} (h : step s = .next t) :
    s.params.wf = true ∧
      ((s.enabled = [] ∧ t = s) ∨
        ∃ m u, s.canMove m = true ∧ (u = s ∨ u = s.afterChoice) ∧ perform m u = .next t) := by
  unfold step at h
  split at h
  · refine ⟨by assumption, ?_⟩
    unfold stepAgents at h
    split at h
    · exact .inl ⟨by assumption, by cases h; rfl⟩
    · rename_i m he
      exact .inr ⟨m, s, by rw [← mem_enabled, he]; simp, .inl rfl, h⟩
    · rename_i m ms _ he
      refine .inr ⟨_, s.afterChoice, ?_, .inr rfl, h⟩
      rw [← mem_enabled, he, List.getD_eq_getElem _ _ (Nat.mod_lt _ (by simp))]
      exact List.getElem_mem _
  · cases h

/-- Everything a step can fault with: the fault of an enabled move. -/
theorem step_eq_fault {s : State} {e : Fault} (h : step s = .fault e) :
    ∃ m u, s.canMove m = true ∧ (u = s ∨ u = s.afterChoice) ∧ perform m u = .fault e := by
  unfold step at h
  split at h
  · unfold stepAgents at h
    split at h
    · cases h
    · rename_i m he
      exact ⟨m, s, by rw [← mem_enabled, he]; simp, .inl rfl, h⟩
    · rename_i m ms _ he
      refine ⟨_, s.afterChoice, ?_, .inr rfl, h⟩
      rw [← mem_enabled, he, List.getD_eq_getElem _ _ (Nat.mod_lt _ (by simp))]
      exact List.getElem_mem _
  · cases h

end Sys2Proof.Machine
end

