-- ==== Sys2Proof/Laws/Burst.lean ====
section
/-! SUPPORT. Everything the interrupt handlers and the start of a burst can do, said once. -/

namespace Sys2Proof.Machine

/-- All that a full refill can answer. -/
theorem fullRefill_eq_next {s t : State} (h : fullRefill s = .next t) :
    ∃ o, s.readCursor = .live o ∧ s.bufBase + o + s.params.burstBytes ≤ 2 ^ s.params.addrWidth ∧
      t = { s with
        bytesRemaining := s.bytesRemaining - BitVec.ofNat 32 s.params.burstBytes
        readCursor := .live (o + s.params.burstBytes)
        bank := loadLanes s.params.shifterBytes s.bank (s.memBytes (s.bufBase + o) s.params.burstBytes) } := by
  unfold fullRefill at h
  split at h
  · cases h
  · rename_i o ho
    split at h
    · cases h
    · rename_i data hdata
      obtain ⟨hfit, rfl⟩ := State.memRead_eq_some hdata
      cases h
      exact ⟨o, ho, hfit, rfl⟩

/-- All that the shifter-empty handler can answer: the source disabled, the last refill, a full refill. -/
theorem shifterEmptyHandler_eq_next {s t : State} (h : shifterEmptyHandler s = .next t) :
    (s.bytesRemaining = 0 ∧ t = { s with sien := false, inIrq := false }) ∨
    (s.bytesRemaining ≠ 0 ∧ s.bytesRemaining.toNat < s.params.burstBytes ∧
      t = { s with
        timcmp := compareValue (s.bytesRemaining.toNat / s.params.bytesPerBeat) s.divider
        readCursor := .final
        bytesRemaining := 0
        bank := loadLanes s.params.shifterBytes s.bank s.finalBurstBuffer
        inIrq := false }) ∨
    (s.params.burstBytes ≤ s.bytesRemaining.toNat ∧ ∃ o, s.readCursor = .live o ∧
      s.bufBase + o + s.params.burstBytes ≤ 2 ^ s.params.addrWidth ∧
      t = { s with
        bytesRemaining := s.bytesRemaining - BitVec.ofNat 32 s.params.burstBytes
        readCursor := .live (o + s.params.burstBytes)
        bank := loadLanes s.params.shifterBytes s.bank (s.memBytes (s.bufBase + o) s.params.burstBytes)
        inIrq := false }) := by
  obtain ⟨u, hu, rfl⟩ := handle_eq_next h
  unfold shifterEmptyBody at hu
  split at hu
  · cases hu; exact .inl ⟨by assumption, rfl⟩
  · split at hu
    · cases hu; exact .inr (.inl ⟨by assumption, by assumption, rfl⟩)
    · rename_i hge
      obtain ⟨o, ho, hfit, rfl⟩ := fullRefill_eq_next hu
      exact .inr (.inr ⟨Nat.not_lt.1 hge, o, ho, hfit, rfl⟩)

/-- All that the burst-complete handler can answer: one burst counted, or the session ended and the callback called. -/
theorem burstCompleteHandler_eq_next {s t : State} (h : burstCompleteHandler s = .next t) :
    s.burstsRemaining ≠ 0 ∧
    ((s.burstsRemaining ≠ 1 ∧
        t = { s with tsf := false, burstsRemaining := s.burstsRemaining - 1, inIrq := false }) ∨
      (s.burstsRemaining = 1 ∧ (s.cbSlot = true → decode s.params.addrWidth s.callbackPort = .error .incomplete) ∧
        t = { s with
          tsf := false
          burstsRemaining := 0
          tien := false
          done := true
          cs := .high
          trace := s.trace ++ [.drive .cs .high] ++ (if s.cbSlot then [.callback] else [])
          inIrq := false
          inCallback := false })) := by
  obtain ⟨u, hu, rfl⟩ := handle_eq_next h
  unfold burstCompleteBody at hu
  split at hu
  · cases hu
  · rename_i h0
    simp only [State.enterIrq_burstsRemaining] at h0
    refine ⟨h0, ?_⟩
    split at hu
    · rename_i h1
      simp only [State.ackBurst_burstsRemaining, State.enterIrq_burstsRemaining] at h1
      have h1' : s.burstsRemaining = 1 := by bv_omega
      obtain ⟨rfl, hp⟩ := runCallback_eq_next hu
      refine .inr ⟨h1', hp, ?_⟩
      simp only [State.leaveIrq, State.closeSession, State.ackBurst, State.enterIrq, State.drive, State.setPin,
        State.emit, h1']
      rfl
    · rename_i h1
      simp only [State.ackBurst_burstsRemaining, State.enterIrq_burstsRemaining] at h1
      cases hu
      exact .inl ⟨by intro h2; exact h1 (by rw [h2]; rfl), rfl⟩

/-- All that BURST can answer once admitted: the callback alone for an empty buffer, else the session opened and armed. -/
theorem startBurst_eq_next {cb : Bool} {base : Nat} {count : BitVec 32} {s t : State}
    (h : startBurst cb base count s = .next t) :
    burstLength s.params count < 2 ^ 32 ∧ base + burstLength s.params count ≤ 2 ^ s.params.addrWidth ∧
    ((count = 0 ∧ (cb = true → decode s.params.addrWidth s.callbackPort = .error .incomplete) ∧
        t = { s with
          cbSlot := cb
          trace := s.trace ++ (if cb then [.callback] else [])
          inCallback := false
          responses := s.responses ++ [.ack]
          fgBusy := false
          held := none }) ∨
      (count ≠ 0 ∧
        t = ((((((({ s with cbSlot := cb } : State).configure .multiBeatBurst).openSession base
          (burstLength s.params count)).drive .cs .low).drive .dc .high).primeCompare
            s.params.burstBeats).armInterrupts).ret .ack)) := by
  unfold startBurst at h
  simp only at h
  split at h
  · cases h
  · split at h
    · cases h
    · rename_i h1 h2
      refine ⟨Nat.not_le.1 h1, Nat.not_lt.1 h2, ?_⟩
      split at h
      · obtain ⟨u, hu, ht⟩ := andThen_eq_next h
        obtain ⟨rfl, hp⟩ := runCallback_eq_next hu
        cases ht
        exact .inl ⟨by assumption, hp, rfl⟩
      · cases h
        exact .inr ⟨by assumption, rfl⟩

end Sys2Proof.Machine
end

