-- ==== Sys2Proof/Laws/PerInstr.lean ====
section
/-! SUPPORT. A property of every operation as syntax, proved constructor by constructor: its encoding has as many words as
its first word tells (30_encoding.md R82). -/

namespace Sys2Proof.Laws

/-- The encoding has the length that its first word tells. -/
def EncodeLength.Statement (i : Instr) : Prop :=
  ∃ w ws, encode i = BitVec.toNat (w : Word) :: ws ∧ (encode i).length = opWords w

theorem opField_firstWord (op : BitVec 8) (low : BitVec 24) : opField (firstWord op low) = op :=
  Machine.append_high _ _

theorem opWords_firstWord (op : BitVec 8) (low : BitVec 24) :
    opWords (firstWord op low) = if op = 0x30#8 then 3 else 1 := by
  simp [opWords, opField_firstWord]

theorem EncodeLength.selchip : EncodeLength.Statement .selchip := ⟨_, _, rfl, by rw [opWords_firstWord]; rfl⟩
theorem EncodeLength.deselchip : EncodeLength.Statement .deselchip := ⟨_, _, rfl, by rw [opWords_firstWord]; rfl⟩
theorem EncodeLength.selcmd : EncodeLength.Statement .selcmd := ⟨_, _, rfl, by rw [opWords_firstWord]; rfl⟩
theorem EncodeLength.seldata : EncodeLength.Statement .seldata := ⟨_, _, rfl, by rw [opWords_firstWord]; rfl⟩
theorem EncodeLength.rdlow : EncodeLength.Statement .rdlow := ⟨_, _, rfl, by rw [opWords_firstWord]; rfl⟩
theorem EncodeLength.rdhigh : EncodeLength.Statement .rdhigh := ⟨_, _, rfl, by rw [opWords_firstWord]; rfl⟩
theorem EncodeLength.init (sel : BitVec 8) : EncodeLength.Statement (.init sel) :=
  ⟨_, _, rfl, by rw [opWords_firstWord]; rfl⟩
theorem EncodeLength.config (mode : Mode) : EncodeLength.Statement (.config mode) :=
  ⟨_, _, rfl, by rw [opWords_firstWord]; rfl⟩
theorem EncodeLength.wrcmd (b : Byte) : EncodeLength.Statement (.wrcmd b) :=
  ⟨_, _, rfl, by rw [opWords_firstWord]; rfl⟩
theorem EncodeLength.wrdata (b : Byte) : EncodeLength.Statement (.wrdata b) :=
  ⟨_, _, rfl, by rw [opWords_firstWord]; rfl⟩
theorem EncodeLength.wrdata16 (w : BitVec 16) : EncodeLength.Statement (.wrdata16 w) :=
  ⟨_, _, rfl, by rw [opWords_firstWord]; rfl⟩
theorem EncodeLength.rddata : EncodeLength.Statement .rddata := ⟨_, _, rfl, by rw [opWords_firstWord]; rfl⟩
theorem EncodeLength.rdstatus : EncodeLength.Statement .rdstatus := ⟨_, _, rfl, by rw [opWords_firstWord]; rfl⟩
theorem EncodeLength.burst (cb : Bool) (base : Nat) (count : BitVec 32) : EncodeLength.Statement (.burst cb base count) :=
  ⟨_, _, rfl, by rw [opWords_firstWord]; rfl⟩

end Sys2Proof.Laws
end

