-- ==== Sys2Proof/Laws/Sync.lean ====
section
/-! SUPPORT. What one beat of a synchronous primitive does, said once: to a peripheral that serves it, and to one that is
stuck. -/

namespace Sys2Proof.Machine

/-- A beat that fits the bus leaves lane 0 as the value it was given (42_sync.md R151, 41_config.md R142). -/
theorem beatOfBytes_beatBytes {p : Params} {v : Beat} (h : fitBus p v = v) : beatOfBytes p (beatBytes p v) 0 = v := by
  unfold beatOfBytes beatBytes
  unfold fitBus at h
  cases hb : p.busWidth
  · rw [hb] at h
    conv => rhs; rw [← h]
    apply BitVec.eq_of_getLsbD_eq
    intro i hi
    simp [byteBeat]
  · show (v.extractLsb' 8 8 ++ v.extractLsb' 0 8 : BitVec 16) = v
    apply BitVec.eq_of_getLsbD_eq
    intro i hi
    rw [show (v.extractLsb' 8 8 ++ v.extractLsb' 0 8 : BitVec 16).getLsbD i = _ from BitVec.getLsbD_append]
    split
    · simp_all
    · simp only [BitVec.getLsbD_extractLsb']
      rw [show 8 + (i - 8) = i by omega, decide_eq_true (by omega), Bool.true_and]

/-- A byte fits either bus. -/
theorem fitBus_byteBeat (p : Params) (b : Byte) : fitBus p (byteBeat b) = byteBeat b := by
  unfold fitBus byteBeat
  split
  · apply BitVec.eq_of_getLsbD_eq
    intro i hi
    simp
  · rfl

/-- The bank after a reset has a lane 0. -/
theorem replicate_cleared {p : Params} (h : p.wf = true) :
    List.replicate p.shifters (Lane.cleared p) =
      Lane.cleared p :: List.replicate (p.shifters - 1) (Lane.cleared p) := by
  obtain ⟨h1, -⟩ := (Params.wf_iff p).1 h
  obtain ⟨n, hn⟩ : ∃ n, p.shifters = n + 1 := ⟨p.shifters - 1, by omega⟩
  rw [hn]
  rfl

/-- One write beat of an engine configured for single-beat writes, its holds lifted: the beat on the bus, lane 0 as sent,
the flags clear. -/
theorem State.oneWriteBeat_eq {s : State} {l : Lane} {ls : List Lane} {v : Beat} (hm : s.mode = .singleBeatWrite)
    (hb : s.bank = l :: ls) (ht : s.timcmp = compareValue 1 s.divider) (hv : fitBus s.params v = v) :
    s.oneWriteBeat v = { s with
      bank := Lane.sent s.params v :: ls
      beatsLeft := 0
      beatIdx := 1
      sdone := false
      tsf := false
      trace := s.trace ++ [.wbeat s.cs s.dc s.rd v] } := by
  have hbl : beatsOfCompare s.timcmp = 1 := by
    rw [ht, beatsOfCompare_compareValue (by omega) (by omega)]
    rfl
  have hw : s.writeShiftBuf0 (beatBytes s.params v) =
      { s with bank := { l with buf := beatBytes s.params v, rdy := false } :: ls } := by
    unfold State.writeShiftBuf0
    rw [hb]
  unfold State.oneWriteBeat
  rw [hw]
  simp [State.bankLoad, State.activeLanes, hm, hbl, State.writeBeat, State.setDoneFlags, State.clearDoneFlags,
    State.wbeat, State.emit, Lane.shiftIn, Lane.sent, State.beatValue, beatOfBytes_beatBytes hv]

/-- The state in which a write primitive sends its next beat: single-beat writes, nothing in flight, the bank free, nothing
armed, no flag set (42_sync.md R151). -/
structure State.BeatReady (s : State) : Prop where
  mode : s.mode = .singleBeatWrite
  pen : s.pen = true
  timcmp : s.timcmp = compareValue 1 s.divider
  beatsLeft : s.beatsLeft = 0
  sdone : s.sdone = false
  tsf : s.tsf = false
  sien : s.sien = false
  tien : s.tien = false
  first : ∃ l ls, s.bank = l :: ls ∧ l.rdy = true

/-- A primitive is ready to send once it has configured the engine and driven its select lines. -/
theorem State.select_beatReady {s : State} (h : s.params.wf = true) (dc : Level) :
    ((s.configure .singleBeatWrite).select dc).BeatReady := by
  constructor <;> simp [State.select]
  exact ⟨_, ⟨_, replicate_cleared h⟩, rfl⟩

/-- What the buffer write of a beat does (42_sync.md R151). -/
theorem State.writeShiftBuf0_cons {s : State} {l : Lane} {ls : List Lane} (b : List Byte) (hb : s.bank = l :: ls) :
    s.writeShiftBuf0 b = { s with bank := { l with buf := b, rdy := false } :: ls } := by
  unfold State.writeShiftBuf0
  rw [hb]

/-- After the buffer write the bank load is enabled, and no other step of the peripheral. -/
theorem State.BeatReady.written {s : State} (h : s.BeatReady) (b : List Byte) :
    (s.writeShiftBuf0 b).canBankLoad = true ∧ (s.writeShiftBuf0 b).canWriteBeat = false ∧
      (s.writeShiftBuf0 b).canReadBeat = false := by
  obtain ⟨l, ls, hb, hr⟩ := h.first
  rw [State.writeShiftBuf0_cons b hb]
  refine ⟨?_, ?_, ?_⟩
  · simp [State.canBankLoad, h.pen, h.mode, Mode.transmits, h.beatsLeft, State.activeLanes]
  · simp [State.canWriteBeat, h.beatsLeft]
  · simp [State.canReadBeat, h.mode]

/-- After the bank load one beat is in flight and the write beat is enabled, and no other step of the peripheral. -/
theorem State.BeatReady.loaded {s : State} (h : s.BeatReady) (b : List Byte) :
    (s.writeShiftBuf0 b).bankLoad.beatsLeft = 1 ∧ (s.writeShiftBuf0 b).bankLoad.canWriteBeat = true ∧
      (s.writeShiftBuf0 b).bankLoad.canBankLoad = false ∧ (s.writeShiftBuf0 b).bankLoad.canReadBeat = false := by
  have h1 : (s.writeShiftBuf0 b).bankLoad.beatsLeft = 1 := by
    rw [State.bankLoad_beatsLeft, State.writeShiftBuf0_timcmp, h.timcmp,
      beatsOfCompare_compareValue (by omega) (by omega)]
    rfl
  refine ⟨h1, ?_, ?_, ?_⟩
  · simp only [State.canWriteBeat, h1]
    simp [h.pen, h.mode, Mode.transmits, State.preempted, State.sePending, State.tcPending]
  · simp only [State.canBankLoad, h1]
    simp
  · simp [State.canReadBeat, h.mode]

/-- The two steps of a peripheral that takes them: the bank load, then the write beat. -/
theorem State.BeatReady.served {s : State} (h : s.BeatReady) (b : List Byte)
    (ht : takesSteps s.peripheralSteps 2 = true) :
    (s.writeShiftBuf0 b).peripheralStep.peripheralStep =
      { (s.writeShiftBuf0 b).bankLoad.writeBeat with peripheralSteps := s.peripheralSteps.map (· - 2) } := by
  have hl1 : takesSteps s.peripheralSteps 1 = true := takesSteps_mono (by omega) ht
  have hl2 := takesSteps_spend s.peripheralSteps 1 hl1
  rw [ht] at hl2
  obtain ⟨l, ls, hb, -⟩ := h.first
  have e1 : (s.writeShiftBuf0 b).peripheralStep = (s.writeShiftBuf0 b).spendPeripheral.bankLoad := by
    unfold State.peripheralStep
    rw [if_pos (by simpa using (takesSteps_one _).1 hl1), if_pos (h.written b).1]
  have e2 : (s.writeShiftBuf0 b).spendPeripheral.bankLoad.peripheralStep =
      (s.writeShiftBuf0 b).spendPeripheral.bankLoad.spendPeripheral.writeBeat := by
    unfold State.peripheralStep
    rw [if_pos (by simpa using (takesSteps_one _).1 hl2),
      if_neg (by have := (h.loaded b).2.2.1; exact ne_true_of_eq_false this),
      if_pos (show (s.writeShiftBuf0 b).spendPeripheral.bankLoad.canWriteBeat = true from (h.loaded b).2.1)]
  rw [e1, e2]
  have hp : (s.peripheralSteps.map (· - 1)).map (· - 1) = s.peripheralSteps.map (· - 2) := by
    cases s.peripheralSteps <;> rfl
  rw [State.writeShiftBuf0_cons b hb, ← hp]
  unfold State.writeBeat
  split <;> split <;> first | rfl | (rename_i h1 h2; exact absurd h1 h2) | (rename_i h1 h2; exact absurd h2 h1)

/-- The flags of a beat are set by its write beat. -/
theorem State.BeatReady.flags {s : State} (h : s.BeatReady) (b : List Byte) :
    (s.writeShiftBuf0 b).bankLoad.writeBeat.sdone = true ∧ (s.writeShiftBuf0 b).bankLoad.writeBeat.tsf = true := by
  simp only [State.writeBeat_sdone, State.writeBeat_tsf, (h.loaded b).1]
  exact ⟨rfl, rfl⟩

/-- A beat leaves the engine ready for the next one. -/
theorem State.BeatReady.next {s : State} (h : s.BeatReady) (v : Beat) : (s.oneWriteBeat v).BeatReady := by
  have hl := (h.loaded (beatBytes s.params v)).1
  obtain ⟨l, ls, hb, -⟩ := h.first
  have hw := State.writeShiftBuf0_cons (beatBytes s.params v) hb
  constructor
  all_goals try simp [State.oneWriteBeat, h.mode, h.pen, h.timcmp, h.sien, h.tien]
  · rw [State.bankLoad_beatsLeft, State.writeShiftBuf0_timcmp] at hl
    rw [h.timcmp] at hl
    rw [hl]
    rfl
  · rw [hw]
    exact ⟨({ l with buf := beatBytes s.params v, rdy := false } : Lane).shiftIn,
      ⟨ls, by simp [State.activeLanes, h.mode]⟩, rfl⟩

/-- Sending a beat to a peripheral that takes its two steps: the beat of R151, then the rest. -/
theorem State.BeatReady.send {s : State} (h : s.BeatReady) (v : Beat) (vs : List Beat)
    (ht : takesSteps s.peripheralSteps 2 = true) :
    State.sendBeats (v :: vs) s =
      State.sendBeats vs { s.oneWriteBeat v with peripheralSteps := s.peripheralSteps.map (· - 2) } := by
  have hr : s.firstReady = true := by
    obtain ⟨l, ls, hb, hr⟩ := h.first
    simp [State.firstReady, hb, hr]
  have hf := h.flags (beatBytes s.params v)
  show (if s.firstReady then _ else _) = _
  rw [if_pos hr, h.served _ ht]
  have hd : (s.writeShiftBuf0 (beatBytes s.params v)).bankLoad.writeBeat.doneFlags = true := by
    rw [State.doneFlags, hf.1, hf.2]
    rfl
  exact if_pos hd

/-- All that sending a beat to any peripheral can do: the whole beat, or the hold on its flags with the bank load taken or
not, by a peripheral that is then stuck. -/
theorem State.BeatReady.send_cases {s : State} (h : s.BeatReady) (v : Beat) (vs : List Beat) :
    (takesSteps s.peripheralSteps 2 = true ∧ State.sendBeats (v :: vs) s =
      State.sendBeats vs { s.oneWriteBeat v with peripheralSteps := s.peripheralSteps.map (· - 2) }) ∨
    (s.peripheralSteps = some 0 ∧ State.sendBeats (v :: vs) s =
      (s.writeShiftBuf0 (beatBytes s.params v)).hold (.onWriteFlags vs)) ∨
    (s.peripheralSteps = some 1 ∧ State.sendBeats (v :: vs) s =
      { (s.writeShiftBuf0 (beatBytes s.params v)).bankLoad.hold (.onWriteFlags vs) with
        peripheralSteps := some 0 }) := by
  have hr : s.firstReady = true := by
    obtain ⟨l, ls, hb, hr⟩ := h.first
    simp [State.firstReady, hb, hr]
  by_cases ht : takesSteps s.peripheralSteps 2 = true
  · exact .inl ⟨ht, h.send v vs ht⟩
  · have hk : s.peripheralSteps = some 0 ∨ s.peripheralSteps = some 1 := by
      cases hp : s.peripheralSteps with
      | none => simp [hp, takesSteps] at ht
      | some k => simp only [hp, takesSteps, decide_eq_true_eq] at ht; simp only [Option.some.injEq]; omega
    have hsend : State.sendBeats (v :: vs) s =
        let t := (s.writeShiftBuf0 (beatBytes s.params v)).peripheralStep.peripheralStep
        if t.doneFlags then State.sendBeats vs t.clearDoneFlags else t.hold (.onWriteFlags vs) := by
      show (if s.firstReady then _ else _) = _
      rw [if_pos hr]
    rcases hk with hk | hk
    · refine .inr (.inl ⟨hk, ?_⟩)
      have hk' : (s.writeShiftBuf0 (beatBytes s.params v)).peripheralSteps = some 0 := by simpa using hk
      rw [hsend, State.peripheralStep_stuck hk', State.peripheralStep_stuck hk']
      simp only
      rw [if_neg (by simp [State.doneFlags, h.sdone])]
    · refine .inr (.inr ⟨hk, ?_⟩)
      have e1 : (s.writeShiftBuf0 (beatBytes s.params v)).peripheralStep =
          (s.writeShiftBuf0 (beatBytes s.params v)).spendPeripheral.bankLoad := by
        unfold State.peripheralStep
        rw [if_pos (by simp [hk]), if_pos (h.written _).1]
      rw [hsend, e1, State.peripheralStep_stuck (by simp [hk])]
      simp only
      rw [if_neg (by simp [State.doneFlags, h.sdone])]
      obtain ⟨l, ls, hb, -⟩ := h.first
      rw [State.writeShiftBuf0_cons _ hb]
      simp [State.hold, State.bankLoad, State.spendPeripheral, hk, State.activeLanes]

/-- What every rule of the peripheral keeps, its enabled step keeps. -/
theorem State.peripheralStep_keeps {P : State → Prop} (load : ∀ s, P s → P s.spendPeripheral.bankLoad)
    (write : ∀ s, P s → P s.spendPeripheral.writeBeat) (read : ∀ s, P s → P s.spendPeripheral.readBeat) {s : State}
    (h : P s) : P s.peripheralStep := by
  rcases s.peripheralStep_cases with e | ⟨-, -, e⟩ | ⟨-, -, e⟩ | ⟨-, -, e⟩ <;> rw [e]
  exacts [h, load s h, write s h, read s h]

/-- What the actions of a write primitive keep holds after it, where it returns and where it holds. -/
theorem State.sendBeats_keeps {P Q : State → Prop} (write : ∀ s b, P s → P (s.writeShiftBuf0 b))
    (serve : ∀ s, P s → P s.peripheralStep) (clear : ∀ s, P s → P s.clearDoneFlags)
    (finish : ∀ s, P s → Q s.finishWrite) (onReady : ∀ s vs, P s → Q (s.hold (.onReady vs)))
    (onFlags : ∀ s vs, P s → Q (s.hold (.onWriteFlags vs))) (bs : List Beat) {s : State} (h : P s) :
    Q (State.sendBeats bs s) := by
  induction bs generalizing s with
  | nil => exact finish s h
  | cons v vs ih =>
    have h2 := serve _ (serve _ (write s (beatBytes s.params v) h))
    show Q (if s.firstReady then _ else _)
    split
    · show Q (if State.doneFlags _ then _ else _)
      split
      · exact ih (clear _ h2)
      · exact onFlags _ _ h2
    · exact onReady _ _ h

/-- What the actions of a read primitive keep holds after it, where it returns and where it holds. -/
theorem State.sampleBeat_keeps {P Q : State → Prop} (start : ∀ s, P s → P s.startRead)
    (serve : ∀ s, P s → P s.peripheralStep) (clear : ∀ s, P s → P s.clearDoneFlags)
    (finish : ∀ s, P s → Q s.finishRead) (onFlags : ∀ s, P s → Q (s.hold .onReadFlags)) {s : State} (h : P s) :
    Q s.sampleBeat := by
  have h2 := serve _ (start s h)
  show Q (if State.doneFlags _ then _ else _)
  split
  · exact finish _ (clear _ h2)
  · exact onFlags _ h2

/-- A read beat by a peripheral that takes it: the sample on the bus and in `RXDATA`, write mode restored. -/
theorem State.sampleBeat_served {s : State} (hp : s.pen = true) (hm : s.mode = .singleBeatRead)
    (ht : s.timcmp = compareValue 1 s.divider) (hk : takesSteps s.peripheralSteps 1 = true) :
    s.sampleBeat = State.finishRead { s.startRead.readBeat.clearDoneFlags with
      peripheralSteps := s.peripheralSteps.map (· - 1) } := by
  have hbl : s.startRead.beatsLeft = 1 := by
    rw [State.startRead_beatsLeft, ht, beatsOfCompare_compareValue (by omega) (by omega)]
    rfl
  have hb : s.startRead.canBankLoad = false := by simp [State.canBankLoad, hm, Mode.transmits]
  have hw : s.startRead.canWriteBeat = false := by simp [State.canWriteBeat, hm, Mode.transmits]
  have hr : s.startRead.canReadBeat = true := by
    simp only [State.canReadBeat, hbl]
    simp [hp, hm]
  unfold State.sampleBeat State.peripheralStep
  rw [if_pos (show s.startRead.peripheralLive = true from hk), if_neg (ne_true_of_eq_false hb),
    if_neg (ne_true_of_eq_false hw), if_pos hr]
  rfl

/-- A read beat by a stuck peripheral: the hold on its flags. -/
theorem State.sampleBeat_stuck {s : State} (hs : s.sdone = false) (hk : s.peripheralSteps = some 0) :
    s.sampleBeat = s.startRead.hold .onReadFlags := by
  unfold State.sampleBeat
  rw [State.peripheralStep_stuck (by simpa using hk)]
  simp only
  rw [if_neg (by simp [State.doneFlags, hs])]

end Sys2Proof.Machine
end

