-- ==== Sys2Proof/Tests/Slice0.lean ====
section
/-! SUPPORT. Tests: ill-formed terms, words written out from 30_encoding.md R81 and R83, vectors of 95_test_vectors.md,
and for every statement with hypotheses a witness that meets them. -/

namespace Sys2Proof.Tests

open Sys2Proof Sys2Proof.Machine

/-! ### Helpers -/

/-- The next state of an outcome, or the state given. -/
def after (d : State) (r : Result) : State :=
  match r with
  | .next s => s
  | .fault _ => d
  | .refused _ => d

/-- The refusal of an outcome. -/
def refusal (r : Result) : Option Refusal :=
  match r with
  | .refused e => some e
  | .next _ => none
  | .fault _ => none

/-- Whether the next state of an outcome has no session. -/
def doneOf (r : Result) : Option Bool :=
  match r with
  | .next s => some s.done
  | .fault _ => none
  | .refused _ => none

/-- The operation a list of words decodes to. -/
def decoded (ws : List PortWord) : Option Instr :=
  match decode 32 ws with
  | .ok (i, _) => some i
  | .error _ => none

/-- Whether a list of words begins with a reserved encoding. -/
def isReserved (ws : List PortWord) : Bool :=
  match decode 32 ws with
  | .error .reservedEncoding => true
  | .error .incomplete => false
  | .ok _ => false

/-- CFG-A after `INIT 12` (divider 20). -/
def ready : State := { State.reset with divider := 20 }

/-- CFG-B after `INIT 12`. -/
def readyB : State := { State.resetWith Params.cfgB with divider := 20 }

/-- `ready` with a stuck peripheral (U2). -/
def stuck : State := { ready with peripheralSteps := some 0 }

/-- CFG-A with addresses of 40 bits, after `INIT 12`. -/
def wide : State := { State.resetWith ⟨.w8, 4, 2, 1, 40⟩ with divider := 20 }

/-- One shifter of one beat on an 8-bit bus. -/
def tiny : Params := ⟨.w8, 1, 1, 1, 32⟩

/-- `tiny` after `INIT 12`, with the byte 0xA0 at 0x1000. -/
def readyTiny : State := { State.resetWith tiny with divider := 20, mem := [(0x1000, 0xA0)] }

/-- A session of one byte over `tiny`, opened by BURST. -/
def sessionTiny : State := after readyTiny (exec (.burst true 0x1000 1) readyTiny)

/-- CFG-A with the 9 bytes of V7 at 0x20001000. -/
def ready9 : State :=
  { ready with mem := (List.range 9).map (fun k => (0x20001000 + k, BitVec.ofNat 8 (0xA0 + k))) }

/-- A session of 9 bytes in CFG-A, opened by BURST. -/
def session9 : State := after ready9 (exec (.burst true 0x20001000 9) ready9)

/-! ### WellFormed: the ill-formed term, and a well-formed neighbour -/

theorem test_config_idle_ill_formed : (Instr.config .idle).wf 32 = false := by decide
theorem test_config_burst_well_formed : (Instr.config .multiBeatBurst).wf 32 = true := by decide
theorem test_burst_base_ill_formed : (Instr.burst false (2 ^ 32) 1).wf 32 = false ∧
    (Instr.burst false (2 ^ 32) 1).wf 8 = false ∧ (Instr.burst false (2 ^ 40) 1).wf 40 = false := by decide
theorem test_burst_base_well_formed : (Instr.burst false (2 ^ 32 - 1) 1).wf 32 = true ∧
    (Instr.burst false (2 ^ 40 - 1) 1).wf 40 = true := by decide
theorem test_params_ill_formed : (⟨.w8, 0, 1, 1, 32⟩ : Params).wf = false ∧ (⟨.w8, 1, 0, 1, 32⟩ : Params).wf = false ∧
    (⟨.w8, 43, 3, 1, 32⟩ : Params).wf = false ∧ (⟨.w8, 1, 1, 0, 32⟩ : Params).wf = false ∧
    (⟨.w16, 1, 1, 3, 32⟩ : Params).wf = false := by decide
theorem test_params_well_formed : Params.cfgA.wf = true ∧ Params.cfgB.wf = true ∧ tiny.wf = true ∧
    (⟨.w16, 64, 2, 2, 32⟩ : Params).wf = true := by decide

/-! ### Decoding: a word for every constructor (OP in bits 31 to 24, R81; operation numbers of R83) -/

theorem test_decode_selchip : decoded [0b00000001_00000000_00000000_00000000] = some .selchip := by decide
theorem test_decode_deselchip : decoded [0b00000010_00000000_00000000_00000000] = some .deselchip := by decide
theorem test_decode_selcmd : decoded [0b00000011_00000000_00000000_00000000] = some .selcmd := by decide
theorem test_decode_seldata : decoded [0b00000100_00000000_00000000_00000000] = some .seldata := by decide
theorem test_decode_rdlow : decoded [0b00000101_00000000_00000000_00000000] = some .rdlow := by decide
theorem test_decode_rdhigh : decoded [0b00000110_00000000_00000000_00000000] = some .rdhigh := by decide
theorem test_decode_init : decoded [0b00010000_00000000_00000000_00001100] = some (.init 12) := by decide
theorem test_decode_config_write :
    decoded [0b00010001_00000000_00000000_00000001] = some (.config .singleBeatWrite) := by decide
theorem test_decode_config_read :
    decoded [0b00010001_00000000_00000000_00000010] = some (.config .singleBeatRead) := by decide
theorem test_decode_config_burst :
    decoded [0b00010001_00000000_00000000_00000011] = some (.config .multiBeatBurst) := by decide
theorem test_decode_wrcmd : decoded [0b00100000_00000000_00000000_10010011] = some (.wrcmd 0x93) := by decide
theorem test_decode_wrdata : decoded [0b00100001_00000000_00000000_00110100] = some (.wrdata 0x34) := by decide
theorem test_decode_wrdata16 : decoded [0b00100010_00000000_10101011_11001101] = some (.wrdata16 0xABCD) := by decide
theorem test_decode_rddata : decoded [0b00100011_00000000_00000000_00000000] = some .rddata := by decide
theorem test_decode_rdstatus : decoded [0b00100100_00000000_00000000_00000000] = some .rdstatus := by decide
theorem test_decode_burst :
    decoded [0b00110000_00000000_00000000_00000001, 0x20001000, 20] = some (.burst true 0x20001000 20) := by
  decide

/-- V9: the reserved encodings. -/
theorem test_reserved : ([[0x00000000], [0x07000000], [0x12000000], [0x25000000], [0xFF000000],
    [0x01000001], [0x01010000], [0x10000100], [0x22010000], [0x11000000], [0x11000004],
    [0x30000002, 0, 1]].all isReserved) = true := by decide

/-- `W1` widened to 40 bits, and its lines beyond bit 39 not read (R86, log 2). -/
theorem test_decode_wide : decode 40 [0x30000000, 0xFF00000010, 7] = .ok (.burst false 0xFF00000010 7, []) ∧
    decode 40 [0x30000000, 0x1FF00000010, 7] = .ok (.burst false 0xFF00000010 7, []) := ⟨rfl, rfl⟩

/-- The rest of the words stays (R82). -/
theorem test_decode_rest :
    decode 32 [0x30000000, 1, 2, 0x23000000] = .ok (.burst false 1 2, [0x23000000]) := by rfl

/-- The host's numbering: the first word is bits 31 to 0, the second bits 63 to 32. -/
theorem test_decodeTableWord : decodeTableWord 32 0x2200ABCD = some (.wrdata16 0xABCD) ∧
    decodeTableWord 96 (0x30000001 + 5 * 2 ^ 32 + 7 * 2 ^ 64) = some (.burst true 5 7) ∧
    decodeTableWord 32 0x30000001 = some (.burst true 0 0) ∧ decodeTableWord 32 0x11000000 = none := by decide

/-- From reset, the word placed at the command port is the next thing that runs (V1 row 1). -/
theorem test_withFetchWord :
    (after State.reset (step (State.reset.withFetchWord 32 0x01000000))).trace = [.drive .cs .low] := by decide

/-- BURST takes its three words, and is refused before INIT (V7, last line). -/
theorem test_burst_from_reset : refusal (step (State.reset.withFetchWord 32 0x30000001)) = some .dividerZero := by decide

/-! ### One step each (95_test_vectors.md) -/

/-- V1 row 4. -/
theorem test_rdlow : (after ready (exec .rdlow ready)).rd = .low := by decide

/-- V2: selector 20 gives 12, 10 is no selector. -/
theorem test_init : (after ready (exec (.init 20) ready)).divider = 12 ∧
    (after ready (exec (.init 10) ready)).divider = 20 := by decide

/-- V3: CFG-A and CFG-B. -/
theorem test_config : (after ready (exec (.config .multiBeatBurst) ready)).timcmp = 0x0F09 ∧
    (after readyB (exec (.config .multiBeatBurst) readyB)).timcmp = 0x0709 := by decide

/-- V3: other beat counts. -/
theorem test_compareValue : compareValue 1 20 = 0x0109 ∧ compareValue 5 20 = 0x0909 ∧ compareValue 128 20 = 0xFF09 := by
  decide

/-- V4 row 1. -/
theorem test_wrcmd : (after ready (exec (.wrcmd 0x12) ready)).trace =
    [.drive .cs .low, .drive .dc .low, .wbeat .low .low .high 0x12, .drive .cs .high] := by decide

/-- V4: the byte zero-extended on a 16-bit bus. -/
theorem test_wrdata_16 : (after readyB (exec (.wrdata 0x34) readyB)).trace =
    [.drive .cs .low, .drive .dc .high, .wbeat .low .high .high 0x0034, .drive .cs .high] := by decide

/-- V4: high byte first on an 8-bit bus. -/
theorem test_wrdata16_8 : (after ready (exec (.wrdata16 0xABCD) ready)).trace =
    [.drive .cs .low, .drive .dc .high, .wbeat .low .high .high 0xAB, .wbeat .low .high .high 0xCD,
      .drive .cs .high] := by decide

/-- V4: one beat on a 16-bit bus. -/
theorem test_wrdata16_16 : (after readyB (exec (.wrdata16 0xABCD) readyB)).trace =
    [.drive .cs .low, .drive .dc .high, .wbeat .low .high .high 0xABCD, .drive .cs .high] := by decide

/-- V5 row 1. -/
theorem test_rddata : (after ready (exec .rddata { ready with busIn := [0x5A] })).responses = [.byte 0x5A] := by decide

/-- V5 row 4: the low byte of a 16-bit sample, DC low. -/
theorem test_rdstatus : (after ready (exec .rdstatus { readyB with busIn := [0xFF80] })).trace =
    [.drive .cs .low, .drive .dc .low, .drive .rd .low, .rbeat .low .low .low 0xFF80, .drive .rd .high,
      .drive .cs .high] := by decide

/-- V7, T = 9: the tail in the scratch buffer. -/
theorem test_burst_tail : session9.finalBurstBuffer = [0xA8, 0, 0, 0, 0, 0, 0, 0] ∧ session9.burstsRemaining = 2 := by
  decide

/-- V7, T = 1: the short compare value. -/
theorem test_short_refill :
    (after session9 (shifterEmptyHandler { session9 with bytesRemaining := 1 })).timcmp = 0x0109 := by decide

/-- V7: the refusals of BURST, and the buffer that ends at the top. -/
theorem test_burst_refusals :
    refusal (exec (.burst false 0 0x80000000) readyB) = some .lengthOverflow ∧
    refusal (exec (.burst false 0xFFFFFFF0 17) ready) = some .bufferWraps ∧
    refusal (exec (.burst false 0xFFFFFFF0 16) ready) = none := by decide

/-- A buffer above 2^32 where addresses have 40 bits: accepted to the top, refused beyond it (R63, R86). -/
theorem test_burst_wide :
    (after wide (exec (.burst false 0xFFFFFFFFF0 16) wide)).bufBase = 0xFFFFFFFFF0 ∧
    refusal (exec (.burst false 0xFFFFFFFFF0 17) wide) = some .bufferWraps := by decide

/-- A stuck peripheral: the primitive holds with the beat in the buffer, and answers nothing (R161, U2). -/
theorem test_stuck : (after ready (exec (.wrcmd 0x12) stuck)).held = some (.onWriteFlags []) ∧
    (after ready (exec (.wrcmd 0x12) stuck)).responses = [] ∧
    (after ready (exec .rdstatus stuck)).held = some .onReadFlags := by decide

/-- A peripheral stuck after three steps: the first byte of WRDATA16 on the bus, the second in the shifter (R151, R161). -/
theorem test_stuck_second_beat :
    (after ready (exec (.wrdata16 0xABCD) { ready with peripheralSteps := some 3 })).trace =
      [.drive .cs .low, .drive .dc .high, .wbeat .low .high .high 0xAB] ∧
    (after ready (exec (.wrdata16 0xABCD) { ready with peripheralSteps := some 3 })).beatsLeft = 1 := by decide

/-- Lower address on `D[7:0]` (R64, D16). -/
theorem test_beat_lanes : beatOfBytes Params.cfgB [0x10, 0x11, 0x12, 0x13] 1 = 0x1312 := by decide

/-- A write keeps the canonical form, and writing 0 removes the entry. -/
theorem test_memory : Memory.write (Memory.write [] 5 7) 3 9 = [(3, 9), (5, 7)] ∧
    Memory.write [(3, 9), (5, 7)] 3 0 = [(5, 7)] ∧ Memory.read [(3, 9), (5, 7)] 4 = 0 := by decide

/-! ### Witnesses: states and operands that meet the hypotheses of the statements -/

/-- A state right after INIT has the invariant. -/
theorem test_ready_inv (p : Params) (h : p.wf = true) (d : BitVec 8) (hd : d ∈ legalDividers) (m : List Host.Cell)
    (hm : Memory.wf m = true) (hs : ∀ c ∈ m, c.1 < 2 ^ p.addrWidth) :
    ({ State.resetWith p with divider := d, mem := m } : State).Inv where
  params := h
  mem := hm
  mem_space := hs
  stores_space := by simp [State.resetWith]
  bank := by simp [State.resetWith]
  lanes := by simp [State.resetWith, Lane.cleared]
  scratch := by simp [State.resetWith]
  rxdata := by unfold fitBus State.resetWith; split <;> rfl
  divider := .inr hd
  enable := by simp [State.resetWith]
  configured := by simp [State.resetWith]
  inIrq := rfl
  inCallback := rfl
  base_width := Nat.pow_pos (by decide)
  busy := rfl
  held := by simp [State.resetWith]
  heldUp := by simp [State.resetWith, State.midPrimitive]
  beats := by simp [State.resetWith]
  idle := fun _ => ⟨rfl, rfl, fun _ => rfl, by simp [State.allReady, State.resetWith, Lane.cleared]⟩
  session := by simp [State.resetWith]

/-- The session of one byte has the invariant. -/
theorem test_session_inv : sessionTiny.Inv where
  params := by decide
  mem := by decide
  mem_space := by decide
  stores_space := by decide
  bank := by decide
  lanes := by decide
  scratch := by decide
  rxdata := by decide
  divider := by decide
  enable := by decide
  configured := by decide
  inIrq := by decide
  inCallback := by decide
  base_width := by decide
  busy := by decide
  held := fun i h => by cases h
  heldUp := fun h => absurd h (by decide)
  beats := by decide
  idle := fun h => absurd h (by decide)
  session := fun _ =>
    { mode := by decide, tien := by decide, cs := by decide, dc := by decide, total_pos := by decide
      total_beats := by decide, buffer_fits := by decide, remaining_le := by decide, cursor := by decide
      uniform := by decide, count := by decide, count_pos := by decide, sien_off := by decide, sien_on := by decide
      compare := ⟨1, by decide, by decide, by decide⟩, compare_full := by decide }

/-- A stuck peripheral breaks no invariant. -/
theorem test_stuck_inv : State.Inv stuck :=
  { test_ready_inv Params.cfgA (by decide) 20 (by decide) [] rfl (by decide) with
    idle := fun _ => ⟨rfl, rfl, fun _ => rfl, fun _ => by decide⟩
    heldUp := fun h => absurd h (by decide)
    session := fun h => absurd h (by decide) }

theorem witness_DecodeOfEncode : (Instr.config .singleBeatWrite).wf 32 = true ∧
    (Instr.burst true 0xFFFFFFFF 0).wf 32 = true ∧ (Instr.burst true 0xFFFFFFFFFF 0).wf 40 = true ∧
    encode (.burst true 0xFFFFFFFF 0) = [0x30000001, 0xFFFFFFFF, 0] := by decide

theorem witness_DecodedWordsAreTheEncoding :
    decode 32 [0x30000001, 4, 5, 9] = .ok (.burst true 4 5, [9]) ∧
    decode 32 [0x11000003] = .ok (.config .multiBeatBurst, []) := ⟨rfl, rfl⟩

theorem witness_ReservedEncodingsAreTheUnmatchedWords :
    decode 32 ({ State.reset with port := [0x07000000] } : State).port = .error .reservedEncoding ∧
    (∀ row ∈ opcodeRows, 0x07000000#32 &&& row.fixedBits ≠ row.value) ∧
    decode 32 [0x11000000] = .error .reservedEncoding ∧
    (∃ row ∈ opcodeRows, 0x30000001#32 &&& row.fixedBits = row.value) := ⟨rfl, by decide, rfl, by decide⟩

theorem witness_StrobeOperationsDriveOneLine : State.reset.done = true ∧ State.reset.inCallback = false := by decide

theorem witness_StrobeOperationsAreAdmittedOutsideSessions : (strobeTarget .rdhigh).isSome = true ∧
    ({ State.reset with inCallback := true } : State).inCallback = true ∧
    (session9.inCallback = false ∧ session9.done = false) ∧
    (State.reset.inCallback = false ∧ State.reset.done = true ∧ State.reset.divider = 0) := by decide

theorem witness_LastStrobeOperationWins :
    (∀ i ∈ [Instr.selchip, .rdlow, .deselchip], (strobeTarget i).isSome = true) ∧ ready.done = true ∧
    ready.inCallback = false ∧ ready.fgBusy = false ∧ ready.held = none := by decide

theorem witness_StrobeOperationTwiceIsOnce :
    (strobeTarget .selcmd).isSome = true ∧ ready.done = true ∧ ready.inCallback = false := by decide

theorem witness_StrobeOperationsOnDifferentLinesCommute : strobeTarget .selchip = some (.cs, .low) ∧
    strobeTarget .selcmd = some (.dc, .low) ∧ Line.cs ≠ Line.dc ∧ ready.done = true ∧ ready.inCallback = false := by
  decide

theorem witness_SelectorTable :
    (0#8 ∉ [2#8, 4#8, 8#8, 12#8, 20#8, 24#8, 30#8, 40#8, 60#8, 120#8]) ∧
    (255#8 ∉ [2#8, 4#8, 8#8, 12#8, 20#8, 24#8, 30#8, 40#8, 60#8, 120#8]) := by decide

theorem witness_DerivedTablesOfTheDivider :
    2#8 ∈ [2#8, 4#8, 8#8, 12#8, 20#8, 24#8, 30#8, 40#8, 60#8, 120#8] ∧
    120#8 ∈ [2#8, 4#8, 8#8, 12#8, 20#8, 24#8, 30#8, 40#8, 60#8, 120#8] := by decide

theorem witness_InitSelectsTheDividerAndResetsTheEngine :
    (1#8 ∉ [2#8, 4#8, 8#8, 12#8, 20#8, 24#8, 30#8, 40#8, 60#8, 120#8]) ∧
    ({ ready with inCallback := true } : State).inCallback = true ∧
    (session9.inCallback = false ∧ session9.done = false) ∧ (ready.inCallback = false ∧ ready.done = true) := by decide

theorem witness_PeripheralResetClearsThePeripheral : ready.periphReset.bank.length = 4 ∧
    Lane.cleared Params.cfgA ∈ ready.periphReset.bank := by decide

theorem witness_ConfigProgramsTheRequestedMode :
    Mode.singleBeatRead ≠ .idle ∧ ready.inCallback = false ∧ ready.done = true ∧ ready.divider ≠ 0 := by decide

theorem witness_ConfigRefusals : ({ ready with inCallback := true } : State).inCallback = true ∧
    (session9.inCallback = false ∧ session9.done = false) ∧
    (State.reset.inCallback = false ∧ State.reset.done = true ∧ Mode.multiBeatBurst ≠ .idle ∧
      State.reset.divider = 0) := by decide

theorem witness_CompareValueLayout :
    (1 ≤ 1 ∧ 1 ≤ 128 ∧ (2 : BitVec 8) ∈ legalDividers) ∧ (1 ≤ 128 ∧ 128 ≤ 128 ∧ (120 : BitVec 8) ∈ legalDividers) := by
  decide

/-- CFG-A after a primitive: SingleBeatWrite, idle, with a beat's remains in lane 0. -/
def written : State := after ready (exec (.wrcmd 0x12) ready)

theorem witness_SameModeConfigureKeepsTheState : Mode.singleBeatWrite ≠ .idle ∧ written.mode = .singleBeatWrite ∧
    written.pen = true ∧ written.beatsLeft = 0 ∧ written.bank.length = written.params.shifters ∧
    (∀ l ∈ written.bank, l.rdy = true) ∧ written.sdone = false ∧ written.tsf = false ∧ written.sien = false ∧
    written.tien = false ∧
    written.timcmp = compareValue (programBeats written.params .singleBeatWrite) written.divider := by decide

/-- Both clauses of the write primitives: a session active, and none. -/
theorem witness_WriteCommandSendsOneCommandBeat :
    (session9.params.wf = true ∧ session9.inCallback = false ∧ session9.divider ≠ 0 ∧ session9.done = false) ∧
    (ready.params.wf = true ∧ ready.inCallback = false ∧ ready.divider ≠ 0 ∧ ready.done = true ∧
      ready.peripheralTakes 2 = true ∧ ({ ready with peripheralSteps := some 2 } : State).peripheralTakes 2 = true) := by
  decide

theorem witness_WriteDataSendsOneDataBeat :
    (session9.params.wf = true ∧ session9.inCallback = false ∧ session9.divider ≠ 0 ∧ session9.done = false) ∧
    (readyB.params.wf = true ∧ readyB.inCallback = false ∧ readyB.divider ≠ 0 ∧ readyB.done = true ∧
      readyB.peripheralTakes 2 = true) := by decide

theorem witness_WriteData16SendsTheHighByteFirst :
    (session9.params.wf = true ∧ session9.inCallback = false ∧ session9.divider ≠ 0 ∧ session9.done = false) ∧
    (ready.params.wf = true ∧ ready.inCallback = false ∧ ready.divider ≠ 0 ∧ ready.done = true ∧
      ready.params.busWidth = .w8 ∧ ready.peripheralTakes 4 = true) ∧
    (readyB.params.wf = true ∧ readyB.inCallback = false ∧ readyB.divider ≠ 0 ∧ readyB.done = true ∧
      readyB.params.busWidth = .w16 ∧ readyB.peripheralTakes 2 = true) := by decide

theorem witness_ReadDataReturnsTheSampledByte :
    (session9.params.wf = true ∧ session9.inCallback = false ∧ session9.divider ≠ 0 ∧ session9.done = false) ∧
    (ready.params.wf = true ∧ ready.inCallback = false ∧ ready.divider ≠ 0 ∧ ready.done = true ∧
      ready.peripheralTakes 1 = true) ∧
    (∃ v, v = fitBus ready.params (ready.busIn.headD
      (Config.busIn (ready.trace ++ [.drive .cs .low, .drive .dc .high, .drive .rd .low])))) :=
  ⟨by decide, by decide, _, rfl⟩

theorem witness_ReadStatusReturnsTheSampledByte :
    (session9.params.wf = true ∧ session9.inCallback = false ∧ session9.divider ≠ 0 ∧ session9.done = false) ∧
    (readyB.params.wf = true ∧ readyB.inCallback = false ∧ readyB.divider ≠ 0 ∧ readyB.done = true ∧
      readyB.peripheralTakes 1 = true) ∧
    (∃ v, v = fitBus readyB.params (readyB.busIn.headD
      (Config.busIn (readyB.trace ++ [.drive .cs .low, .drive .dc .low, .drive .rd .low])))) :=
  ⟨by decide, by decide, _, rfl⟩

theorem witness_AdmissionOfOperations :
    decode 32 ({ ready with port := [0x23000000] } : State).port = .ok (.rddata, []) ∧
    ({ ready with port := [0x23000000] } : State).canMove .accept = true ∧
    ({ session9 with port := [0x23000000] } : State).canMove .accept = false ∧
    ({ ready with held := some (.onDone .rddata), fgBusy := true } : State).canMove .resume = true ∧
    ({ ready with inCallback := true } : State).inCallback = true ∧
    (Instr.rddata.isTransfer = true ∧ State.reset.inCallback = false ∧ State.reset.divider = 0) ∧
    (session9.inCallback = false ∧ session9.divider ≠ 0 ∧ session9.done = false) ∧
    ((Instr.init 12).isTransfer = false ∧ Instr.selchip.isTransfer = false) ∧
    (Mode.singleBeatRead ≠ .idle ∧ State.reset.done = true) ∧
    (ready.done = true ∧ ∃ t, exec .selchip ready = .next t) :=
  ⟨rfl, by decide, by decide, by decide, by decide, by decide, by decide, by decide, by decide, by decide, _, rfl⟩

/-- The callback's host code issues RDDATA. -/
theorem witness_OperationsFromTheCallbackAreRefused : ({ ready with inCallback := true } : State).inCallback = true ∧
    decode 32 ({ sessionTiny with callbackPort := [0x23000000] } : State).callbackPort = .ok (.rddata, []) ∧
    (sessionTiny.cbSlot = true ∧ sessionTiny.burstsRemaining = 1) ∧
    (ready.inCallback = false ∧ ready.divider ≠ 0 ∧ ready.done = true ∧
      0xFFFFFFFF ≤ 2 ^ ready.params.addrWidth) := ⟨by decide, rfl, by decide, by decide⟩

theorem witness_ForegroundOnlyHoldsDuringSession :
    session9.done = false ∧ ∃ t, exec (.wrcmd 1) session9 = .next t := ⟨by decide, _, rfl⟩

/-- Served to the last step, and stuck one step short of it. -/
theorem witness_PrimitivesReturnTheBusToWriteMode : (isSyncPrimitive .rdstatus = true ∧
    isSyncPrimitive (.wrdata16 0xABCD) = true ∧ ready.params.wf = true ∧ ready.inCallback = false ∧
    ready.divider ≠ 0 ∧ ready.done = true ∧ ready.rd = .high ∧
    ({ ready with peripheralSteps := some 4 } : State).peripheralTakes (ready.primitiveSteps (.wrdata16 0xABCD)) = true) ∧
    (State.Inv stuck ∧ stuck.divider ≠ 0 ∧ stuck.done = true ∧
      stuck.peripheralTakes (stuck.primitiveSteps .rdstatus) = false ∧
      ({ ready with peripheralSteps := some 3 } : State).peripheralTakes
        (ready.primitiveSteps (.wrdata16 0xABCD)) = false) :=
  ⟨by decide, test_stuck_inv, by decide⟩

theorem witness_FusedPrimitiveStepsAreEnabled : ready.params.wf = true ∧
    (((ready.configure .singleBeatWrite).select .high).oneWriteBeat 0xAB).peripheralTakes 2 = true ∧
    (((ready.configure .singleBeatRead).select .high).drive .rd .low).peripheralTakes 1 = true := by decide

theorem witness_EchoedWordReadsBack :
    (ready.params.wf = true ∧ ready.inCallback = false ∧ ready.divider ≠ 0 ∧ ready.done = true ∧
      ready.params.busWidth = .w8 ∧ ready.peripheralTakes 6 = true ∧
      ({ ready with busIn := [0xAB, 0xCD] } : State).busIn =
        ((0xABCD#16).extractLsb' 8 8).setWidth 16 :: ((0xABCD#16).extractLsb' 0 8).setWidth 16 :: []) ∧
    (readyB.params.wf = true ∧ readyB.inCallback = false ∧ readyB.divider ≠ 0 ∧ readyB.done = true ∧
      readyB.params.busWidth = .w16 ∧ readyB.peripheralTakes 3 = true ∧
      ({ readyB with busIn := [0xABCD] } : State).busIn = 0xABCD#16 :: []) := by decide

/-- The clauses of BURST: hold, the least length that overflows, the least buffer that crosses the top, the empty buffer
with and without a callback, a buffer that ends at the top with a whole number of bursts, and a ragged one. -/
theorem witness_BurstStartOpensTheSession :
    (ready.params.wf = true ∧ ready.inCallback = false ∧ ready.divider ≠ 0 ∧ ready.done = true) ∧
    (session9.params.wf = true ∧ session9.inCallback = false ∧ session9.divider ≠ 0 ∧ session9.done = false) ∧
    (readyB.params.wf = true ∧ readyB.inCallback = false ∧ readyB.divider ≠ 0 ∧ readyB.done = true ∧
      2 ^ 32 ≤ (0x80000000#32).toNat * readyB.params.bytesPerElement) ∧
    ((17#32).toNat * ready.params.bytesPerElement < 2 ^ 32 ∧
      2 ^ ready.params.addrWidth < 0xFFFFFFF0 + (17#32).toNat * ready.params.bytesPerElement) ∧
    (0xFFFFFFFF ≤ 2 ^ ready.params.addrWidth ∧ (true = true → ready.callbackPort = []) ∧
      (false = true → ready.callbackPort = [])) ∧
    (16 = (16#32).toNat * ready.params.bytesPerElement ∧ 16 < 2 ^ 32 ∧
      0xFFFFFFF0 + 16 ≤ 2 ^ ready.params.addrWidth ∧ 16#32 ≠ 0 ∧ 0 = 16 % ready.params.burstBytes) ∧
    (1 = (1#32).toNat * ready.params.bytesPerElement ∧ 1 < 2 ^ 32 ∧
      0 + 1 ≤ 2 ^ ready.params.addrWidth ∧ 1#32 ≠ 0 ∧ 1 = 1 % ready.params.burstBytes) := by decide

theorem witness_ShifterEmptyWithNothingLeftDisablesItself :
    ({ session9 with bytesRemaining := 0 } : State).bytesRemaining = 0 ∧
    ({ sessionTiny with sien := false, bytesRemaining := 0 } : State).done = false ∧
    ∃ t, step { sessionTiny with sien := false, bytesRemaining := 0 } = .next t := ⟨by decide, by decide, _, rfl⟩

theorem witness_ShifterEmptyLoadsTheShortLastBurst :
    (({ session9 with bytesRemaining := 1 } : State).bytesRemaining ≠ 0 ∧
      ({ session9 with bytesRemaining := 1 } : State).bytesRemaining.toNat < session9.params.burstBytes) ∧
    (({ session9 with bytesRemaining := 7 } : State).bytesRemaining ≠ 0 ∧
      ({ session9 with bytesRemaining := 7 } : State).bytesRemaining.toNat < session9.params.burstBytes) := by decide

theorem witness_ShifterEmptyLoadsAFullBurst :
    (session9.params.wf = true ∧ session9.params.burstBytes ≤ session9.bytesRemaining.toNat ∧
      session9.readCursor = .live 0 ∧
      session9.bufBase + 0 + session9.params.burstBytes ≤ 2 ^ session9.params.addrWidth) ∧
    (sessionTiny.params.burstBytes = sessionTiny.bytesRemaining.toNat ∧ sessionTiny.readCursor = .live 0) := by decide

theorem witness_LoadBankFillsTheBuffersInOrder :
    session9.params.wf = true ∧ (List.replicate 8 (0xA0 : Byte)).length = session9.params.burstBytes ∧
    session9.bank.length = session9.params.shifters ∧ session9.pen = true ∧ session9.mode = .multiBeatBurst ∧
    session9.beatsLeft = 0 ∧ ((session9.loadBank (List.replicate 8 0xA0)).bank[3]?).isSome = true := by decide

theorem witness_BurstCompleteCountsAndEndsTheSession : 1 < session9.burstsRemaining.toNat ∧
    (({ sessionTiny with cbSlot := false } : State).burstsRemaining = 1 ∧
      ({ sessionTiny with cbSlot := false } : State).cbSlot = false) ∧
    (sessionTiny.burstsRemaining = 1 ∧ sessionTiny.cbSlot = true ∧ sessionTiny.callbackPort = []) := by decide

/-- Both sources pending: armed, every buffer free, a burst just ended. -/
def bothPending : State := { session9 with tsf := true, bytesRemaining := 1, burstsRemaining := 2 }

theorem witness_InterruptEntryAndReturn : ({ session9 with inIrq := true } : State).inIrq = true ∧
    (bothPending.sePending = true ∧ bothPending.tcPending = true) ∧
    (∃ t, shifterEmptyHandler bothPending = .next t) ∧ (∃ t, burstCompleteHandler bothPending = .next t) ∧
    (sessionTiny.Inv ∧ sessionTiny.canShifterEmpty = true) ∧
    ∃ s : State, s.Inv ∧ s.canBurstComplete = true :=
  ⟨by decide, by decide, ⟨_, rfl⟩, ⟨_, rfl⟩, ⟨test_session_inv, by decide⟩,
    { sessionTiny with tsf := true, bytesRemaining := 0, burstsRemaining := 1, sien := false },
    { test_session_inv with
      heldUp := fun h => absurd h (by decide)
      idle := fun h => absurd h (by decide)
      session := fun _ => { (test_session_inv.session (by decide)) with
        remaining_le := by decide, cursor := by decide, count := by decide, count_pos := by decide
        sien_off := by decide, sien_on := by decide, compare_full := by decide } }, by decide⟩

theorem witness_HandlersCommute : ∃ t, andThen (shifterEmptyHandler bothPending) burstCompleteHandler = .next t :=
  ⟨_, rfl⟩

theorem witness_BankLoadMovesTheActiveLanes :
    (session9.bank.length = session9.params.shifters ∧ 1 ≤ session9.params.shifters ∧
      (session9.loadBank (List.replicate 8 0xA0)).canBankLoad = true) ∧
    ((written.writeShiftBuf0 [1, 0]).bank.length = written.params.shifters ∧
      (written.writeShiftBuf0 [1, 0]).canBankLoad = true) := by decide

/-- The last beat of a burst in each bus width. -/
theorem witness_WriteBeatShiftsOutTheNextUnit :
    (({ session9 with beatsLeft := 1, beatIdx := 7 } : State).bank[(7#8).toNat / session9.params.beatsPerShifter]? =
        some (Lane.cleared Params.cfgA) ∧
      (Lane.cleared Params.cfgA).sreg[(7#8).toNat % session9.params.beatsPerShifter]?.map
        (fun b => b.setWidth 16) = some (0 : Beat) ∧ session9.mode = .multiBeatBurst ∧ session9.tien = true) ∧
    (readyB.bank[(0#8).toNat / readyB.params.beatsPerShifter]? = some (Lane.cleared Params.cfgB) ∧
      (Lane.cleared Params.cfgB).sreg[2 * 0 + 1]? = some 0 ∧ (Lane.cleared Params.cfgB).sreg[2 * 0]? = some 0 ∧
      (0 : Beat) = (0 : Byte) ++ (0 : Byte)) := by decide

theorem witness_ReadBeatSamplesTheBus : (0x5A : Beat) =
    fitBus ready.params (({ ready with busIn := [0x5A] } : State).busIn.headD 0) := by decide

theorem witness_PendingInterruptsComeFirst : (session9.sePending = true ∧ session9.inIrq = false) ∧
    ({ session9 with tsf := true } : State).tcPending = true := by decide

/-- One move enabled, and two. -/
theorem witness_EveryEnabledMoveCanBeTaken : session9.params.wf = true ∧ session9.enabled = [.shifterEmpty] ∧
    bothPending.enabled = [.shifterEmpty, .burstComplete] ∧ Move.burstComplete ∈ bothPending.enabled ∧
    2 ≤ bothPending.enabled.length := by decide

/-- Nothing else enabled; and a caller's store on its way. -/
theorem witness_StepRunsTheDecodedOperation : ready.params.wf = true ∧
    decode 32 ({ ready with port := [0x20000012] } : State).port = .ok (.wrcmd 0x12, []) ∧
    (ready.fgBusy = false ∧ ready.held = none ∧ ready.inIrq = false ∧ ready.sePending = false ∧
      ready.tcPending = false ∧ ready.quiet = true) ∧
    (∃ s : State, s = { ready with hostStores := [(0, 1)], port := [0x20000012] } ∧ s.params.wf = true ∧
      decode s.params.addrWidth s.port = .ok (.wrcmd 0x12, []) ∧ s.fgBusy = false ∧ s.held = none ∧ s.inIrq = false ∧
      s.sePending = false ∧ s.tcPending = false ∧ s.quiet = false) :=
  ⟨by decide, rfl, by decide, _, rfl, by decide, rfl, by decide, by decide, by decide, by decide, by decide, by decide⟩

theorem witness_StepResumesTheHeldOperation :
    (ready.inIrq = false ∧ ready.sePending = false ∧ ready.tcPending = false) ∧ ready.params.wf = true ∧
      ({ ready with held := some (.onDone .rddata), fgBusy := true } : State).held = some (.onDone .rddata) ∧
    ready.done = true ∧ ({ ready with held := some (.onDone .rddata), fgBusy := true } : State).quiet = true ∧
    (∃ s : State, s = { ready with held := some (.onWriteFlags [1]), fgBusy := true, sdone := true, tsf := true } ∧
      s.quiet = true ∧ s.sdone = true ∧ s.tsf = true) ∧
    (∃ s : State, s = { ready with held := some .onReadFlags, fgBusy := true, sdone := true, tsf := true } ∧
      s.quiet = true ∧ s.sdone = true ∧ s.tsf = true) ∧
    (∃ s : State, s = { ready with held := some (.onReady [1]), fgBusy := true } ∧ s.quiet = true ∧ s.firstReady = true) ∧
    (∃ s : State, s = { stuck with held := some .onReadFlags, fgBusy := true } ∧ s.quiet = true ∧ s.holdLifted = false) :=
  ⟨by decide, by decide, by decide, by decide, by decide, ⟨_, rfl, by decide⟩, ⟨_, rfl, by decide⟩, ⟨_, rfl, by decide⟩,
    _, rfl, by decide⟩

theorem witness_BadParametersAreRefused :
    (State.resetWith ⟨.w8, 0, 1, 1, 32⟩).params.shifters = 0 ∧
    (State.resetWith ⟨.w8, 1, 0, 1, 32⟩).params.beatsPerShifter = 0 ∧
    128 < (State.resetWith ⟨.w8, 129, 1, 1, 32⟩).params.shifters *
      (State.resetWith ⟨.w8, 129, 1, 1, 32⟩).params.beatsPerShifter ∧
    (State.resetWith ⟨.w8, 1, 1, 0, 32⟩).params.bytesPerElement = 0 ∧
    ((State.resetWith ⟨.w16, 1, 1, 1, 32⟩).params.busWidth = .w16 ∧
      (State.resetWith ⟨.w16, 1, 1, 1, 32⟩).params.bytesPerElement % 2 = 1) ∧
    (∃ t, exec .selchip ready = .next t) ∧ ∃ t, step { ready with hostStores := [(5, 7)] } = .next t :=
  ⟨by decide, by decide, by decide, by decide, by decide, ⟨_, rfl⟩, _, rfl⟩

theorem witness_ResetValues : Lane.cleared Params.cfgA ∈ (State.resetWith Params.cfgA).bank := by decide

theorem witness_TheFirstOperationMustBeInit : (Instr.burst false 0 0).isTransfer = true ∧
    Mode.multiBeatBurst ≠ .idle ∧ (strobeTarget .seldata).isSome = true := by decide

theorem witness_ResetHasTheInvariant : Params.cfgB.wf = true ∧ tiny.wf = true := by decide

theorem witness_EveryStepKeepsTheInvariant : sessionTiny.Inv ∧ ∃ t, step sessionTiny = .next t :=
  ⟨test_session_inv, _, rfl⟩

theorem witness_TheInvariantExcludesFaults : sessionTiny.Inv ∧ State.Inv ready :=
  ⟨test_session_inv, test_ready_inv _ (by decide) _ (by decide) [] rfl (by decide)⟩

theorem witness_AnActiveSessionAlwaysHasAStep : sessionTiny.Inv ∧ sessionTiny.done = false ∧
    sessionTiny.peripheralSteps ≠ some 0 ∧ sessionTiny.interruptSteps ≠ some 0 := ⟨test_session_inv, by decide⟩

theorem witness_ExposedOperationsLeaveTheLinesDeasserted :
    (({ ready with port := [0x20000012] } : State).LinesInv) ∧
    (∀ i rest, decode 32 ({ ready with port := [0x20000012] } : State).port = .ok (i, rest) → i.isExposed = true) ∧
    ∃ t, step { ready with port := [0x20000012] } = .next t :=
  ⟨⟨fun _ _ => rfl, fun _ => rfl, (fun i h => by cases h), rfl⟩, fun i rest h => by cases h; rfl, _, rfl⟩

/-- A session of one byte, opened by BURST, ends at its fifth step and not before; the caller stores beside the buffer. -/
theorem witness_SessionDeliversTheBuffer : State.Inv readyTiny ∧ readyTiny.done = true ∧
    (∀ c ∈ readyTiny.hostStores, c.1 < 0x1000 ∨
      0x1000 + (1#32).toNat * readyTiny.params.bytesPerElement ≤ c.1) ∧ 1#32 ≠ 0 ∧
    exec (.burst true 0x1000 1) readyTiny = .next sessionTiny ∧
    (∃ t, Host.Core.run Sys2Proof.core 5 sessionTiny = .next t ∧ t.done = true) ∧
    (∀ j u, j < 5 → Host.Core.run Sys2Proof.core j sessionTiny = .next u → u.done = false) := by
  refine ⟨test_ready_inv _ (by decide) _ (by decide) _ (by decide) (by decide), by decide, by decide, by decide, rfl,
    ⟨_, rfl, by decide⟩, ?_⟩
  intro j u hj h
  have h1 : doneOf (Host.Core.run Sys2Proof.core j sessionTiny) = some u.done := by rw [h]; rfl
  have h2 : ∀ j < 5, doneOf (Host.Core.run Sys2Proof.core j sessionTiny) = some false := by decide
  rw [h2 j hj] at h1
  exact (Option.some.inj h1).symm

/-- Fair agents; a stuck peripheral with the one beat still to send; and a stuck interrupt agent. -/
theorem witness_EverySessionEnds :
    (sessionTiny.Inv ∧ sessionTiny.done = false ∧ sessionTiny.port = [] ∧ sessionTiny.callbackPort = [] ∧
      sessionTiny.peripheralSteps = none ∧ sessionTiny.interruptSteps = none) ∧
    (State.Inv { sessionTiny with peripheralSteps := some 0 } ∧ oneIf sessionTiny.tsf < sessionTiny.burstsRemaining.toNat) ∧
    State.Inv { sessionTiny with interruptSteps := some 0 } := by
  have h := test_session_inv
  have k := h.session (by decide)
  exact ⟨⟨h, by decide⟩,
    ⟨{ h with
        heldUp := fun h => absurd h (by decide)
        idle := fun h => absurd h (by decide)
        session := fun _ => { k with } }, by decide⟩,
    { h with
      heldUp := fun h => absurd h (by decide)
      idle := fun h => absurd h (by decide)
      session := fun _ => { k with } }⟩

/-- The top of the address space, and an empty read there. -/
theorem witness_TheBlockNeverWritesHostMemory :
    (0xFFFFFFFF + 1 ≤ 2 ^ readyTiny.params.addrWidth ∧ 0x100000000 + 0 ≤ 2 ^ readyTiny.params.addrWidth) ∧
    (∃ t, exec .selchip ready = .next t) ∧
    Move.shifterEmpty ≠ .hostStore ∧ ∃ t, perform .shifterEmpty sessionTiny = .next t :=
  ⟨by decide, ⟨_, rfl⟩, by decide, _, rfl⟩

theorem witness_TheTraceOnlyGrows : (∃ t, step { ready with port := [0x20000012] } = .next t) ∧
    ∃ t, step { ready with hostStores := [(5, 7)] } = .next t := ⟨⟨_, rfl⟩, _, rfl⟩

/-- `done` to 0 by BURST, and to 1 by the last burst-complete run. -/
theorem witness_DoneChangesOnlyAtSessionEnds :
    (∃ t, step { readyTiny with port := [0x30000001, 0x1000, 1] } = .next t ∧ readyTiny.done = true ∧ t.done = false) ∧
    (∃ t, step { sessionTiny with tsf := true, bytesRemaining := 0, sien := false } = .next t ∧
      sessionTiny.done = false ∧ t.done = true) :=
  ⟨⟨_, rfl, by decide, by decide⟩, _, rfl, by decide, by decide⟩

theorem witness_OnlyInitWritesTheDivider :
    ∃ t, step { State.reset with port := [0x1000000C] } = .next t ∧ t.divider ≠ State.reset.divider :=
  ⟨_, rfl, by decide⟩

theorem witness_BytesRemainingNeverIncreases : session9.done = false ∧ ∃ t, step session9 = .next t :=
  ⟨by decide, _, rfl⟩

theorem witness_ARunThatIsOverStaysOver : State.Inv ready ∧ ready.runOver = true ∧ ready.hostStores = [] :=
  ⟨test_ready_inv _ (by decide) _ (by decide) [] rfl (by decide), by decide, by decide⟩

end Sys2Proof.Tests
end

/-! The parameters (00_scope.md R6 to R9): exactly which of them are refused, and that no operation and no step
changes them (log 1). -/

namespace Sys2Proof

/-! ### The constraints -/

/-- The configurations outside the constraints of R7 to R9, listed; only a 16-bit bus can split an element. -/
theorem Params.wf_eq_false_iff (p : Params) :
    p.wf = false ↔ p.shifters = 0 ∨ p.beatsPerShifter = 0 ∨ 128 < p.shifters * p.beatsPerShifter ∨
      p.bytesPerElement = 0 ∨ (p.busWidth = .w16 ∧ p.bytesPerElement % 2 = 1) := by
  have hsplit : p.bytesPerElement % p.bytesPerBeat ≠ 0 ↔ p.busWidth = .w16 ∧ p.bytesPerElement % 2 = 1 := by
    cases hb : p.busWidth <;> simp [Params.bytesPerBeat, hb, Nat.mod_one]
  rw [← hsplit, ← Bool.not_eq_true, Params.wf_iff, Params.burstBeats]
  omega

end Sys2Proof

namespace Sys2Proof.Machine

theorem step_of_wf_eq_false {s : State} (h : s.params.wf = false) : step s = .refused .badParameters := by
  simp [step, h]

/-! ### The synchronous primitives -/

@[simp] theorem State.select_params (s : State) (dc : Level) : (s.select dc).params = s.params := rfl

@[simp] theorem State.finishWrite_params (s : State) : s.finishWrite.params = s.params := rfl

@[simp] theorem State.finishRead_params (s : State) : s.finishRead.params = s.params := rfl

@[simp] theorem State.peripheralStep_params (s : State) : s.peripheralStep.params = s.params :=
  State.peripheralStep_keeps (P := fun t => t.params = s.params)
    (fun _ h => by simpa using h) (fun _ h => by simpa using h) (fun _ h => by simpa using h) rfl

@[simp] theorem State.sendBeats_params (bs : List Beat) (s : State) : (State.sendBeats bs s).params = s.params :=
  State.sendBeats_keeps (P := fun t => t.params = s.params) (Q := fun t => t.params = s.params)
    (write := fun _ _ h => by simpa using h) (serve := fun _ h => by simpa using h)
    (clear := fun _ h => by simpa using h) (finish := fun _ h => by simpa using h)
    (onReady := fun _ _ h => by simpa using h) (onFlags := fun _ _ h => by simpa using h) bs rfl

@[simp] theorem State.sampleBeat_params (s : State) : s.sampleBeat.params = s.params :=
  State.sampleBeat_keeps (P := fun t => t.params = s.params) (Q := fun t => t.params = s.params)
    (start := fun _ h => by simpa using h) (serve := fun _ h => by simpa using h)
    (clear := fun _ h => by simpa using h) (finish := fun _ h => by simpa using h)
    (onFlags := fun _ h => by simpa using h) rfl

/-! ### Admission, and the operations by their shapes -/

/-- A transfer operation changes the parameters only if its body does: to hold does not. -/
theorem admitTransfer_params {i : Instr} {s t : State} {run : State → Result}
    (hrun : run s = .next t → t.params = s.params) (h : admitTransfer i s run = .next t) : t.params = s.params := by
  obtain ⟨-, -, ⟨-, hr⟩ | ⟨-, rfl⟩⟩ := admitTransfer_eq_next h
  · exact hrun hr
  · exact State.hold_params s _

theorem strobe_params {l : Line} {v : Level} {s t : State} (h : strobe l v s = .next t) : t.params = s.params := by
  obtain ⟨-, -, hr⟩ := admitControl_eq_next h
  cases hr
  simp

theorem execInit_params {sel : BitVec 8} {s t : State} (h : execInit sel s = .next t) : t.params = s.params := by
  obtain ⟨-, -, hr⟩ := admitControl_eq_next h
  cases hr
  simp

theorem execConfig_params {m : Mode} {s t : State} (h : execConfig m s = .next t) : t.params = s.params := by
  obtain ⟨-, -, hr⟩ := admitControl_eq_next h
  split at hr
  · cases hr
  · split at hr
    · cases hr
    · cases hr
      simp

theorem writePrimitive_params {i : Instr} {dc : Level} {beats : State → List Beat} {s t : State}
    (h : writePrimitive i dc beats s = .next t) : t.params = s.params :=
  admitTransfer_params (fun hr => by cases hr; simp) h

theorem readPrimitive_params {i : Instr} {dc : Level} {s t : State} (h : readPrimitive i dc s = .next t) :
    t.params = s.params :=
  admitTransfer_params (fun hr => by cases hr; simp) h

theorem startBurst_params {cb : Bool} {base : Nat} {count : BitVec 32} {s t : State}
    (h : startBurst cb base count s = .next t) : t.params = s.params := by
  obtain ⟨-, -, ⟨-, -, rfl⟩ | ⟨-, rfl⟩⟩ := startBurst_eq_next h
  · rfl
  · simp

/-- No operation changes the parameters. -/
theorem exec_params {i : Instr} {s t : State} (h : exec i s = .next t) : t.params = s.params := by
  cases i with
  | selchip | deselchip | selcmd | seldata | rdlow | rdhigh => exact strobe_params h
  | init sel => exact execInit_params h
  | config m => exact execConfig_params h
  | wrcmd | wrdata | wrdata16 =>
    simp only [exec, execWrcmd, execWrdata, execWrdata16] at h
    exact writePrimitive_params h
  | rddata | rdstatus => exact readPrimitive_params h
  | burst cb base count => exact admitTransfer_params startBurst_params h

/-! ### The moves -/

theorem shifterEmptyHandler_params {s t : State} (h : shifterEmptyHandler s = .next t) : t.params = s.params := by
  obtain ⟨-, rfl⟩ | ⟨-, -, rfl⟩ | ⟨-, o, -, -, rfl⟩ := shifterEmptyHandler_eq_next h <;> rfl

theorem burstCompleteHandler_params {s t : State} (h : burstCompleteHandler s = .next t) : t.params = s.params := by
  obtain ⟨-, ⟨-, rfl⟩ | ⟨-, -, rfl⟩⟩ := burstCompleteHandler_eq_next h <;> rfl

theorem acceptNext_params {s t : State} (h : acceptNext s = .next t) : t.params = s.params := by
  unfold acceptNext at h
  split at h
  · rename_i i rest _
    exact exec_params (s := { s with port := rest }) h
  · cases h
  · cases h; rfl

theorem resumeHeld_params {s t : State} (h : resumeHeld s = .next t) : t.params = s.params := by
  unfold resumeHeld at h
  split at h
  · cases h; rfl
  · exact exec_params h
  · cases h; simp
  · cases h; simp
  · cases h; simp

theorem hostStoreNext_params {s t : State} (h : hostStoreNext s = .next t) : t.params = s.params := by
  unfold hostStoreNext at h
  split at h
  · cases h; rfl
  · split at h
    · cases h; rfl
    · cases h

/-- No move of an agent changes the parameters. -/
theorem perform_params {m : Move} {s t : State} (h : perform m s = .next t) : t.params = s.params := by
  cases m with
  | shifterEmpty => simpa using shifterEmptyHandler_params h
  | burstComplete => simpa using burstCompleteHandler_params h
  | bankLoad | writeBeat | readBeat => cases h; simp
  | accept => exact acceptNext_params h
  | resume => exact resumeHeld_params h
  | hostStore => exact hostStoreNext_params h

/-- No step changes the parameters: the schedule choice it may use is not one of them. -/
theorem step_params {s t : State} (h : step s = .next t) : t.params = s.params := by
  obtain ⟨-, ⟨-, rfl⟩ | ⟨m, u, -, rfl | rfl, hm⟩⟩ := step_eq_next h
  · rfl
  · exact perform_params hm
  · simpa using perform_params hm

/-- Settles O44: the listed configurations are those that `Params.wf` excludes, which `step` asks first; the parameters
are kept by every operation and every step. -/
theorem badParametersAreRefused : Obligations.BadParametersAreRefused :=
  ⟨fun s h => step_of_wf_eq_false ((Params.wf_eq_false_iff s.params).2 h), fun _ _ _ => exec_params,
    fun _ _ => step_params⟩

end Sys2Proof.Machine

/-! The session record, the divider, the logs and memory (10_state.md R20 to R52): everything a step can do to them, said
once, and what follows for each of them. -/

namespace Sys2Proof.Machine

/-! ### The reset -/

/-- Every lane of a reset bank is a cleared one. -/
theorem mem_resetWith_bank {p : Params} {l : Lane} (h : l ∈ (State.resetWith p).bank) : l = Lane.cleared p :=
  List.eq_of_mem_replicate h

/-- Settles O45: the values of R51's table are the fields of the reset state, and its lanes are cleared ones. -/
theorem resetValues : Obligations.ResetValues := by
  intro p
  have hlanes : ∀ l ∈ (State.resetWith p).bank,
      l.rdy = true ∧ (∀ b ∈ l.buf, b = 0) ∧ (∀ b ∈ l.sreg, b = 0) := by
    intro l hl
    rw [mem_resetWith_bank hl]
    exact ⟨rfl, fun _ => List.eq_of_mem_replicate, fun _ => List.eq_of_mem_replicate⟩
  have hlen : (State.resetWith p).bank.length = p.shifters := List.length_replicate
  exact ⟨rfl, rfl, rfl, rfl, rfl, rfl, rfl, hlen, hlanes, rfl, rfl, rfl, rfl, rfl, rfl, rfl, rfl, rfl, rfl, rfl, rfl⟩

/-! ### Actions that leave the session record alone -/

/-- `t` follows `s` by actions on the pins, the bus and the peripheral's registers: the logs may have grown, and memory, the
divider and the session record are as they were. -/
structure State.BusActs (s t : State) : Prop where
  trace : s.trace <+: t.trace
  responses : s.responses <+: t.responses
  mem : t.mem = s.mem
  divider : t.divider = s.divider
  done : t.done = s.done
  totalBytes : t.totalBytes = s.totalBytes
  bytesRemaining : t.bytesRemaining = s.bytesRemaining
  bufBase : t.bufBase = s.bufBase

theorem State.BusActs.refl (s : State) : s.BusActs s := by
  constructor <;> simp

theorem State.BusActs.trans {s t u : State} (h : s.BusActs t) (k : t.BusActs u) : s.BusActs u where
  trace := h.trace.trans k.trace
  responses := h.responses.trans k.responses
  mem := k.mem.trans h.mem
  divider := k.divider.trans h.divider
  done := k.done.trans h.done
  totalBytes := k.totalBytes.trans h.totalBytes
  bytesRemaining := k.bytesRemaining.trans h.bytesRemaining
  bufBase := k.bufBase.trans h.bufBase

theorem State.busActs_drive (s : State) (l : Line) (v : Level) : s.BusActs (s.drive l v) := by
  constructor <;> simp

theorem State.busActs_configure (s : State) (m : Mode) : s.BusActs (s.configure m) := by
  constructor <;> simp

theorem State.busActs_writeShiftBuf0 (s : State) (b : List Byte) : s.BusActs (s.writeShiftBuf0 b) := by
  constructor <;> simp

theorem State.busActs_clearDoneFlags (s : State) : s.BusActs s.clearDoneFlags := by
  constructor <;> simp

theorem State.busActs_startRead (s : State) : s.BusActs s.startRead := by
  constructor <;> simp

theorem State.busActs_ret (s : State) (r : Response) : s.BusActs (s.ret r) := by
  constructor <;> simp

theorem State.busActs_hold (s : State) (h : Hold) : s.BusActs (s.hold h) := by
  constructor <;> simp

theorem State.busActs_bankLoad (s : State) : s.BusActs s.spendPeripheral.bankLoad := by
  constructor <;> simp

theorem State.busActs_writeBeat (s : State) : s.BusActs s.spendPeripheral.writeBeat := by
  constructor <;> simp

theorem State.busActs_readBeat (s : State) : s.BusActs s.spendPeripheral.readBeat := by
  constructor <;> simp

theorem State.busActs_peripheralStep (s : State) : s.BusActs s.peripheralStep :=
  State.peripheralStep_keeps (P := s.BusActs) (fun u h => h.trans u.busActs_bankLoad)
    (fun u h => h.trans u.busActs_writeBeat) (fun u h => h.trans u.busActs_readBeat) (.refl s)

theorem State.busActs_finishWrite (s : State) : s.BusActs s.finishWrite :=
  (s.busActs_drive .cs .high).trans (State.busActs_ret _ _)

theorem State.busActs_finishRead (s : State) : s.BusActs s.finishRead :=
  (((s.busActs_drive .rd .high).trans (State.busActs_drive _ .cs .high)).trans
    (State.busActs_configure _ .singleBeatWrite)).trans (State.busActs_ret _ _)

theorem State.busActs_sendBeats (s : State) (vs : List Beat) : s.BusActs (State.sendBeats vs s) :=
  State.sendBeats_keeps (P := s.BusActs) (Q := s.BusActs) (write := fun u b h => h.trans (u.busActs_writeShiftBuf0 b))
    (serve := fun u h => h.trans u.busActs_peripheralStep) (clear := fun u h => h.trans u.busActs_clearDoneFlags)
    (finish := fun u h => h.trans u.busActs_finishWrite) (onReady := fun u _ h => h.trans (u.busActs_hold _))
    (onFlags := fun u _ h => h.trans (u.busActs_hold _)) vs (.refl s)

theorem State.busActs_sampleBeat (s : State) : s.BusActs s.sampleBeat :=
  State.sampleBeat_keeps (P := s.BusActs) (Q := s.BusActs) (start := fun u h => h.trans u.busActs_startRead)
    (serve := fun u h => h.trans u.busActs_peripheralStep) (clear := fun u h => h.trans u.busActs_clearDoneFlags)
    (finish := fun u h => h.trans u.busActs_finishRead) (onFlags := fun u h => h.trans (u.busActs_hold _)) (.refl s)

/-! ### The operations -/

theorem strobe_busActs {l : Line} {v : Level} {s t : State} (h : strobe l v s = .next t) : s.BusActs t := by
  obtain ⟨-, -, hr⟩ := admitControl_eq_next h
  cases hr
  exact (s.busActs_drive l v).trans (State.busActs_ret _ _)

theorem execConfig_busActs {m : Mode} {s t : State} (h : execConfig m s = .next t) : s.BusActs t := by
  obtain ⟨-, -, hr⟩ := admitControl_eq_next h
  split at hr
  · cases hr
  · split at hr
    · cases hr
    · cases hr
      exact (s.busActs_configure m).trans (State.busActs_ret _ _)

theorem writePrimitive_busActs {i : Instr} {dc : Level} {beats : State → List Beat} {s t : State}
    (h : writePrimitive i dc beats s = .next t) : s.BusActs t := by
  obtain ⟨-, -, ⟨-, hr⟩ | ⟨-, rfl⟩⟩ := admitTransfer_eq_next h
  · cases hr
    exact ((((s.busActs_configure _).trans (State.busActs_drive _ .cs .low)).trans (State.busActs_drive _ .dc dc))).trans
      (State.busActs_sendBeats _ _)
  · exact s.busActs_hold _

theorem readPrimitive_busActs {i : Instr} {dc : Level} {s t : State} (h : readPrimitive i dc s = .next t) :
    s.BusActs t := by
  obtain ⟨-, -, ⟨-, hr⟩ | ⟨-, rfl⟩⟩ := admitTransfer_eq_next h
  · cases hr
    exact ((((s.busActs_configure _).trans (State.busActs_drive _ .cs .low)).trans (State.busActs_drive _ .dc dc)).trans
      (State.busActs_drive _ .rd .low)).trans (State.busActs_sampleBeat _)
  · exact s.busActs_hold _

/-- INIT writes the divider of its selector, outside a session, and leaves the session record alone. -/
theorem execInit_busActs {sel : BitVec 8} {s t : State} (h : execInit sel s = .next t) :
    s.done = true ∧ State.BusActs { s with divider := dividerOfSelector sel } t := by
  obtain ⟨-, hd, hr⟩ := admitControl_eq_next h
  cases hr
  exact ⟨hd, by constructor <;> simp⟩

/-- BURST holds, or calls the callback, or opens a session of at least one element from a state with none. -/
theorem execBurst_busActs {cb : Bool} {base : Nat} {count : BitVec 32} {s t : State}
    (h : execBurst cb base count s = .next t) :
    s.BusActs t ∨ (count ≠ 0 ∧ s.done = true ∧ ∃ u, s.BusActs u ∧
      (u.openSession base (burstLength s.params count)).BusActs t) := by
  obtain ⟨-, -, ⟨hd, hr⟩ | ⟨-, rfl⟩⟩ := admitTransfer_eq_next h
  · obtain ⟨-, -, ⟨-, -, rfl⟩ | ⟨h0, rfl⟩⟩ := startBurst_eq_next hr
    · exact .inl (by constructor <;> simp)
    · exact .inr ⟨h0, hd, ({ s with cbSlot := cb } : State).configure .multiBeatBurst, by constructor <;> simp,
        by constructor <;> simp⟩
  · exact .inl (s.busActs_hold _)

/-- Everything an operation can do to the session record, the divider and the logs. -/
theorem exec_effect {i : Instr} {s t : State} (h : exec i s = .next t) :
    s.BusActs t ∨
    (∃ sel, i = .init sel ∧ s.done = true ∧ State.BusActs { s with divider := dividerOfSelector sel } t) ∨
    (∃ cb base count, i = .burst cb base count ∧ count ≠ 0 ∧ s.done = true ∧ ∃ u, s.BusActs u ∧
      (u.openSession base (burstLength s.params count)).BusActs t) := by
  cases i with
  | selchip | deselchip | selcmd | seldata | rdlow | rdhigh => exact .inl (strobe_busActs h)
  | init sel => exact .inr (.inl ⟨sel, rfl, execInit_busActs h⟩)
  | config m => exact .inl (execConfig_busActs h)
  | wrcmd | wrdata | wrdata16 =>
    simp only [exec, execWrcmd, execWrdata, execWrdata16] at h
    exact .inl (writePrimitive_busActs h)
  | rddata | rdstatus => exact .inl (readPrimitive_busActs h)
  | burst cb base count =>
    exact (execBurst_busActs h).imp_right fun ⟨h0, hd, hu⟩ => .inr ⟨cb, base, count, rfl, h0, hd, hu⟩

/-! ### The moves -/

/-- The operation that the foreground executes next: the one that holds on `done`, or the one at the command port. -/
def State.Issues (s : State) (i : Instr) : Prop :=
  s.held = some (.onDone i) ∨ ∃ rest, decode s.params.addrWidth s.port = .ok (i, rest)

/-- An operation is accepted only where none holds. -/
theorem State.free_of_accept {s : State} (hbusy : s.fgBusy = s.held.isSome) (hm : s.canMove .accept = true) :
    s.midPrimitive = false := by
  simp only [State.canMove, State.canAccept, Bool.and_eq_true, Bool.not_eq_true'] at hm
  obtain ⟨⟨⟨⟨hb, -⟩, -⟩, -⟩, -⟩ := hm
  have hh : s.held = none := by simpa using hbusy.symm.trans hb
  simp [State.midPrimitive, hh]

theorem State.sePending_of_shifterEmpty {s : State} (hm : s.canMove .shifterEmpty = true) : s.sePending = true := by
  simp only [State.canMove, State.canShifterEmpty, Bool.and_eq_true] at hm
  obtain ⟨-, hp, -⟩ := hm
  exact hp

theorem State.tcPending_of_burstComplete {s : State} (hm : s.canMove .burstComplete = true) : s.tcPending = true := by
  simp only [State.canMove, State.canBurstComplete, Bool.and_eq_true] at hm
  obtain ⟨-, hp, -⟩ := hm
  exact hp

/-- All that accepting can do: nothing, or the operation at the port. -/
theorem acceptNext_eq_next {s t : State} (h : acceptNext s = .next t) :
    t = s ∨ ∃ i rest, decode s.params.addrWidth s.port = .ok (i, rest) ∧ exec i { s with port := rest } = .next t := by
  unfold acceptNext at h
  split at h
  · rename_i i rest hd
    exact .inr ⟨i, rest, hd, h⟩
  · cases h
  · cases h
    exact .inl rfl

/-- All that the caller's next store can do: nothing, or the write of its byte to an address that exists. -/
theorem hostStoreNext_eq_next {s t : State} (h : hostStoreNext s = .next t) :
    t = s ∨ ∃ c cs, s.hostStores = c :: cs ∧ c.1 < 2 ^ s.params.addrWidth ∧
      t = { s with mem := Memory.write s.mem c.1 c.2, hostStores := cs } := by
  unfold hostStoreNext at h
  split at h
  · cases h
    exact .inl rfl
  · rename_i c cs hs
    split at h
    · cases h
      exact .inr ⟨c, cs, hs, by assumption, rfl⟩
    · cases h

/-- Everything a step from `s` to `t` can do to the session record, the divider, the logs and memory, by what does it. -/
inductive StepEffect (s t : State) : Prop where
  /-- Nothing to the record (the peripheral, and most operations). -/
  | acts (h : s.BusActs t)
  /-- INIT writes the divider (R27). -/
  | init (sel : BitVec 8) (hi : s.Issues (.init sel)) (hd : s.done = true)
      (h : State.BusActs { s with divider := dividerOfSelector sel } t)
  /-- BURST opens a session (R44). -/
  | openSession (cb : Bool) (base : Nat) (count : BitVec 32) (hi : s.Issues (.burst cb base count)) (h0 : count ≠ 0)
      (hd : s.done = true) (u : State) (hu : s.BusActs u)
      (h : (u.openSession base (burstLength s.params count)).BusActs t)
  /-- The shifter-empty handler takes bytes off `bytesRemaining` (R40). -/
  | refill (n : BitVec 32) (hn : n.toNat ≤ s.bytesRemaining.toNat) (h : State.BusActs { s with bytesRemaining := n } t)
  /-- The last burst-complete run ends the session (R44). -/
  | closeSession (hp : s.tcPending = true) (h1 : s.burstsRemaining = 1) (h0 : t.burstsRemaining = 0)
      (htien : t.tien = false) (hcs : t.cs = .high) (h : State.BusActs { s with done := true } t)
  /-- The caller's store lands in memory (log 16). -/
  | store (c : Host.Cell) (cs : List Host.Cell) (hs : s.hostStores = c :: cs) (ht : t.hostStores = cs)
      (h : State.BusActs { s with mem := Memory.write s.mem c.1 c.2 } t)

/-- The effect of an operation is that of the step that executes it. -/
theorem exec_stepEffect {i : Instr} {s u t : State} (hu : s.BusActs u) (hp : u.params = s.params) (hi : s.Issues i)
    (h : exec i u = .next t) : StepEffect s t := by
  obtain hb | ⟨sel, rfl, hd, hb⟩ | ⟨cb, base, count, rfl, h0, hd, v, hv, hb⟩ := exec_effect h
  · exact .acts (hu.trans hb)
  · have hu' : State.BusActs { s with divider := dividerOfSelector sel } { u with divider := dividerOfSelector sel } :=
      { hu with divider := rfl }
    exact .init sel hi (hu.done ▸ hd) (hu'.trans hb)
  · exact .openSession cb base count hi h0 (hu.done ▸ hd) v (hu.trans hv) (hp ▸ hb)

theorem shifterEmptyHandler_stepEffect {s t : State} (h : shifterEmptyHandler s = .next t) : StepEffect s t := by
  obtain ⟨-, rfl⟩ | ⟨-, -, rfl⟩ | ⟨hle, o, -, -, rfl⟩ := shifterEmptyHandler_eq_next h
  · exact .acts (by constructor <;> simp)
  · exact .refill 0 (Nat.zero_le _) (by constructor <;> simp)
  · refine .refill (s.bytesRemaining - BitVec.ofNat 32 s.params.burstBytes) ?_
      { State.BusActs.refl s with bytesRemaining := rfl }
    bv_omega

theorem burstCompleteHandler_stepEffect {s t : State} (hp : s.tcPending = true)
    (h : burstCompleteHandler s = .next t) : StepEffect s t := by
  obtain ⟨-, ⟨-, rfl⟩ | ⟨h1, -, rfl⟩⟩ := burstCompleteHandler_eq_next h
  · exact .acts (by constructor <;> simp)
  · exact .closeSession hp h1 rfl rfl rfl (by constructor <;> simp)

theorem resumeHeld_stepEffect {s t : State} (h : resumeHeld s = .next t) : StepEffect s t := by
  unfold resumeHeld at h
  split at h
  · cases h
    exact .acts (.refl s)
  · exact exec_stepEffect (.refl s) rfl (.inl (by assumption)) h
  · cases h
    exact .acts (s.busActs_sendBeats _)
  · cases h
    exact .acts (s.busActs_clearDoneFlags.trans (State.busActs_sendBeats _ _))
  · cases h
    exact .acts (s.busActs_clearDoneFlags.trans (State.busActs_finishRead _))

/-- An effect reads neither the supply of interrupt steps nor the schedule. -/
theorem StepEffect.of_scheduling {s t : State} {supply : Option Nat} {sched : List Nat} {tick : Nat}
    (h : StepEffect { s with interruptSteps := supply, sched := sched, tick := tick } t) : StepEffect s t := by
  cases h with
  | acts h => exact .acts { h with }
  | init sel hi hd h => exact .init sel hi hd { h with }
  | openSession cb base count hi h0 hd u hu h => exact .openSession cb base count hi h0 hd u { hu with } h
  | refill n hn h => exact .refill n hn { h with }
  | closeSession hp h1 h0 htien hcs h => exact .closeSession hp h1 h0 htien hcs { h with }
  | store c cs hs ht h => exact .store c cs hs ht { h with }

theorem StepEffect.of_afterChoice {s t : State} (h : StepEffect s.afterChoice t) : StepEffect s t := by
  unfold State.afterChoice at h
  split at h <;> exact .of_scheduling h

theorem perform_stepEffect {m : Move} {s t : State} (hm : s.canMove m = true) (h : perform m s = .next t) :
    StepEffect s t := by
  cases m with
  | shifterEmpty => exact .of_scheduling (shifterEmptyHandler_stepEffect h)
  | burstComplete =>
    have hp := State.tcPending_of_burstComplete hm
    exact .of_scheduling (burstCompleteHandler_stepEffect (s := s.spendInterrupt) hp h)
  | bankLoad => cases h; exact .acts s.busActs_bankLoad
  | writeBeat => cases h; exact .acts s.busActs_writeBeat
  | readBeat => cases h; exact .acts s.busActs_readBeat
  | accept =>
    obtain rfl | ⟨i, rest, hd, hx⟩ := acceptNext_eq_next h
    · exact .acts (.refl t)
    · exact exec_stepEffect (u := { s with port := rest }) { State.BusActs.refl s with } rfl (.inr ⟨rest, hd⟩) hx
  | resume => exact resumeHeld_stepEffect h
  | hostStore =>
    obtain rfl | ⟨c, cs, hs, -, rfl⟩ := hostStoreNext_eq_next h
    · exact .acts (.refl t)
    · exact .store c cs hs rfl (by constructor <;> simp)

/-! ### One step -/

/-- What holds of a step: it holds where nothing happens, of every enabled move, and the use of a schedule choice does not matter
to it. -/
theorem step_induction {P : State → State → Prop} {s t : State} (h : step s = .next t) (stay : ∀ u, P u u)
    (choice : ∀ u v, P u.afterChoice v → P u v)
    (move : ∀ m u v, u.canMove m = true → perform m u = .next v → P u v) : P s t := by
  obtain ⟨-, ⟨-, rfl⟩ | ⟨m, u, hm, rfl | rfl, hp⟩⟩ := step_eq_next h
  · exact stay _
  · exact move m _ _ hm hp
  · exact choice _ _ (move m _ _ (by simpa using hm) hp)

/-- Everything a step can do to the session record, the divider, the logs and memory. -/
theorem step_effect {s t : State} (h : step s = .next t) : StepEffect s t :=
  step_induction (P := StepEffect) h (fun u => .acts (.refl u)) (fun _ _ => StepEffect.of_afterChoice)
    (fun _ _ _ => perform_stepEffect)

/-- The events and responses before a step stay the first ones. -/
theorem StepEffect.logs_grow {s t : State} (h : StepEffect s t) : s.trace <+: t.trace ∧ s.responses <+: t.responses := by
  cases h with
  | acts h | init _ _ _ h | refill _ _ h | closeSession _ _ _ _ _ h | store _ _ _ _ h => exact ⟨h.trace, h.responses⟩
  | openSession _ _ _ _ _ _ u hu h => exact ⟨hu.trace.trans h.trace, hu.responses.trans h.responses⟩

/-- Memory changes only by the caller's next store. -/
theorem StepEffect.mem_eq {s t : State} (h : StepEffect s t) :
    t.mem = s.mem ∨ ∃ c cs, s.hostStores = c :: cs ∧ t.hostStores = cs ∧ t.mem = Memory.write s.mem c.1 c.2 := by
  cases h with
  | acts h | init _ _ _ h | refill _ _ h | closeSession _ _ _ _ _ h => exact .inl h.mem
  | openSession _ _ _ _ _ _ u hu h => exact .inl (h.mem.trans hu.mem)
  | store c cs hs ht h => exact .inr ⟨c, cs, hs, ht, h.mem⟩

/-- Settles O56: each effect of a step only appends to the logs, and only the caller's store is one on memory. -/
theorem theTraceOnlyGrows : Obligations.TheTraceOnlyGrows := by
  refine ⟨State.resetWith_trace, fun s t h => ?_⟩
  have he := step_effect h
  obtain ⟨⟨es, hes⟩, rs, hrs⟩ := he.logs_grow
  exact ⟨⟨es, hes.symm⟩, ⟨rs, hrs.symm⟩, he.mem_eq⟩

/-- Settles O57: of the effects of a step only the opening of a session clears `done`, and only its close sets it. -/
theorem doneChangesOnlyAtSessionEnds : Obligations.DoneChangesOnlyAtSessionEnds := by
  intro s t h
  cases step_effect h with
  | acts h | init _ _ _ h | refill _ _ h | store _ _ _ _ h =>
    have hdone : t.done = s.done := h.done
    exact ⟨fun h1 h2 => by simp [h1, h2] at hdone, fun h1 h2 => by simp [h1, h2] at hdone⟩
  | openSession cb base count hi h0 hd _ _ _ =>
    exact ⟨fun _ _ => ⟨cb, base, count, hi, h0⟩, fun h1 _ => absurd hd (by simp [h1])⟩
  | closeSession hp h1 h0 htien hcs h =>
    exact ⟨fun _ h2 => absurd h.done (by simp [h2]), fun _ _ => ⟨hp, h1, h0, htien, hcs⟩⟩

/-- Settles O58: of the effects of a step only INIT's writes the divider. -/
theorem onlyInitWritesTheDivider : Obligations.OnlyInitWritesTheDivider := by
  intro s t h hne
  cases step_effect h with
  | acts h | refill _ _ h | closeSession _ _ _ _ _ h | store _ _ _ _ h => exact absurd h.divider hne
  | openSession _ _ _ _ _ _ u hu h => exact absurd (h.divider.trans hu.divider) hne
  | init sel hi _ h => exact ⟨sel, hi, h.divider⟩

/-- Settles O59: INIT and the opening of a session need `done = 1`; of the other effects only the refill writes
`bytesRemaining`, and none the length or the base. -/
theorem bytesRemainingNeverIncreases : Obligations.BytesRemainingNeverIncreases := by
  intro s t hd h
  cases step_effect h with
  | acts h | init _ _ _ h | closeSession _ _ _ _ _ h | store _ _ _ _ h =>
    exact ⟨(congrArg BitVec.toNat h.bytesRemaining).le, h.totalBytes, h.bufBase⟩
  | refill n hn h => exact ⟨(congrArg BitVec.toNat h.bytesRemaining).trans_le hn, h.totalBytes, h.bufBase⟩
  | openSession _ _ _ _ _ hd' _ _ _ => exact absurd hd' (by simp [hd])

end Sys2Proof.Machine

/-! The levels of the lines between operations (10_state.md R50 (c), (d); 40_strobe.md R118): what each exposed operation
and each move leaves on chip-select and the read strobe. -/

namespace Sys2Proof.Machine

/-! ### Where an operation returns or holds -/

/-- An operation that returns with both lines high leaves them so. -/
theorem State.linesInv_ret {s : State} (r : Response) (hcs : s.done = true → s.cs = .high) (hrd : s.rd = .high) :
    (s.ret r).LinesInv where
  cs := fun h _ => hcs h
  rd := fun _ => hrd
  held := by simp
  busy := rfl

/-- A primitive that holds has chip-select for its own, and a write primitive the read strobe high. -/
theorem State.linesInv_hold {s : State} {h : Hold} (hmid : (s.hold h).midPrimitive = true)
    (hrd : h ≠ .onReadFlags → s.rd = .high) : (s.hold h).LinesInv where
  cs := fun _ hm => absurd hmid (by simp [hm])
  rd := fun hne => hrd fun he => hne (congrArg some he)
  held := by
    intro i hi
    cases (Option.some.inj hi : h = .onDone i)
    cases hmid
  busy := rfl

/-- What keeps the lines, `done` and what the foreground waits for keeps the levels. -/
theorem State.LinesInv.congr {s t : State} (h : s.LinesInv) (hcs : t.cs = s.cs) (hrd : t.rd = s.rd)
    (hdone : t.done = s.done) (hheld : t.held = s.held) (hbusy : t.fgBusy = s.fgBusy) : t.LinesInv where
  cs := by simpa only [hdone, hcs, State.midPrimitive, hheld] using h.cs
  rd := by simpa only [hrd, hheld] using h.rd
  held := by simpa only [hheld] using h.held
  busy := by rw [hbusy, hheld, h.busy]

theorem State.finishWrite_linesInv {s : State} (hrd : s.rd = .high) : s.finishWrite.LinesInv :=
  State.linesInv_ret _ (fun _ => rfl) (by simpa using hrd)

theorem State.finishRead_linesInv (s : State) : s.finishRead.LinesInv :=
  State.linesInv_ret _ (by simp) (by simp)

/-- The peripheral drives no line. -/
@[simp] theorem State.peripheralStep_rd (s : State) : s.peripheralStep.rd = s.rd :=
  State.peripheralStep_keeps (P := fun t => t.rd = s.rd) (fun _ h => by simpa using h) (fun _ h => by simpa using h)
    (fun _ h => by simpa using h) rfl

theorem State.sendBeats_linesInv {s : State} (vs : List Beat) (hrd : s.rd = .high) :
    (State.sendBeats vs s).LinesInv :=
  State.sendBeats_keeps (P := fun t => t.rd = .high) (Q := State.LinesInv) (write := fun _ _ h => by simpa using h)
    (serve := fun _ h => by simpa using h) (clear := fun _ h => by simpa using h)
    (finish := fun _ h => State.finishWrite_linesInv h) (onReady := fun _ _ h => State.linesInv_hold rfl fun _ => h)
    (onFlags := fun _ _ h => State.linesInv_hold rfl fun _ => h) vs hrd

theorem State.sampleBeat_linesInv (s : State) : s.sampleBeat.LinesInv :=
  State.sampleBeat_keeps (P := fun _ => True) (Q := State.LinesInv) (start := fun _ _ => trivial)
    (serve := fun _ _ => trivial) (clear := fun _ _ => trivial) (finish := fun u _ => u.finishRead_linesInv)
    (onFlags := fun _ _ => State.linesInv_hold rfl fun h => absurd rfl h) trivial

/-! ### The exposed operations -/

/-- The lines as every operation outside a held-up primitive finds them. -/
structure State.LinesHigh (s : State) : Prop where
  cs : s.done = true → s.cs = .high
  rd : s.rd = .high

theorem State.LinesInv.high {s : State} (h : s.LinesInv) (hm : s.midPrimitive = false) : s.LinesHigh where
  cs := fun hd => h.cs hd hm
  rd := h.rd fun hh => by simp [State.midPrimitive, hh] at hm

/-- A transfer operation that is exposed leaves the levels if its body does: to hold on `done` happens in a session. -/
theorem admitTransfer_linesInv {i : Instr} {s t : State} {run : State → Result} (hi : i.isExposed = true)
    (hs : s.LinesHigh) (hrun : s.done = true → run s = .next t → t.LinesInv) (h : admitTransfer i s run = .next t) :
    t.LinesInv := by
  obtain ⟨-, -, ⟨hd, hr⟩ | ⟨hd, rfl⟩⟩ := admitTransfer_eq_next h
  · exact hrun hd hr
  · exact
      { cs := fun h _ => by simp [hd] at h
        rd := fun _ => hs.rd
        held := fun j hj => by cases hj; exact hi
        busy := rfl }

theorem execInit_linesInv {sel : BitVec 8} {s t : State} (h : execInit sel s = .next t) : t.LinesInv := by
  obtain ⟨-, -, hr⟩ := admitControl_eq_next h
  cases hr
  exact State.linesInv_ret _ (by simp) (by simp)

theorem writePrimitive_linesInv {i : Instr} {dc : Level} {beats : State → List Beat} {s t : State}
    (hi : i.isExposed = true) (hs : s.LinesHigh) (h : writePrimitive i dc beats s = .next t) : t.LinesInv :=
  admitTransfer_linesInv hi hs (fun _ hr => by
    cases hr
    exact State.sendBeats_linesInv _ (by simpa [State.select] using hs.rd)) h

theorem readPrimitive_linesInv {i : Instr} {dc : Level} {s t : State} (hi : i.isExposed = true) (hs : s.LinesHigh)
    (h : readPrimitive i dc s = .next t) : t.LinesInv :=
  admitTransfer_linesInv hi hs (fun _ hr => by
    cases hr
    exact State.sampleBeat_linesInv _) h

theorem startBurst_linesInv {cb : Bool} {base : Nat} {count : BitVec 32} {s t : State} (hs : s.LinesHigh)
    (h : startBurst cb base count s = .next t) : t.LinesInv := by
  obtain ⟨-, -, ⟨-, -, rfl⟩ | ⟨-, rfl⟩⟩ := startBurst_eq_next h
  · exact { cs := fun hd _ => hs.cs hd, rd := fun _ => hs.rd, held := by simp, busy := rfl }
  · exact State.linesInv_ret _ (by simp) (by simpa using hs.rd)

/-- Every exposed operation leaves chip-select and the read strobe as `LinesInv` says. -/
theorem exec_linesInv {i : Instr} {s t : State} (hi : i.isExposed = true) (hs : s.LinesHigh)
    (h : exec i s = .next t) : t.LinesInv := by
  cases i with
  | selchip | deselchip | selcmd | seldata | rdlow | rdhigh | config => cases hi
  | init sel => exact execInit_linesInv h
  | wrcmd | wrdata | wrdata16 =>
    simp only [exec, execWrcmd, execWrdata, execWrdata16] at h
    exact writePrimitive_linesInv hi hs h
  | rddata | rdstatus => exact readPrimitive_linesInv hi hs h
  | burst cb base count => exact admitTransfer_linesInv hi hs (fun _ => startBurst_linesInv hs) h

/-! ### The moves -/

theorem shifterEmptyHandler_linesInv {s t : State} (hs : s.LinesInv) (h : shifterEmptyHandler s = .next t) :
    t.LinesInv := by
  obtain ⟨-, rfl⟩ | ⟨-, -, rfl⟩ | ⟨-, o, -, -, rfl⟩ := shifterEmptyHandler_eq_next h <;>
    exact hs.congr rfl rfl rfl rfl rfl

/-- The end of a session deasserts chip-select. -/
theorem burstCompleteHandler_linesInv {s t : State} (hs : s.LinesInv) (h : burstCompleteHandler s = .next t) :
    t.LinesInv := by
  obtain ⟨-, ⟨-, rfl⟩ | ⟨-, -, rfl⟩⟩ := burstCompleteHandler_eq_next h
  · exact hs.congr rfl rfl rfl rfl rfl
  · exact { cs := fun _ _ => rfl, rd := hs.rd, held := hs.held, busy := hs.busy }

theorem acceptNext_linesInv {s t : State} (hs : s.LinesInv) (hm : s.canMove .accept = true)
    (hport : ∀ i rest, decode s.params.addrWidth s.port = .ok (i, rest) → i.isExposed = true)
    (h : acceptNext s = .next t) : t.LinesInv := by
  obtain rfl | ⟨i, rest, hd, hx⟩ := acceptNext_eq_next h
  · exact hs
  · have hhigh := hs.high (State.free_of_accept hs.busy hm)
    exact exec_linesInv (s := { s with port := rest }) (hport i rest hd) { hhigh with } hx

theorem resumeHeld_linesInv {s t : State} (hs : s.LinesInv) (h : resumeHeld s = .next t) : t.LinesInv := by
  have hrd : s.held ≠ some .onReadFlags → s.rd = .high := hs.rd
  unfold resumeHeld at h
  split at h
  · cases h
    exact hs
  · rename_i i hh
    exact exec_linesInv (hs.held i hh) (hs.high (by simp [State.midPrimitive, hh])) h
  · rename_i vs hh
    cases h
    exact State.sendBeats_linesInv _ (hrd (by simp [hh]))
  · rename_i vs hh
    cases h
    exact State.sendBeats_linesInv _ (by simpa using hrd (by simp [hh]))
  · cases h
    exact State.finishRead_linesInv _

theorem perform_linesInv {m : Move} {s t : State} (hs : s.LinesInv) (hm : s.canMove m = true)
    (hport : ∀ i rest, decode s.params.addrWidth s.port = .ok (i, rest) → i.isExposed = true)
    (h : perform m s = .next t) : t.LinesInv := by
  cases m with
  | shifterEmpty => exact shifterEmptyHandler_linesInv (s := s.spendInterrupt) { hs with } h
  | burstComplete => exact burstCompleteHandler_linesInv (s := s.spendInterrupt) { hs with } h
  | bankLoad | writeBeat | readBeat => cases h; exact hs.congr (by simp) (by simp) (by simp) (by simp) (by simp)
  | accept => exact acceptNext_linesInv hs hm hport h
  | resume => exact resumeHeld_linesInv hs h
  | hostStore =>
    obtain rfl | ⟨c, cs, -, -, rfl⟩ := hostStoreNext_eq_next h
    · exact hs
    · exact hs.congr rfl rfl rfl rfl rfl

/-- Settles O52: every exposed operation returns with chip-select and the read strobe high, or holds inside its own
primitive; the moves of the other agents drive chip-select high only. -/
theorem exposedOperationsLeaveTheLinesDeasserted : Obligations.ExposedOperationsLeaveTheLinesDeasserted := by
  intro s t hs hport h
  refine step_induction (P := fun u v => u.LinesInv →
    (∀ i rest, decode u.params.addrWidth u.port = .ok (i, rest) → i.isExposed = true) → v.LinesInv) h
    (fun _ hu _ => hu) (fun u v hP hu hp => ?_) (fun m u v hm hv hu hp => perform_linesInv hu hm hp hv) hs hport
  exact hP (hu.congr (by simp) (by simp) (by simp) (by simp) (by simp)) (by simpa using hp)

end Sys2Proof.Machine

/-! The invariant (10_state.md R46, R50): it holds at reset, and every operation and every move keeps it. -/

namespace Sys2Proof.Machine

/-! ### Bursts -/

theorem ceilDiv_zero {b : Nat} (hb : 0 < b) : ceilDiv 0 b = 0 :=
  Nat.div_eq_of_lt (by omega)

theorem ceilDiv_of_lt {a b : Nat} (h0 : 0 < a) (h : a < b) : ceilDiv a b = 1 :=
  Nat.div_eq_of_lt_le (by omega) (by omega)

/-- A full burst taken off the length is one burst fewer. -/
theorem ceilDiv_of_le {a b : Nat} (hb : 0 < b) (h : b ≤ a) : ceilDiv a b = ceilDiv (a - b) b + 1 := by
  unfold ceilDiv
  rw [← Nat.add_div_right _ hb]
  congr 1
  omega

theorem ceilDiv_pos {a b : Nat} (hb : 0 < b) (h : 0 < a) : 0 < ceilDiv a b :=
  Nat.div_pos (by omega) hb

theorem ceilDiv_le {a b : Nat} (hb : 0 < b) : ceilDiv a b ≤ a := by
  obtain rfl | ha := Nat.eq_zero_or_pos a
  · rw [ceilDiv_zero hb]
  · refine Nat.div_le_of_le_mul ?_
    rw [Nat.mul_comm]
    exact Nat.add_sub_one_le_mul ha.ne' hb.ne'

@[simp] theorem oneIf_true : oneIf true = 1 := rfl
@[simp] theorem oneIf_false : oneIf false = 0 := rfl

theorem oneIf_eq_zero {b : Bool} : oneIf b = 0 ↔ b = false := by
  cases b <;> simp

theorem Params.bytesPerBeat_dvd_burstBytes (p : Params) : p.bytesPerBeat ∣ p.burstBytes :=
  Nat.dvd_mul_left _ _

theorem Params.burstBeats_pos {p : Params} (h : p.wf = true) : 0 < p.burstBeats := by
  obtain ⟨h1, h2, -⟩ := (Params.wf_iff p).1 h
  exact Nat.mul_pos h1 h2

/-- The length of a buffer is a whole number of beats (00_scope.md R9). -/
theorem burstLength_beats {p : Params} (h : p.wf = true) (count : BitVec 32) :
    burstLength p count % p.bytesPerBeat = 0 := by
  obtain ⟨-, -, -, -, h5⟩ := (Params.wf_iff p).1 h
  exact Nat.mod_eq_zero_of_dvd ((Nat.dvd_of_mod_eq_zero h5).mul_left _)

theorem burstLength_pos {p : Params} (h : p.wf = true) {count : BitVec 32} (h0 : count ≠ 0) :
    0 < burstLength p count := by
  obtain ⟨-, -, -, h4, -⟩ := (Params.wf_iff p).1 h
  exact Nat.mul_pos (by bv_omega) h4

theorem dividerOfSelector_legal (sel : BitVec 8) : dividerOfSelector sel ∈ legalDividers := by
  unfold dividerOfSelector
  split <;> decide

theorem legalDividers_ne_zero {d : BitVec 8} (h : d ∈ legalDividers) : d ≠ 0 := by
  rintro rfl
  exact absurd h (by decide)

/-! ### Widths -/

theorem fitBus_fitBus (p : Params) (v : Beat) : fitBus p (fitBus p v) = fitBus p v := by
  unfold fitBus
  cases p.busWidth
  · simp
  · rfl

/-- The beats of a 16-bit value fit the bus. -/
theorem fitBus_of_mem_wordBeats {p : Params} {w : BitVec 16} {v : Beat} (h : v ∈ wordBeats p w) : fitBus p v = v := by
  unfold wordBeats at h
  split at h
  · rcases List.mem_pair.1 h with rfl | rfl <;> exact fitBus_byteBeat _ _
  · rename_i hw
    simp [fitBus, hw]

theorem beatBytes_length {p : Params} (h : p.wf = true) (v : Beat) : (beatBytes p v).length = p.shifterBytes := by
  obtain ⟨-, h2, -⟩ := (Params.wf_iff p).1 h
  unfold beatBytes Params.shifterBytes Params.bytesPerBeat
  cases p.busWidth <;> simp <;> omega

/-- The two registers of a lane are `SHIFTER_WIDTH` bits wide (10_state.md R31, R32). -/
def Lane.Wide (p : Params) (l : Lane) : Prop := l.buf.length = p.shifterBytes ∧ l.sreg.length = p.shifterBytes

theorem Lane.cleared_wide (p : Params) : (Lane.cleared p).Wide p :=
  ⟨List.length_replicate, List.length_replicate⟩

theorem Lane.Wide.shiftIn {p : Params} {l : Lane} (h : l.Wide p) : l.shiftIn.Wide p := ⟨h.1, h.1⟩

theorem Lane.sent_wide {p : Params} (h : p.wf = true) (v : Beat) : (Lane.sent p v).Wide p :=
  ⟨beatBytes_length h v, beatBytes_length h v⟩

/-- A bank loaded from enough bytes keeps its width. -/
theorem loadLanes_wide {p : Params} {ls : List Lane} {d : List Byte} (hls : ∀ l ∈ ls, l.Wide p)
    (hd : ls.length * p.shifterBytes ≤ d.length) : ∀ l ∈ loadLanes p.shifterBytes ls d, l.Wide p := by
  induction ls generalizing d with
  | nil => simp [loadLanes]
  | cons k ls ih =>
    rw [List.length_cons, Nat.succ_mul] at hd
    intro l hl
    rcases List.mem_cons.1 hl with rfl | hl
    · exact ⟨by rw [List.length_take]; omega, (hls k List.mem_cons_self).2⟩
    · exact ih (fun l hl => hls l (List.mem_cons_of_mem k hl)) (by rw [List.length_drop]; omega) l hl

/-! ### The shifter bank -/

/-- A bank that has lanes is not both free and taken. -/
theorem State.bankFull_eq_false {s : State} (hne : s.bank ≠ []) (h : s.allReady = true) : s.bankFull = false := by
  obtain ⟨l, ls, hb⟩ := List.exists_cons_of_ne_nil hne
  simp only [State.allReady, hb, List.all_cons, Bool.and_eq_true] at h
  simp [State.bankFull, hb, h.1]

theorem cleared_allReady (n : Nat) (p : Params) : (List.replicate n (Lane.cleared p)).all (·.rdy) = true := by
  simp [Lane.cleared]

theorem loadLanes_full (n : Nat) (ls : List Lane) (d : List Byte) : (loadLanes n ls d).all (fun l => !l.rdy) = true := by
  simpa using fun l hl => loadLanes_rdy hl

theorem shiftIn_allReady (ls : List Lane) : (ls.map Lane.shiftIn).all (·.rdy) = true := by
  simp [Lane.shiftIn]

/-! ### The reset -/

theorem State.inv_resetWith {p : Params} (h : p.wf = true) : (State.resetWith p).Inv where
  params := h
  mem := rfl
  mem_space := fun c hc => absurd hc List.not_mem_nil
  stores_space := fun c hc => absurd hc List.not_mem_nil
  bank := List.length_replicate
  lanes := fun _ hl => mem_resetWith_bank hl ▸ Lane.cleared_wide p
  scratch := List.length_replicate
  rxdata := by unfold fitBus; split <;> rfl
  divider := .inl rfl
  enable := by simp [State.resetWith]
  configured := fun hm => absurd rfl hm
  inIrq := rfl
  inCallback := rfl
  base_width := Nat.two_pow_pos _
  busy := rfl
  held := fun i hi => by cases hi
  heldUp := fun hm => by cases hm
  beats := Nat.zero_le _
  idle := fun _ => ⟨rfl, rfl, fun _ => rfl, fun _ => cleared_allReady _ _⟩
  session := fun hd => by cases hd

theorem State.linesInv_resetWith (p : Params) : (State.resetWith p).LinesInv where
  cs := fun _ _ => rfl
  rd := fun _ => rfl
  held := fun i hi => by cases hi
  busy := rfl

/-- Settles O48: the reset state clause by clause; CFG-A is legal. -/
theorem resetHasTheInvariant : Obligations.ResetHasTheInvariant :=
  ⟨fun p h => ⟨State.inv_resetWith h, State.linesInv_resetWith p⟩, State.inv_resetWith (by decide)⟩

/-! ### What the invariant does not read -/

/-- The invariant does not read the read strobe, the callback, the port, the logs, the oracle, the schedule or the supply of
interrupt steps. -/
theorem State.Inv.congr {s t : State} (h : s.Inv)
    (e : t = { s with
      rd := t.rd, cbSlot := t.cbSlot, trace := t.trace, port := t.port, responses := t.responses, busIn := t.busIn
      interruptSteps := t.interruptSteps, sched := t.sched, tick := t.tick }) : t.Inv := by
  rw [e]
  exact
    { h with
      heldUp := fun hm => { h.heldUp hm with }
      idle := fun hd => { h.idle hd with }
      session := fun hd => { h.session hd with } }

theorem State.Inv.afterChoice {s : State} (h : s.Inv) : s.afterChoice.Inv :=
  h.congr (by unfold State.afterChoice; split <;> rfl)

theorem State.Inv.spendInterrupt {s : State} (h : s.Inv) : s.spendInterrupt.Inv := h.congr rfl

theorem State.Inv.takePort {s : State} (h : s.Inv) (rest : List PortWord) : ({ s with port := rest } : State).Inv :=
  h.congr rfl

/-- During a session no primitive is held up. -/
theorem State.Inv.free_of_active {s : State} (h : s.Inv) (hd : s.done = false) : s.midPrimitive = false := by
  by_contra hm
  have := (h.heldUp (by simpa using hm)).done
  simp [hd] at this

theorem State.Inv.bank_ne_nil {s : State} (h : s.Inv) : s.bank ≠ [] := by
  obtain ⟨h1, -⟩ := (Params.wf_iff _).1 h.params
  exact List.ne_nil_of_length_pos (by rw [h.bank]; omega)

/-! ### Between the actions of an operation that has been admitted -/

/-- An operation runs: no session is active and no primitive is held up. -/
structure State.Running (s : State) : Prop where
  inv : s.Inv
  done : s.done = true
  free : s.midPrimitive = false

/-- What the invariant does not read outside a session, an action may change. -/
theorem State.Running.congr {s t : State} (h : s.Running)
    (e : t = { s with
      cs := t.cs, dc := t.dc, rd := t.rd, cbSlot := t.cbSlot, trace := t.trace, responses := t.responses
      peripheralSteps := t.peripheralSteps }) : t.Running := by
  rw [e]
  refine ⟨?_, h.done, h.free⟩
  exact
    { h.inv with
      heldUp := fun hm => absurd (h.free.symm.trans hm) Bool.false_ne_true
      idle := fun hd => { h.inv.idle hd with }
      session := fun hd => by simp [h.done] at hd }

theorem State.Running.drive {s : State} (h : s.Running) (l : Line) (v : Level) : (s.drive l v).Running :=
  h.congr (by cases l <;> rfl)

theorem State.Running.select {s : State} (h : s.Running) (dc : Level) : (s.select dc).Running :=
  (h.drive .cs .low).drive .dc dc

/-- An operation that returns leaves nothing held. -/
theorem State.Running.ret {s : State} (h : s.Running) (r : Response) : (s.ret r).Running := by
  have k := h.inv.idle h.done
  refine ⟨?_, h.done, rfl⟩
  exact
    { h.inv with
      busy := rfl
      held := fun i hi => by cases hi
      heldUp := fun hm => by cases hm
      idle := fun _ => ⟨k.sien, k.tien, fun _ => k.beatsLeft h.free, fun _ => k.ready h.free⟩
      session := fun hd => by simp [h.done] at hd }

/-- A peripheral reset, with a mode, an enable and a divider that agree. -/
theorem State.Running.reset {s : State} (h : s.Running) {d : BitVec 8} {m : Mode} {pen : Bool} {c : BitVec 16}
    (hd : d = 0 ∨ d ∈ legalDividers) (hpen : pen = true ↔ m ≠ .idle) (hm : m ≠ .idle → d ≠ 0)
    (hheld : s.divider ≠ 0 → d ≠ 0) :
    ({ s.periphReset with divider := d, mode := m, pen := pen, timcmp := c } : State).Running := by
  refine ⟨?_, h.done, h.free⟩
  exact
    { h.inv with
      bank := List.length_replicate
      lanes := fun l hl => List.eq_of_mem_replicate hl ▸ Lane.cleared_wide s.params
      divider := hd
      enable := hpen
      configured := hm
      held := fun i hi => (h.inv.held i hi).imp_right hheld
      heldUp := fun hm => absurd (h.free.symm.trans hm) Bool.false_ne_true
      beats := Nat.zero_le _
      idle := fun _ => ⟨rfl, rfl, fun _ => rfl, fun _ => cleared_allReady _ _⟩
      session := fun hd => by simp [h.done] at hd }

theorem State.configure_eq (s : State) (m : Mode) :
    s.configure m =
      { s.periphReset with divider := s.divider, mode := m, pen := true, timcmp := (s.configure m).timcmp } := by
  cases m <;> rfl

theorem State.Running.configure {s : State} (h : s.Running) {m : Mode} (hm : m ≠ .idle) (hd : s.divider ≠ 0) :
    (s.configure m).Running := by
  rw [State.configure_eq]
  exact h.reset h.inv.divider (by simp [hm]) (fun _ => hd) id

/-- A transfer operation keeps the invariant if its body does: to hold on `done` is no primitive held up. -/
theorem admitTransfer_inv {i : Instr} {s t : State} {run : State → Result} (hs : s.Inv) (hi : i.isTransfer = true)
    (hm : s.midPrimitive = false) (hrun : s.Running → s.divider ≠ 0 → run s = .next t → t.Inv)
    (h : admitTransfer i s run = .next t) : t.Inv := by
  obtain ⟨-, hdiv, ⟨hd, hr⟩ | ⟨hd, rfl⟩⟩ := admitTransfer_eq_next h
  · exact hrun ⟨hs, hd, hm⟩ hdiv hr
  · exact
      { hs with
        busy := rfl
        held := fun j hj => by cases hj; exact ⟨hi, hdiv⟩
        heldUp := fun hm => by cases hm
        idle := fun h => by simp [hd] at h
        session := fun _ => { hs.session hd with } }

/-! ### The strobe operations, INIT and CONFIG -/

theorem strobe_inv {l : Line} {v : Level} {s t : State} (hs : s.Inv) (hm : s.midPrimitive = false)
    (h : strobe l v s = .next t) : t.Inv := by
  obtain ⟨-, hd, hr⟩ := admitControl_eq_next h
  have hrun : s.Running := ⟨hs, hd, hm⟩
  cases hr
  exact ((hrun.drive l v).ret .ack).inv

theorem execInit_inv {sel : BitVec 8} {s t : State} (hs : s.Inv) (hm : s.midPrimitive = false)
    (h : execInit sel s = .next t) : t.Inv := by
  obtain ⟨-, hd, hr⟩ := admitControl_eq_next h
  have hrun : s.Running := ⟨hs, hd, hm⟩
  have hlegal := dividerOfSelector_legal sel
  have hreset := hrun.reset (m := .idle) (pen := false) (c := 0) (.inr hlegal) (by simp) (fun h => absurd rfl h)
    (fun _ => legalDividers_ne_zero hlegal)
  cases hr
  exact (((hreset.drive .cs .high).drive .rd .high).ret .ack).inv

theorem execConfig_inv {m : Mode} {s t : State} (hs : s.Inv) (hm : s.midPrimitive = false)
    (h : execConfig m s = .next t) : t.Inv := by
  obtain ⟨-, hd, hr⟩ := admitControl_eq_next h
  have hrun : s.Running := ⟨hs, hd, hm⟩
  split at hr
  · cases hr
  · rename_i hidle
    split at hr
    · cases hr
    · rename_i hdiv
      cases hr
      exact ((hrun.configure hidle hdiv).ret .ack).inv

/-! ### The synchronous primitives -/

/-- A primitive that holds on its flags with a stuck peripheral keeps the invariant. -/
theorem State.Running.holdUp {s t : State} (h : s.Running)
    (e : t = { s with
      bank := t.bank, beatsLeft := t.beatsLeft, beatIdx := t.beatIdx, fgBusy := true, held := t.held
      peripheralSteps := t.peripheralSteps })
    (hheld : (∃ vs, t.held = some (.onWriteFlags vs)) ∨ t.held = some .onReadFlags)
    (hstuck : t.peripheralSteps = some 0) (hmode : s.mode = .singleBeatWrite ∨ s.mode = .singleBeatRead)
    (hflags : s.doneFlags = false) (hbank : t.bank.length = s.params.shifters)
    (hlanes : ∀ l ∈ t.bank, l.Wide s.params) (hbeats : t.beatIdx.toNat + t.beatsLeft.toNat ≤ s.params.burstBeats) :
    t.Inv := by
  have k := h.inv.idle h.done
  have hmid : t.midPrimitive = true := by
    rcases hheld with ⟨vs, hh⟩ | hh <;> simp [State.midPrimitive, hh]
  have hready : ∀ vs, t.held ≠ some (.onReady vs) := by
    rcases hheld with ⟨vs, hh⟩ | hh <;> simp [hh]
  have hdone : ∀ i, t.held ≠ some (.onDone i) := by
    rcases hheld with ⟨vs, hh⟩ | hh <;> simp [hh]
  have hsome : true = t.held.isSome := by
    rcases hheld with ⟨vs, hh⟩ | hh <;> simp [hh]
  rw [e] at hmid ⊢
  exact
    { h.inv with
      bank := hbank
      lanes := hlanes
      busy := hsome
      held := fun i hi => absurd hi (hdone i)
      heldUp := fun _ => { stuck := hstuck, done := h.done, mode := hmode, flags := hflags, ready := hready }
      beats := hbeats
      idle := fun _ => ⟨k.sien, k.tien, fun hm => by simp [hmid] at hm, fun hm => by simp [hmid] at hm⟩
      session := fun hd => by simp [h.done] at hd }

theorem State.Running.oneWriteBeat {s : State} (h : s.Running) (hb : s.BeatReady) {v : Beat}
    (hv : fitBus s.params v = v) : (s.oneWriteBeat v).Running := by
  obtain ⟨l, ls, hbank, -⟩ := hb.first
  have k := h.inv.idle h.done
  have hlen := h.inv.bank
  have hwide := h.inv.lanes
  have hready := k.ready h.free
  have hbeats := Params.burstBeats_pos h.inv.params
  rw [hbank] at hlen hwide
  simp only [State.allReady, hbank, List.all_cons, Bool.and_eq_true] at hready
  rw [State.oneWriteBeat_eq hb.mode hbank hb.timcmp hv]
  refine ⟨?_, h.done, h.free⟩
  exact
    { h.inv with
      bank := hlen
      lanes := List.forall_mem_cons.2 ⟨Lane.sent_wide h.inv.params v, (List.forall_mem_cons.1 hwide).2⟩
      heldUp := fun hm => absurd (h.free.symm.trans hm) Bool.false_ne_true
      beats := hbeats
      idle := fun _ => ⟨k.sien, k.tien, fun _ => rfl, fun _ => hready.2⟩
      session := fun hd => by simp [h.done] at hd }

/-- Sending beats keeps the invariant: each beat is sent whole, or the primitive is held up by a stuck peripheral. -/
theorem State.Running.sendBeats {s : State} (h : s.Running) (hb : s.BeatReady) {vs : List Beat}
    (hv : ∀ v ∈ vs, fitBus s.params v = v) : (State.sendBeats vs s).Inv := by
  induction vs generalizing s with
  | nil => exact ((h.drive .cs .high).ret .ack).inv
  | cons v vs ih =>
    obtain ⟨hv0, hvs⟩ := List.forall_mem_cons.1 hv
    obtain ⟨l, ls, hbank, -⟩ := hb.first
    have hw := State.writeShiftBuf0_cons (beatBytes s.params v) hbank
    have hlen := h.inv.bank
    have hwide : ∀ l ∈ s.bank, l.Wide s.params := h.inv.lanes
    rw [hbank] at hlen hwide
    obtain ⟨hwide0, hwides⟩ := List.forall_mem_cons.1 hwide
    have hbytes := beatBytes_length h.inv.params v
    have hflags : s.doneFlags = false := by simp [State.doneFlags, hb.sdone]
    obtain ⟨-, e⟩ | ⟨hk, e⟩ | ⟨hk, e⟩ := hb.send_cases v vs <;> rw [e]
    · exact ih ((h.oneWriteBeat hb hv0).congr rfl) { hb.next v with } (by simpa [State.oneWriteBeat] using hvs)
    · rw [hw]
      exact h.holdUp rfl (.inl ⟨vs, rfl⟩) hk (.inl hb.mode) hflags hlen
        (List.forall_mem_cons.2 ⟨⟨hbytes, hwide0.2⟩, hwides⟩) h.inv.beats
    · have hload := (hb.loaded (beatBytes s.params v)).1
      have hshift := State.bankLoad_single_bank (s := s.writeShiftBuf0 (beatBytes s.params v)) (by simp [hb.mode])
        (by rw [hw])
      refine h.holdUp (by rw [hw]; rfl) (.inl ⟨vs, rfl⟩) rfl (.inl hb.mode) hflags ?_ ?_ ?_
      · exact (congrArg List.length hshift).trans hlen
      · intro l hl
        exact List.forall_mem_cons.2 ⟨⟨hbytes, hbytes⟩, hwides⟩ l (hshift ▸ hl)
      · show (0#8).toNat + (s.writeShiftBuf0 (beatBytes s.params v)).bankLoad.beatsLeft.toNat ≤ _
        rw [hload]
        exact Params.burstBeats_pos h.inv.params

theorem writePrimitive_inv {i : Instr} {dc : Level} {beats : State → List Beat} {s t : State} (hs : s.Inv)
    (hi : i.isTransfer = true) (hm : s.midPrimitive = false) (hv : ∀ v ∈ beats s, fitBus s.params v = v)
    (h : writePrimitive i dc beats s = .next t) : t.Inv :=
  admitTransfer_inv hs hi hm (fun hrun hdiv hr => by
    cases hr
    exact ((hrun.configure (by decide) hdiv).select dc).sendBeats (State.select_beatReady hs.params dc)
      (by simpa using hv)) h

/-- `OneReadBeat` with its hold lifted: one sample drawn, stamped and stored, nothing in flight, the flags clear. -/
theorem State.oneReadBeat_eq (s : State) :
    s.startRead.readBeat.clearDoneFlags = { s with
      beatsLeft := 0
      beatIdx := 0
      sdone := false
      tsf := false
      rxdata := s.nextBusIn
      busIn := s.busIn.tail
      trace := s.trace ++ [.rbeat s.cs s.dc s.rd s.nextBusIn] } := by
  have hin : s.startRead.nextBusIn = s.nextBusIn := rfl
  simp only [State.readBeat, State.rbeat, hin]
  rfl

theorem State.fitBus_nextBusIn (s : State) : fitBus s.params s.nextBusIn = s.nextBusIn := fitBus_fitBus _ _

/-- A read beat leaves a sample of `BUS_WIDTH` bits. -/
theorem State.Running.oneReadBeat {s : State} (h : s.Running) : s.startRead.readBeat.clearDoneFlags.Running := by
  have k := h.inv.idle h.done
  rw [State.oneReadBeat_eq]
  refine ⟨?_, h.done, h.free⟩
  exact
    { h.inv with
      rxdata := s.fitBus_nextBusIn
      heldUp := fun hm => absurd (h.free.symm.trans hm) Bool.false_ne_true
      beats := Nat.zero_le _
      idle := fun _ => ⟨k.sien, k.tien, fun _ => rfl, k.ready⟩
      session := fun hd => by simp [h.done] at hd }

theorem State.Running.finishRead {s : State} (h : s.Running) (hd : s.divider ≠ 0) : s.finishRead.Inv :=
  ((((h.drive .rd .high).drive .cs .high).configure (by decide) (by simpa using hd)).ret _).inv

/-- Sampling a beat keeps the invariant: it is sampled, or the primitive is held up by a stuck peripheral. -/
theorem State.Running.sampleBeat {s : State} (h : s.Running) (hp : s.pen = true) (hm : s.mode = .singleBeatRead)
    (ht : s.timcmp = compareValue 1 s.divider) (hs : s.sdone = false) : s.sampleBeat.Inv := by
  by_cases hk : s.peripheralSteps = some 0
  · rw [State.sampleBeat_stuck hs hk]
    refine h.holdUp rfl (.inr rfl) hk (.inr hm) (by simp [State.doneFlags, hs]) h.inv.bank h.inv.lanes ?_
    show (0#8).toNat + (beatsOfCompare s.timcmp).toNat ≤ _
    rw [ht, beatsOfCompare_compareValue (by omega) (by omega)]
    exact Params.burstBeats_pos h.inv.params
  · rw [State.sampleBeat_served hp hm ht ((takesSteps_one _).2 hk)]
    exact (h.oneReadBeat.congr rfl).finishRead (h.inv.configured (by simp [hm]))

theorem readPrimitive_inv {i : Instr} {dc : Level} {s t : State} (hs : s.Inv) (hi : i.isTransfer = true)
    (hm : s.midPrimitive = false) (h : readPrimitive i dc s = .next t) : t.Inv :=
  admitTransfer_inv hs hi hm (fun hrun hdiv hr => by
    cases hr
    exact (((hrun.configure (by decide) hdiv).select dc).drive .rd .low).sampleBeat (by simp [State.select])
      (by simp [State.select]) (by simp [State.select]) (by simp [State.select])) h

/-! ### BURST -/

/-- A session opens with nothing loaded and every burst outstanding. -/
theorem State.Running.openSession {s : State} (h : s.Running) (hmode : s.mode = .multiBeatBurst)
    (htsf : s.tsf = false) {base total : Nat} (r : Response) (hpos : 0 < total) (hlt : total < 2 ^ 32)
    (hbeats : total % s.params.bytesPerBeat = 0) (hfits : base + total ≤ 2 ^ s.params.addrWidth) :
    ((((((s.openSession base total).drive .cs .low).drive .dc .high).primeCompare
      s.params.burstBeats).armInterrupts).ret r).Inv := by
  have k := h.inv.idle h.done
  have hbb := Params.burstBytes_pos h.inv.params
  have hready : s.allReady = true := k.ready h.free
  have hfull : s.bankFull = false := State.bankFull_eq_false h.inv.bank_ne_nil hready
  have hleft : s.beatsLeft = 0 := k.beatsLeft h.free
  have htotal : (BitVec.ofNat 32 total).toNat = total := by
    rw [BitVec.toNat_ofNat]
    exact Nat.mod_eq_of_lt hlt
  have hbursts : (BitVec.ofNat 32 (ceilDiv total s.params.burstBytes)).toNat = ceilDiv total s.params.burstBytes := by
    rw [BitVec.toNat_ofNat]
    exact Nat.mod_eq_of_lt ((ceilDiv_le hbb).trans_lt hlt)
  have hne : BitVec.ofNat 32 total ≠ 0 := fun h0 => by simp [h0] at htotal; omega
  exact
    { h.inv with
      scratch := by
        show (if _ then s.finalBurstBuffer else _ : List Byte).length = s.params.burstBytes
        have := Nat.mod_lt total hbb
        split
        · exact h.inv.scratch
        · simp
          omega
      base_width := show base < 2 ^ s.params.addrWidth by omega
      busy := rfl
      held := fun i hi => by cases hi
      heldUp := fun hm => by cases hm
      idle := fun hd => by cases hd
      session := fun _ =>
        { mode := hmode
          tien := rfl
          cs := rfl
          dc := rfl
          total_pos := hpos.trans_eq htotal.symm
          total_beats := htotal.symm ▸ hbeats
          buffer_fits := htotal.symm ▸ hfits
          remaining_le := le_rfl
          cursor := fun _ => ⟨congrArg Cursor.live (Nat.sub_self _).symm, by simp⟩
          uniform := .inl hready
          count := by
            show (BitVec.ofNat 32 (ceilDiv total s.params.burstBytes)).toNat =
              ceilDiv (BitVec.ofNat 32 total).toNat s.params.burstBytes + oneIf s.bankFull +
                oneIf (decide (s.beatsLeft ≠ 0)) + oneIf s.tsf
            rw [hbursts, htotal, hfull, hleft, htsf]
            rfl
          count_pos := fun h0 => (ceilDiv_pos hbb hpos).ne' (hbursts.symm.trans (congrArg BitVec.toNat h0))
          sien_off := fun hoff => by cases hoff
          sien_on := fun _ h0 => absurd h0 hne
          compare := ⟨s.params.burstBeats, Params.burstBeats_pos h.inv.params, le_rfl, rfl⟩
          compare_full := fun _ => rfl } }

/-- BURST keeps the invariant: with an empty buffer the callback alone, else a session that owes every burst. -/
theorem startBurst_inv {cb : Bool} {base : Nat} {count : BitVec 32} {s t : State} (hs : s.Running)
    (hdiv : s.divider ≠ 0) (h : startBurst cb base count s = .next t) : t.Inv := by
  obtain ⟨hlt, hfits, ⟨-, -, rfl⟩ | ⟨h0, rfl⟩⟩ := startBurst_eq_next h
  · have hcalled : ({ s with
        cbSlot := cb, trace := s.trace ++ (if cb then [.callback] else []), inCallback := false } : State).Running :=
      hs.congr (by rw [← hs.inv.inCallback])
    exact (hcalled.ret .ack).inv
  · have hslot : ({ s with cbSlot := cb } : State).Running := hs.congr rfl
    have hwf := hs.inv.params
    exact (hslot.configure (by decide) hdiv).openSession (State.configure_mode _ _) (State.configure_tsf _ _) .ack
      (burstLength_pos hwf h0) hlt (burstLength_beats hwf count) hfits

/-- Every operation keeps the invariant, where no primitive is held up. -/
theorem exec_inv {i : Instr} {s t : State} (hs : s.Inv) (hm : s.midPrimitive = false) (h : exec i s = .next t) :
    t.Inv := by
  cases i with
  | selchip | deselchip | selcmd | seldata | rdlow | rdhigh => exact strobe_inv hs hm h
  | init sel => exact execInit_inv hs hm h
  | config m => exact execConfig_inv hs hm h
  | wrcmd b | wrdata b =>
    simp only [exec, execWrcmd, execWrdata] at h
    exact writePrimitive_inv hs rfl hm (by simpa using fitBus_byteBeat s.params b) h
  | wrdata16 w =>
    simp only [exec, execWrdata16] at h
    exact writePrimitive_inv hs rfl hm (fun _ => fitBus_of_mem_wordBeats) h
  | rddata | rdstatus => exact readPrimitive_inv hs rfl hm h
  | burst cb base count => exact admitTransfer_inv hs rfl hm startBurst_inv h

/-! ### The interrupt handlers -/

/-- Outside a session no source is armed, so a pending interrupt is one of a session. -/
theorem State.Inv.active_of_sePending {s : State} (h : s.Inv) (hp : s.sePending = true) :
    s.done = false ∧ s.sien = true ∧ s.allReady = true := by
  simp only [State.sePending, Bool.and_eq_true] at hp
  obtain ⟨⟨-, hsien⟩, hready⟩ := hp
  refine ⟨?_, hsien, hready⟩
  by_contra hd
  simp [(h.idle (by simpa using hd)).sien] at hsien

theorem State.Inv.active_of_tcPending {s : State} (h : s.Inv) (hp : s.tcPending = true) :
    s.done = false ∧ s.tsf = true := by
  simp only [State.tcPending, Bool.and_eq_true] at hp
  obtain ⟨⟨-, htien⟩, htsf⟩ := hp
  refine ⟨?_, htsf⟩
  by_contra hd
  simp [(h.idle (by simpa using hd)).tien] at htien

/-- Loading the bank for one burst keeps the invariant: that burst is still outstanding, now in the shift buffers. -/
theorem State.Inv.refill {s : State} (h : s.Inv) (hd : s.done = false) (hready : s.allReady = true)
    (hsien : s.sien = true) {data : List Byte} {n : BitVec 32} {c : Cursor} {v : BitVec 16}
    (hdata : data.length = s.params.burstBytes)
    (hcount : ceilDiv s.bytesRemaining.toNat s.params.burstBytes = ceilDiv n.toNat s.params.burstBytes + 1)
    (hle : n.toNat ≤ s.bytesRemaining.toNat)
    (hcursor : n ≠ 0 → c = .live (s.totalBytes.toNat - n.toNat) ∧
      (s.totalBytes.toNat - n.toNat) % s.params.burstBytes = 0)
    (hcompare : ∃ k, 1 ≤ k ∧ k ≤ s.params.burstBeats ∧ v = compareValue k s.divider)
    (hfull : n ≠ 0 → v = compareValue s.params.burstBeats s.divider) :
    ({ s with
      timcmp := v, readCursor := c, bytesRemaining := n, bank := loadLanes s.params.shifterBytes s.bank data
      inIrq := false } : State).Inv := by
  have k := h.session hd
  have htaken := loadLanes_full s.params.shifterBytes s.bank data
  have hfree : s.bankFull = false := State.bankFull_eq_false h.bank_ne_nil hready
  exact
    { h with
      bank := (loadLanes_length _ _ _).trans h.bank
      lanes := loadLanes_wide h.lanes (by rw [hdata, h.bank, Params.burstBytes_eq])
      inIrq := rfl
      heldUp := fun hm => absurd ((h.free_of_active hd).symm.trans hm) Bool.false_ne_true
      idle := fun hd' => absurd (hd.symm.trans hd') Bool.false_ne_true
      session := fun _ =>
        { k with
          remaining_le := hle.trans k.remaining_le
          cursor := hcursor
          uniform := .inr htaken
          count := by
            have hbefore := k.count
            show s.burstsRemaining.toNat = ceilDiv n.toNat s.params.burstBytes +
              oneIf ((loadLanes s.params.shifterBytes s.bank data).all (fun l => !l.rdy)) +
                oneIf (decide (s.beatsLeft ≠ 0)) + oneIf s.tsf
            rw [State.burstsOutstanding, hcount, hfree] at hbefore
            rw [htaken, hbefore, oneIf_true, oneIf_false]
          sien_off := fun hoff => absurd (hsien.symm.trans hoff) (by decide)
          sien_on := fun _ _ => .inl htaken
          compare := hcompare
          compare_full := hfull } }

/-- What is left of a session is a whole number of beats. -/
theorem State.SessionInv.remaining_beats {s : State} (k : s.SessionInv) (h0 : s.bytesRemaining ≠ 0) :
    s.params.bytesPerBeat ∣ s.bytesRemaining.toNat := by
  obtain ⟨-, hmod⟩ := k.cursor h0
  have hloaded : s.params.bytesPerBeat ∣ s.totalBytes.toNat - s.bytesRemaining.toNat :=
    (Params.bytesPerBeat_dvd_burstBytes _).trans (Nat.dvd_of_mod_eq_zero hmod)
  have htotal := Nat.dvd_of_mod_eq_zero k.total_beats
  have := Nat.dvd_sub htotal hloaded
  rwa [Nat.sub_sub_self k.remaining_le] at this

theorem shifterEmptyHandler_inv {s t : State} (hs : s.Inv) (hp : s.sePending = true)
    (h : shifterEmptyHandler s = .next t) : t.Inv := by
  obtain ⟨hd, hsien, hready⟩ := hs.active_of_sePending hp
  have k := hs.session hd
  have hbb := Params.burstBytes_pos hs.params
  obtain ⟨h0, rfl⟩ | ⟨h0, hlt, rfl⟩ | ⟨hge, o, ho, -, rfl⟩ := shifterEmptyHandler_eq_next h
  · exact
      { hs with
        inIrq := rfl
        heldUp := fun hm => absurd ((hs.free_of_active hd).symm.trans hm) Bool.false_ne_true
        idle := fun hd' => absurd (hd.symm.trans hd') Bool.false_ne_true
        session := fun _ => { k with sien_off := fun _ => h0, sien_on := fun hon => by cases hon } }
  · have hpos : 0 < s.bytesRemaining.toNat := by bv_omega
    have hbeats : 0 < s.bytesRemaining.toNat / s.params.bytesPerBeat :=
      Nat.div_pos (Nat.le_of_dvd hpos (k.remaining_beats h0)) s.params.bytesPerBeat_pos
    refine hs.refill hd hready hsien hs.scratch ?_ (Nat.zero_le _) (fun hn => absurd rfl hn)
      ⟨_, hbeats, (Nat.div_lt_of_lt_mul ?_).le, rfl⟩ (fun hn => absurd rfl hn)
    · rw [ceilDiv_of_lt hpos hlt, show (0 : BitVec 32).toNat = 0 from rfl, ceilDiv_zero hbb]
    · rwa [Nat.mul_comm]
  · have h0 : s.bytesRemaining ≠ 0 := fun h0 => by simp [h0] at hge; omega
    obtain ⟨hcur, hmod⟩ := k.cursor h0
    have hle := k.remaining_le
    have hn : (s.bytesRemaining - BitVec.ofNat 32 s.params.burstBytes).toNat =
        s.bytesRemaining.toNat - s.params.burstBytes := by
      bv_omega
    have ho' : o = s.totalBytes.toNat - s.bytesRemaining.toNat := by simpa [ho] using hcur
    refine hs.refill hd hready hsien (State.memBytes_length _ _ _) ?_ ?_ ?_ k.compare (fun _ => k.compare_full h0)
    · rw [hn]
      exact ceilDiv_of_le hbb hge
    · rw [hn]
      exact Nat.sub_le _ _
    · intro _
      rw [hn, ho', show s.totalBytes.toNat - (s.bytesRemaining.toNat - s.params.burstBytes) =
        s.totalBytes.toNat - s.bytesRemaining.toNat + s.params.burstBytes by omega]
      exact ⟨rfl, by rw [Nat.add_mod_right]; exact hmod⟩

/-- The burst-complete handler counts the burst whose completion is flagged; at the last one nothing is left anywhere. -/
theorem burstCompleteHandler_inv {s t : State} (hs : s.Inv) (hp : s.tcPending = true)
    (h : burstCompleteHandler s = .next t) : t.Inv := by
  obtain ⟨hd, htsf⟩ := hs.active_of_tcPending hp
  have k := hs.session hd
  have hbb := Params.burstBytes_pos hs.params
  have hfree := hs.free_of_active hd
  have hcount := k.count
  rw [State.burstsOutstanding, htsf] at hcount
  obtain ⟨hne0, ⟨hne1, rfl⟩ | ⟨h1, -, rfl⟩⟩ := burstCompleteHandler_eq_next h
  · exact
      { hs with
        inIrq := rfl
        heldUp := fun hm => absurd (hfree.symm.trans hm) Bool.false_ne_true
        idle := fun hd' => absurd (hd.symm.trans hd') Bool.false_ne_true
        session := fun _ =>
          { k with
            count := by
              show (s.burstsRemaining - 1).toNat = ceilDiv s.bytesRemaining.toNat s.params.burstBytes +
                oneIf s.bankFull + oneIf (decide (s.beatsLeft ≠ 0)) + oneIf false
              have hpred : (s.burstsRemaining - 1).toNat = s.burstsRemaining.toNat - 1 := by bv_omega
              rw [hpred, hcount]
              rfl
            count_pos := by bv_omega } }
  · rw [h1, oneIf_true, show (1 : BitVec 32).toNat = 1 from rfl] at hcount
    have hloaded : s.bytesRemaining = 0 := by
      by_contra h0
      have := ceilDiv_pos hbb (show 0 < s.bytesRemaining.toNat by bv_omega)
      omega
    have hnotfull : s.bankFull = false := oneIf_eq_zero.1 (by omega)
    have hnotsending : decide (s.beatsLeft ≠ 0) = false := oneIf_eq_zero.1 (by omega)
    have hleft : s.beatsLeft = 0 := by simpa using hnotsending
    have hready : s.allReady = true := k.uniform.resolve_right (by simp [hnotfull])
    have hsien : s.sien = false := by
      by_contra hon
      obtain hf | hl := k.sien_on (by simpa using hon) hloaded
      · simp [hnotfull] at hf
      · exact hl hleft
    exact
      { hs with
        inIrq := rfl
        inCallback := rfl
        heldUp := fun hm => absurd (hfree.symm.trans hm) Bool.false_ne_true
        idle := fun _ => ⟨hsien, rfl, fun _ => hleft, fun _ => hready⟩
        session := fun hd' => by cases hd' }

/-! ### The peripheral -/

/-- Outside a session the peripheral has no enabled step. -/
theorem State.Inv.active_of_peripheral {s : State} (h : s.Inv) (hlive : s.peripheralLive = true)
    (hcan : s.canBankLoad = true ∨ s.canWriteBeat = true ∨ s.canReadBeat = true) : s.done = false := by
  by_contra hd
  have k := h.idle (by simpa using hd)
  have hfree : s.midPrimitive = false := by
    by_contra hm
    exact (s.peripheralLive_iff.1 hlive) (h.heldUp (by simpa using hm)).stuck
  have hleft := k.beatsLeft hfree
  obtain ⟨l, ls, hb⟩ := List.exists_cons_of_ne_nil h.bank_ne_nil
  have hfirst : l.rdy = true := by
    have hready := k.ready hfree
    simp only [State.allReady, hb, List.all_cons, Bool.and_eq_true] at hready
    exact hready.1
  obtain ⟨n, hn⟩ : ∃ n, s.params.shifters = n + 1 := by
    obtain ⟨h1, -⟩ := (Params.wf_iff _).1 h.params
    exact Nat.exists_eq_add_of_le' h1
  rcases hcan with hc | hc | hc
  · cases hm : s.mode <;> simp [State.canBankLoad, Mode.transmits, State.activeLanes, hm, hb, hfirst, hn] at hc
  · simp [State.canWriteBeat, hleft] at hc
  · simp [State.canReadBeat, hleft] at hc

/-- A burst's bank load takes every shift buffer: its burst is now in flight. -/
theorem State.Inv.bankLoad {s : State} (h : s.Inv) (hlive : s.peripheralLive = true) (hcan : s.canBankLoad = true) :
    s.spendPeripheral.bankLoad.Inv := by
  have hd := h.active_of_peripheral hlive (.inl hcan)
  have k := h.session hd
  have hbank : s.spendPeripheral.bankLoad.bank = s.bank.map Lane.shiftIn :=
    State.bankLoad_burst_bank (s := s.spendPeripheral) k.mode h.bank
  obtain ⟨n, hn1, hn2, htimcmp⟩ := k.compare
  obtain ⟨-, -, hmax, -⟩ := (Params.wf_iff _).1 h.params
  have hlatched : (beatsOfCompare s.timcmp).toNat = n := by
    rw [htimcmp, beatsOfCompare_compareValue hn1 (hn2.trans hmax), BitVec.toNat_ofNat]
    omega
  have hsending : beatsOfCompare s.timcmp ≠ 0 := fun h0 => by simp [h0] at hlatched; omega
  obtain ⟨hleft, hfull⟩ : s.beatsLeft = 0 ∧ s.bankFull = true := by
    simp only [State.canBankLoad, Bool.and_eq_true, decide_eq_true_eq, State.activeLanes, k.mode, ← h.bank,
      List.take_length] at hcan
    obtain ⟨⟨-, hleft⟩, hfull⟩ := hcan
    exact ⟨hleft, hfull⟩
  have hfree : (s.bank.map Lane.shiftIn).all (fun l => !l.rdy) = false :=
    State.bankFull_eq_false (s := { s with bank := s.bank.map Lane.shiftIn }) (by simpa using h.bank_ne_nil)
      (shiftIn_allReady _)
  have e : s.spendPeripheral.bankLoad = { s.spendPeripheral with
      bank := s.bank.map Lane.shiftIn, beatsLeft := beatsOfCompare s.timcmp, beatIdx := 0 } := by
    rw [← hbank]
    rfl
  rw [e]
  exact
    { h with
      bank := (List.length_map _).trans h.bank
      lanes := by
        intro l hl
        obtain ⟨l0, hl0, rfl⟩ := List.mem_map.1 hl
        exact Lane.Wide.shiftIn (h.lanes l0 hl0)
      heldUp := fun hm => absurd ((h.free_of_active hd).symm.trans hm) Bool.false_ne_true
      beats := by
        show (0#8).toNat + (beatsOfCompare s.timcmp).toNat ≤ s.params.burstBeats
        rw [hlatched]
        exact (Nat.zero_add n).trans_le hn2
      idle := fun hd' => absurd (hd.symm.trans hd') Bool.false_ne_true
      session := fun _ =>
        { k with
          uniform := .inl (shiftIn_allReady _)
          count := by
            have hcount := k.count
            show s.burstsRemaining.toNat = ceilDiv s.bytesRemaining.toNat s.params.burstBytes +
              oneIf ((s.bank.map Lane.shiftIn).all (fun l => !l.rdy)) +
                oneIf (decide (beatsOfCompare s.timcmp ≠ 0)) + oneIf s.tsf
            rw [State.burstsOutstanding, hfull, hleft] at hcount
            rw [hcount, hfree, decide_eq_true hsending]
            rfl
          sien_on := fun _ _ => .inr hsending } }

theorem State.writeBeat_eq (s : State) :
    s.writeBeat = { s with
      beatIdx := s.beatIdx + 1
      beatsLeft := s.beatsLeft - 1
      sdone := decide (s.beatsLeft = 1) || s.sdone
      tsf := decide (s.beatsLeft = 1) || s.tsf
      trace := s.trace ++ [.wbeat s.cs s.dc s.rd s.beatValue] } := by
  unfold State.writeBeat
  split
  · rename_i h1
    rw [decide_eq_true h1]
    rfl
  · rename_i h1
    rw [decide_eq_false h1]
    rfl

/-- A write beat waits for every interrupt that is pending (60_exceptions.md R229): in a session none is. -/
theorem State.Inv.not_pending {s : State} (h : s.Inv) (k : s.SessionInv) (hcan : s.canWriteBeat = true) :
    s.beatsLeft ≠ 0 ∧ s.tsf = false ∧ (s.sien = true → s.allReady = false) := by
  simp only [State.canWriteBeat, State.preempted, h.inIrq, Bool.and_eq_true, decide_eq_true_eq] at hcan
  obtain ⟨⟨-, hleft⟩, hquiet⟩ := hcan
  obtain ⟨hse, htc⟩ : (s.sien = false ∨ s.allReady = false) ∧ s.tsf = false := by
    simpa [State.sePending, State.tcPending, k.mode, k.tien] using hquiet
  exact ⟨hleft, htc, fun hon => hse.resolve_left (by simp [hon])⟩

/-- A write beat sends one unit; the last of a burst flags its completion, which no flag was waiting for. -/
theorem State.Inv.writeBeat {s : State} (h : s.Inv) (hlive : s.peripheralLive = true) (hcan : s.canWriteBeat = true) :
    s.spendPeripheral.writeBeat.Inv := by
  have hd := h.active_of_peripheral hlive (.inr (.inl hcan))
  have k := h.session hd
  obtain ⟨hleft, htsf, hbusy⟩ := h.not_pending k hcan
  obtain ⟨-, -, hmax, -⟩ := (Params.wf_iff _).1 h.params
  have hbeats := h.beats
  rw [State.writeBeat_eq]
  exact
    { h with
      heldUp := fun hm => absurd ((h.free_of_active hd).symm.trans hm) Bool.false_ne_true
      beats := by
        show (s.beatIdx + 1).toNat + (s.beatsLeft - 1).toNat ≤ s.params.burstBeats
        bv_omega
      idle := fun hd' => absurd (hd.symm.trans hd') Bool.false_ne_true
      session := fun _ =>
        { k with
          count := by
            have hcount := k.count
            show s.burstsRemaining.toNat = ceilDiv s.bytesRemaining.toNat s.params.burstBytes + oneIf s.bankFull +
              oneIf (decide (s.beatsLeft - 1 ≠ 0)) + oneIf (decide (s.beatsLeft = 1) || s.tsf)
            rw [State.burstsOutstanding, htsf, decide_eq_true hleft] at hcount
            rw [hcount, htsf]
            by_cases h1 : s.beatsLeft = 1
            · simp [h1]
            · have h2 : s.beatsLeft - 1 ≠ 0 := by bv_omega
              rw [decide_eq_true h2, decide_eq_false h1]
              rfl
          sien_on := fun hon _ => .inl (k.uniform.resolve_left (by simp [hbusy hon])) } }

/-- No read beat is enabled where the invariant holds: a read primitive that holds has a stuck peripheral. -/
theorem State.Inv.not_canReadBeat {s : State} (h : s.Inv) (hlive : s.peripheralLive = true) :
    s.canReadBeat = false := by
  by_contra hcan
  have hcan' : s.canReadBeat = true := by simpa using hcan
  have k := h.session (h.active_of_peripheral hlive (.inr (.inr hcan')))
  simp [State.canReadBeat, k.mode] at hcan'

/-! ### The foreground and the caller -/

theorem acceptNext_inv {s t : State} (hs : s.Inv) (hm : s.canMove .accept = true) (h : acceptNext s = .next t) :
    t.Inv := by
  obtain rfl | ⟨i, rest, -, hx⟩ := acceptNext_eq_next h
  · exact hs
  · have hfree := State.free_of_accept hs.busy hm
    exact exec_inv (hs.takePort rest) hfree hx

/-- Only an operation that holds on `done` ever resumes: a primitive that is held up has no flag set. -/
theorem State.Inv.resume_onDone {s : State} (h : s.Inv) (hm : s.canMove .resume = true) :
    ∃ i, s.held = some (.onDone i) := by
  have hlift : s.holdLifted = true := by
    simp only [State.canMove, State.canResume, Bool.and_eq_true] at hm
    obtain ⟨⟨⟨hlift, -⟩, -⟩, -⟩ := hm
    exact hlift
  unfold State.holdLifted at hlift
  split at hlift
  · cases hlift
  · exact ⟨_, by assumption⟩
  · rename_i vs hh
    exact absurd hh ((h.heldUp (by simp [State.midPrimitive, hh])).ready vs)
  · rename_i vs hh
    simp [(h.heldUp (by simp [State.midPrimitive, hh])).flags] at hlift
  · rename_i hh
    simp [(h.heldUp (by simp [State.midPrimitive, hh])).flags] at hlift

theorem resumeHeld_inv {s t : State} (hs : s.Inv) (hm : s.canMove .resume = true) (h : resumeHeld s = .next t) :
    t.Inv := by
  obtain ⟨i, hh⟩ := hs.resume_onDone hm
  have hx : exec i s = .next t := by simpa [resumeHeld, hh] using h
  exact exec_inv hs (by simp [State.midPrimitive, hh]) hx

theorem hostStoreNext_inv {s t : State} (hs : s.Inv) (h : hostStoreNext s = .next t) : t.Inv := by
  obtain rfl | ⟨c, cs, hc, hlt, rfl⟩ := hostStoreNext_eq_next h
  · exact hs
  · exact
      { hs with
        mem := Memory.write_wf hs.mem _ _
        mem_space := fun d hd => by
          obtain rfl | hd := Memory.mem_write hd
          · exact hlt
          · exact hs.mem_space d hd
        stores_space := fun d hd => hs.stores_space d (hc ▸ List.mem_cons_of_mem c hd)
        heldUp := fun hm => { hs.heldUp hm with }
        idle := fun hd => { hs.idle hd with }
        session := fun hd => { hs.session hd with } }

/-! ### Every move and every step -/

theorem perform_inv {m : Move} {s t : State} (hs : s.Inv) (hm : s.canMove m = true) (h : perform m s = .next t) :
    t.Inv := by
  cases m with
  | shifterEmpty =>
    have hp := State.sePending_of_shifterEmpty hm
    exact shifterEmptyHandler_inv hs.spendInterrupt hp h
  | burstComplete =>
    have hp := State.tcPending_of_burstComplete hm
    exact burstCompleteHandler_inv hs.spendInterrupt hp h
  | bankLoad =>
    obtain ⟨hlive, hcan⟩ := Bool.and_eq_true_iff.1 hm
    cases h
    exact hs.bankLoad hlive hcan
  | writeBeat =>
    obtain ⟨hlive, hcan⟩ := Bool.and_eq_true_iff.1 hm
    cases h
    exact hs.writeBeat hlive hcan
  | readBeat =>
    obtain ⟨hlive, hcan⟩ := Bool.and_eq_true_iff.1 hm
    exact absurd hcan (by simp [hs.not_canReadBeat hlive])
  | accept => exact acceptNext_inv hs hm h
  | resume => exact resumeHeld_inv hs hm h
  | hostStore => exact hostStoreNext_inv hs h

/-- Settles O49: the operations by what they do to the engine outside a session, the handlers and the peripheral by the
account of bursts inside one. -/
theorem everyStepKeepsTheInvariant : Obligations.EveryStepKeepsTheInvariant := fun _ _ hs h =>
  step_induction (P := fun u v => u.Inv → v.Inv) h (fun _ hu => hu) (fun _ _ hP hu => hP hu.afterChoice)
    (fun _ _ _ hm hv hu => perform_inv hu hm hv) hs

end Sys2Proof.Machine

/-! Host memory (20_memory.md R61): what a read of it answers, and that only the caller's store changes it. -/

namespace Sys2Proof.Machine

/-! ### Reads -/

/-- A range inside the address space is read (R63). -/
theorem State.memRead_of_le {s : State} {addr n : Nat} (h : addr + n ≤ 2 ^ s.params.addrWidth) :
    s.memRead addr n = some (s.memBytes addr n) :=
  if_pos h

theorem State.memBytes_getElem? (s : State) (addr : Nat) {n k : Nat} (h : k < n) :
    (s.memBytes addr n)[k]? = some (Memory.read s.mem (addr + k)) := by
  simp [State.memBytes, h]

/-! ### The operations and the moves -/

/-- No operation writes host memory: not even BURST, which reads it. -/
theorem exec_mem {i : Instr} {s t : State} (h : exec i s = .next t) : t.mem = s.mem := by
  obtain hacts | ⟨_, -, -, hinit⟩ | ⟨_, _, _, -, -, -, u, hu, hopen⟩ := exec_effect h
  · exact hacts.mem
  · exact hinit.mem
  · calc t.mem = u.mem := hopen.mem
      _ = s.mem := hu.mem

theorem shifterEmptyHandler_mem {s t : State} (h : shifterEmptyHandler s = .next t) : t.mem = s.mem := by
  obtain ⟨-, rfl⟩ | ⟨-, -, rfl⟩ | ⟨-, _, -, -, rfl⟩ := shifterEmptyHandler_eq_next h <;> rfl

theorem burstCompleteHandler_mem {s t : State} (h : burstCompleteHandler s = .next t) : t.mem = s.mem := by
  obtain ⟨-, ⟨-, rfl⟩ | ⟨-, -, rfl⟩⟩ := burstCompleteHandler_eq_next h <;> rfl

/-- To take an operation's words from the port is no access to memory. -/
theorem acceptNext_mem {s t : State} (h : acceptNext s = .next t) : t.mem = s.mem := by
  obtain rfl | ⟨_, rest, -, hx⟩ := acceptNext_eq_next h
  · rfl
  · exact exec_mem (s := { s with port := rest }) hx

theorem resumeHeld_mem {s t : State} (h : resumeHeld s = .next t) : t.mem = s.mem := by
  unfold resumeHeld at h
  split at h
  case h_1 => cases h; rfl
  case h_2 => exact exec_mem h
  case h_3 vs _ => cases h; exact (s.busActs_sendBeats vs).mem
  case h_4 vs _ => cases h; exact (s.busActs_clearDoneFlags.trans (State.busActs_sendBeats _ vs)).mem
  case h_5 => cases h; exact (s.busActs_clearDoneFlags.trans (State.busActs_finishRead _)).mem

/-- No move of the block's three agents writes host memory: the caller's store is the only one that does. -/
theorem perform_mem {m : Move} {s t : State} (hm : m ≠ .hostStore) (h : perform m s = .next t) : t.mem = s.mem := by
  cases m with
  | shifterEmpty => exact shifterEmptyHandler_mem (s := s.spendInterrupt) h
  | burstComplete => exact burstCompleteHandler_mem (s := s.spendInterrupt) h
  | bankLoad => cases h; exact s.busActs_bankLoad.mem
  | writeBeat => cases h; exact s.busActs_writeBeat.mem
  | readBeat => cases h; exact s.busActs_readBeat.mem
  | accept => exact acceptNext_mem h
  | resume => exact resumeHeld_mem h
  | hostStore => exact absurd rfl hm

/-- Settles O55: a range that fits is read byte by byte; what the operations and the moves do leaves memory as it was. -/
theorem theBlockNeverWritesHostMemory : Obligations.TheBlockNeverWritesHostMemory :=
  ⟨fun s addr n hfit => ⟨s.memBytes addr n, State.memRead_of_le hfit, s.memBytes_length addr n,
      fun _ hk => s.memBytes_getElem? addr hk⟩,
    fun _ _ _ => exec_mem, fun _ _ _ => perform_mem⟩

end Sys2Proof.Machine

/-! Encoding and decoding (30_encoding.md R80 to R90): a first word by its fields, each format in both directions, the
two round trips, and the rows of the opcode table. -/

namespace Sys2Proof

open Laws (opField_firstWord)

/-! ### The fields of a first word (R81) -/

/-- A word is its operation number above its 24 low bits. -/
theorem firstWord_opField_low (w : Word) : firstWord (opField w) (w.extractLsb' 0 24) = w :=
  (BitVec.extractLsb'_append_extractLsb'_eq_extractLsb' rfl).trans BitVec.extractLsb'_eq_self

theorem eq_firstWord_iff {w : Word} {op : BitVec 8} {low : BitVec 24} :
    w = firstWord op low ↔ opField w = op ∧ w.extractLsb' 0 24 = low := by
  constructor
  · rintro rfl
    exact ⟨opField_firstWord op low, Machine.append_low op low⟩
  · rintro ⟨rfl, rfl⟩
    exact (firstWord_opField_low w).symm

/-- Bits that hold an operand of `k` bits, zero-extended: the bits above it are 0. -/
theorem extractLsb'_eq_zeroExtend_iff {v n k : Nat} (w : BitVec v) (b : BitVec k) :
    w.extractLsb' 0 (n + k) = b.zeroExtend (n + k) ↔ w.extractLsb' k n = 0 ∧ w.extractLsb' 0 k = b := by
  have hb : b.zeroExtend (n + k) = 0#n ++ b := by
    apply BitVec.eq_of_toNat_eq
    have := b.isLt
    simp [BitVec.toNat_append, Nat.mod_eq_of_lt (this.trans_le (Nat.pow_le_pow_right (by omega) (Nat.le_add_left k n)))]
  rw [hb, ← BitVec.extractLsb'_append_extractLsb'_eq_extractLsb' (Nat.zero_add k).symm]
  constructor
  · intro h
    have hhigh := congrArg (BitVec.extractLsb' k n) h
    have hlow := congrArg (BitVec.extractLsb' 0 k) h
    rw [Machine.append_high, Machine.append_high] at hhigh
    rw [Machine.append_low, Machine.append_low] at hlow
    exact ⟨hhigh, hlow⟩
  · rintro ⟨hhigh, hlow⟩
    rw [hhigh, hlow]
    rfl

/-- A first word of a format with `k` operand bits and `n` must-be-zero bits above them (R84 to R86). -/
theorem eq_firstWord_zeroExtend_iff {w : Word} {op : BitVec 8} {n k : Nat} (hnk : n + k = 24) {b : BitVec k} :
    w = firstWord op (b.zeroExtend 24) ↔ opField w = op ∧ w.extractLsb' k n = 0 ∧ w.extractLsb' 0 k = b := by
  have hlow := extractLsb'_eq_zeroExtend_iff (n := n) w b
  rw [hnk] at hlow
  rw [eq_firstWord_iff, hlow]

/-! ### Engine Modes (R98) -/

@[simp] theorem Mode.ofNumber_number (m : Mode) : Mode.ofNumber m.number = m := by
  cases m <;> rfl

@[simp] theorem Mode.number_ofNumber (b : BitVec 2) : (Mode.ofNumber b).number = b := by
  decide +revert

theorem Mode.number_eq_zero_iff {m : Mode} : m.number = 0 ↔ m = .idle := by
  cases m <;> decide

/-! ### The one-word formats, in both directions (R84, R85) -/

theorem decodeS_eq_some_iff {i j : Instr} {w : Word} {op : BitVec 8} (hop : opField w = op) :
    decodeS i w = some j ↔ w = firstWord op 0 ∧ j = i := by
  simp [decodeS, eq_firstWord_iff, hop, eq_comm]

theorem decodeI8_eq_some_iff {f : BitVec 8 → Instr} {j : Instr} {w : Word} {op : BitVec 8} (hop : opField w = op) :
    decodeI8 f w = some j ↔ ∃ b : BitVec 8, w = firstWord op (b.zeroExtend 24) ∧ j = f b := by
  simp [decodeI8, eq_firstWord_zeroExtend_iff (show 16 + 8 = 24 from rfl), hop, and_assoc, eq_comm]

theorem decodeI16_eq_some_iff {f : BitVec 16 → Instr} {j : Instr} {w : Word} {op : BitVec 8} (hop : opField w = op) :
    decodeI16 f w = some j ↔ ∃ b : BitVec 16, w = firstWord op (b.zeroExtend 24) ∧ j = f b := by
  simp [decodeI16, eq_firstWord_zeroExtend_iff (show 8 + 16 = 24 from rfl), hop, and_assoc, eq_comm]

/-- Format M has no word for Idle (R90). -/
theorem decodeM_eq_some_iff {j : Instr} {w : Word} {op : BitVec 8} (hop : opField w = op) :
    decodeM w = some j ↔ ∃ m : Mode, w = firstWord op (m.number.zeroExtend 24) ∧ m ≠ .idle ∧ j = .config m := by
  simp only [decodeM, eq_firstWord_zeroExtend_iff (show 22 + 2 = 24 from rfl), hop, true_and]
  constructor
  · intro h
    split at h
    case isTrue hw =>
      obtain ⟨hzero, hmode⟩ := hw
      cases h
      exact ⟨_, ⟨hzero, (Mode.number_ofNumber _).symm⟩, by simpa [← Mode.number_eq_zero_iff] using hmode, rfl⟩
    case isFalse => cases h
  · rintro ⟨m, ⟨hzero, hm⟩, hidle, rfl⟩
    rw [hm, Mode.ofNumber_number, if_pos ⟨hzero, mt Mode.number_eq_zero_iff.1 hidle⟩]

/-! ### The one-word operations (R83) -/

theorem opField_eq_ofNat {w : Word} {n : Nat} (h : (opField w).toNat = n) : opField w = BitVec.ofNat 8 n := by
  rw [← h, BitVec.ofNat_toNat, BitVec.setWidth_eq]

/-- A one-word operation that is decoded is well formed, and its encoding is the word. -/
theorem encode_of_decodeShort {w : Word} {i : Instr} (aw : Nat) (h : decodeShort w = some i) :
    i.wf aw = true ∧ encode i = [w.toNat] := by
  unfold decodeShort at h
  split at h
  case h_1 hop | h_2 hop | h_3 hop | h_4 hop | h_5 hop | h_6 hop | h_12 hop | h_13 hop =>
    obtain ⟨hw, rfl⟩ := (decodeS_eq_some_iff (opField_eq_ofNat hop)).1 h
    exact ⟨rfl, by rw [hw]; rfl⟩
  case h_7 hop | h_9 hop | h_10 hop =>
    obtain ⟨b, hw, rfl⟩ := (decodeI8_eq_some_iff (opField_eq_ofNat hop)).1 h
    exact ⟨rfl, by rw [hw]; rfl⟩
  case h_8 hop =>
    obtain ⟨m, hw, hidle, rfl⟩ := (decodeM_eq_some_iff (opField_eq_ofNat hop)).1 h
    exact ⟨by simpa [Instr.wf] using hidle, by rw [hw]; rfl⟩
  case h_11 hop =>
    obtain ⟨b, hw, rfl⟩ := (decodeI16_eq_some_iff (opField_eq_ofNat hop)).1 h
    exact ⟨rfl, by rw [hw]; rfl⟩
  case h_14 => cases h

/-! ### Words at the port (R80, R82, R86) -/

theorem decode_firstWord_of_short {op : BitVec 8} {low : BitVec 24} {i : Instr} (aw : Nat) (rest : List PortWord)
    (hop : op ≠ 0x30#8) (h : decodeShort (firstWord op low) = some i) :
    decode aw (oneWord op low ++ rest) = .ok (i, rest) := by
  simp [decode, oneWord, opField_firstWord, hop, h]

/-- The flag CB, the one operand bit of format B (R86). -/
theorem eq_firstWord_flag_iff {w : Word} {op : BitVec 8} {cb : Bool} :
    w = firstWord op (if cb then 1 else 0) ↔ opField w = op ∧ w.extractLsb' 1 23 = 0 ∧ w.getLsbD 0 = cb := by
  have hflag : (if cb then 1 else 0 : BitVec 24) = (BitVec.ofBool cb).zeroExtend 24 := by cases cb <;> rfl
  have hbit : w.extractLsb' 0 1 = BitVec.ofBool cb ↔ w.getLsbD 0 = cb := by
    rw [show w.extractLsb' 0 1 = BitVec.ofBool (w.getLsbD 0) from BitVec.eq_of_getLsbD_eq (by simp)]
    cases w.getLsbD 0 <;> cases cb <;> decide
  rw [hflag, eq_firstWord_zeroExtend_iff (show 23 + 1 = 24 from rfl), hbit]

/-- Format B in both directions (R86). -/
theorem decodeB_eq_ok_iff {aw : Nat} {w : Word} {ws rest : List PortWord} {i : Instr} (hop : opField w = 0x30) :
    decodeB aw w ws = .ok (i, rest) ↔ ∃ cb base count, w = firstWord 0x30 (if cb then 1 else 0) ∧
      ws = base :: count :: rest ∧ i = .burst cb (base % 2 ^ w1Bits aw) (BitVec.ofNat 32 count) := by
  simp only [eq_firstWord_flag_iff, hop, true_and]
  unfold decodeB
  constructor
  · intro h
    split at h
    case isFalse => cases h
    case isTrue hzero =>
      split at h
      · cases h
        exact ⟨_, _, _, ⟨hzero, rfl⟩, rfl, rfl⟩
      · cases h
  · rintro ⟨cb, base, count, ⟨hzero, rfl⟩, rfl, rfl⟩
    exact if_pos hzero

/-- All that decoding an operation is: one word of a one-word format, or the three words of BURST. -/
theorem decode_cons_eq_ok_iff {aw w0 : Nat} {ws rest : List PortWord} {i : Instr} :
    decode aw (w0 :: ws) = .ok (i, rest) ↔
      (opField (BitVec.ofNat 32 w0) = 0x30#8 ∧ decodeB aw (BitVec.ofNat 32 w0) ws = .ok (i, rest)) ∨
      (opField (BitVec.ofNat 32 w0) ≠ 0x30#8 ∧ decodeShort (BitVec.ofNat 32 w0) = some i ∧ ws = rest) := by
  by_cases hop : opField (BitVec.ofNat 32 w0) = 0x30#8
  · simp [decode, hop]
  · cases hi : decodeShort (BitVec.ofNat 32 w0) <;> simp [decode, hop, hi]

theorem decode_burst {aw : Nat} {cb : Bool} {base : Nat} {count : BitVec 32} (rest : List PortWord)
    (hbase : base < 2 ^ w1Bits aw) :
    decode aw (encode (.burst cb base count) ++ rest) = .ok (.burst cb base count, rest) := by
  have hop := opField_firstWord 0x30#8 (if cb then 1 else 0)
  refine decode_cons_eq_ok_iff.2 (.inl ?_)
  rw [BitVec.ofNat_toNat, BitVec.setWidth_eq]
  exact ⟨hop, (decodeB_eq_ok_iff hop).2 ⟨cb, base, count.toNat, rfl, rfl, by simp [Nat.mod_eq_of_lt hbase]⟩⟩

/-- Settles O1: each format gives back the operand that its first word was built from. -/
theorem decodeOfEncode : Obligations.DecodeOfEncode := by
  intro aw i rest hwf
  cases i with
  | selchip | deselchip | selcmd | seldata | rdlow | rdhigh | rddata | rdstatus =>
    refine decode_firstWord_of_short aw rest (by decide) ?_
    rw [decodeShort, opField_firstWord]
    exact (decodeS_eq_some_iff (opField_firstWord _ _)).2 ⟨rfl, rfl⟩
  | init b | wrcmd b | wrdata b =>
    refine decode_firstWord_of_short aw rest (by decide) ?_
    rw [decodeShort, opField_firstWord]
    exact (decodeI8_eq_some_iff (opField_firstWord _ _)).2 ⟨b, rfl, rfl⟩
  | wrdata16 w =>
    refine decode_firstWord_of_short aw rest (by decide) ?_
    rw [decodeShort, opField_firstWord]
    exact (decodeI16_eq_some_iff (opField_firstWord _ _)).2 ⟨w, rfl, rfl⟩
  | config m =>
    refine decode_firstWord_of_short aw rest (by decide) ?_
    rw [decodeShort, opField_firstWord]
    exact (decodeM_eq_some_iff (opField_firstWord _ _)).2 ⟨m, rfl, by simpa [Instr.wf] using hwf, rfl⟩
  | burst cb base count => exact decode_burst rest (by simpa [Instr.wf] using hwf)

/-- Settles O2: the words of a format are determined by its operand, as far as they have lines. -/
theorem decodedWordsAreTheEncoding : Obligations.DecodedWordsAreTheEncoding := by
  intro aw ws rest i h
  cases ws with
  | nil => cases h
  | cons w0 ws =>
    obtain ⟨hop, hB⟩ | ⟨-, hshort, rfl⟩ := decode_cons_eq_ok_iff.1 h
    · obtain ⟨cb, base, count, hw, rfl, rfl⟩ := (decodeB_eq_ok_iff hop).1 hB
      have hw0 : w0 % 2 ^ 32 = (firstWord 0x30 (if cb then 1 else 0)).toNat := by rw [← hw, BitVec.toNat_ofNat]
      have hbase : base % 2 ^ w1Bits aw < 2 ^ w1Bits aw := Nat.mod_lt _ (Nat.two_pow_pos _)
      exact ⟨by simpa [Instr.wf] using hbase, [w0, base, count], rfl, by
        simp only [portCut, encode, oneWord, hw0, BitVec.toNat_ofNat]; rfl⟩
    · obtain ⟨hwf, henc⟩ := encode_of_decodeShort aw hshort
      exact ⟨hwf, [w0], rfl, by rw [henc, BitVec.toNat_ofNat]; rfl⟩

/-! ### The rows of the opcode table (R83, R90) -/

/-- The operation number and the operand bits of the first word of each row: its format. -/
def rowFormats : List (BitVec 8 × Nat) :=
  [(0x01, 0), (0x02, 0), (0x03, 0), (0x04, 0), (0x05, 0), (0x06, 0), (0x10, 8), (0x11, 2), (0x20, 8), (0x21, 8),
   (0x22, 16), (0x23, 0), (0x24, 0), (0x30, 1)]

/-- The table of words is that of formats: the operand bits of a row are the ones that are not fixed. -/
theorem opcodeRows_eq_rowFormats :
    opcodeRows.map (fun row => (row.fixedBits, row.value)) =
      rowFormats.map (fun f => (BitVec.allOnes 32 <<< f.2, firstWord f.1 0)) := by decide

/-- A field that lies in the fixed bits is compared whole. -/
theorem extractLsb'_and_fixedBits {w : Word} {k start len : Nat} (hk : k ≤ start) (hlen : start + len ≤ 32) :
    (w &&& (BitVec.allOnes 32 <<< k)).extractLsb' start len = w.extractLsb' start len := by
  ext i hi
  simp only [BitVec.getElem_extractLsb', BitVec.getLsbD_and, BitVec.getLsbD_shiftLeft, BitVec.getLsbD_allOnes]
  grind

/-- The operand is not compared. -/
theorem operand_and_fixedBits (w : Word) (k : Nat) : (w &&& (BitVec.allOnes 32 <<< k)).extractLsb' 0 k = 0 := by
  ext i hi
  simp only [BitVec.getElem_extractLsb', BitVec.getLsbD_and, BitVec.getLsbD_shiftLeft]
  simp [hi]

/-- A word matches a row when it has its operation number and its must-be-zero bits are 0. -/
theorem and_fixedBits_eq_iff {w : Word} {op : BitVec 8} {n k : Nat} (hnk : n + k = 24) :
    w &&& (BitVec.allOnes 32 <<< k) = firstWord op 0 ↔ opField w = op ∧ w.extractLsb' k n = 0 := by
  have hop : opField (w &&& (BitVec.allOnes 32 <<< k)) = opField w :=
    extractLsb'_and_fixedBits (by omega) (by omega)
  have hzero : (w &&& (BitVec.allOnes 32 <<< k)).extractLsb' k n = w.extractLsb' k n :=
    extractLsb'_and_fixedBits le_rfl (by omega)
  have hlow : (0 : BitVec 24) = (0 : BitVec k).zeroExtend 24 := by simp
  rw [hlow, eq_firstWord_zeroExtend_iff hnk, hop, hzero, operand_and_fixedBits]
  simp


theorem forall_opcodeRows_iff {w : Word} : (∀ row ∈ opcodeRows, w &&& row.fixedBits ≠ row.value) ↔
    ∀ f ∈ rowFormats, opField w = f.1 → w.extractLsb' f.2 (24 - f.2) ≠ 0 := by
  have hrows : (∀ row ∈ opcodeRows, w &&& row.fixedBits ≠ row.value) ↔
      ∀ m ∈ opcodeRows.map (fun row => (row.fixedBits, row.value)), w &&& m.1 ≠ m.2 := by
    rw [List.forall_mem_map]
  have hwidth : ∀ f ∈ rowFormats, 24 - f.2 + f.2 = 24 := by decide
  rw [hrows, opcodeRows_eq_rowFormats, List.forall_mem_map]
  refine forall₂_congr fun f hf => ?_
  rw [ne_eq, and_fixedBits_eq_iff (hwidth f hf), not_and]

/-- A word whose operation number is `0x11` and whose other bits are 0: CONFIG with mode 0. -/
theorem eq_configIdle_iff {w : Word} : w = 0x11000000#32 ↔ opField w = 0x11#8 ∧ w.extractLsb' 0 24 = 0 :=
  eq_firstWord_iff (op := 0x11) (low := 0)

theorem rowFormats_op_inj : ∀ f ∈ rowFormats, ∀ g ∈ rowFormats, f.1 = g.1 → f = g := by decide

/-- A word with the operation number of a row matches no row when one of that row's must-be-zero bits is not 0. -/
theorem forall_rowFormats_iff_of_op {w : Word} {op : BitVec 8} {k : Nat} (hop : opField w = op)
    (hrow : (op, k) ∈ rowFormats) :
    (∀ f ∈ rowFormats, opField w = f.1 → w.extractLsb' f.2 (24 - f.2) ≠ 0) ↔ w.extractLsb' k (24 - k) ≠ 0 := by
  constructor
  · intro h
    exact h (op, k) hrow hop
  · intro h f hf he
    obtain rfl : f = (op, k) := rowFormats_op_inj f hf _ hrow (he.symm.trans hop)
    exact h

theorem decodeShort_eq_none_iff {w : Word} (hop : opField w ≠ 0x30#8) :
    decodeShort w = none ↔ (∀ f ∈ rowFormats, opField w = f.1 → w.extractLsb' f.2 (24 - f.2) ≠ 0) ∨
      w = 0x11000000#32 := by
  rw [eq_configIdle_iff]
  unfold decodeShort
  split
  case h_1 h | h_2 h | h_3 h | h_4 h | h_5 h | h_6 h | h_12 h | h_13 h =>
    have hop := opField_eq_ofNat h
    rw [forall_rowFormats_iff_of_op (k := 0) hop (by decide)]
    simp [hop, decodeS]
  case h_7 h | h_9 h | h_10 h =>
    have hop := opField_eq_ofNat h
    rw [forall_rowFormats_iff_of_op (k := 8) hop (by decide)]
    simp [hop, decodeI8]
  case h_11 h =>
    have hop := opField_eq_ofNat h
    rw [forall_rowFormats_iff_of_op (k := 16) hop (by decide)]
    simp [hop, decodeI16]
  case h_8 h =>
    have hop := opField_eq_ofNat h
    rw [forall_rowFormats_iff_of_op (k := 2) hop (by decide)]
    have hlow : w.extractLsb' 0 24 = 0 ↔ w.extractLsb' 2 22 = 0 ∧ w.extractLsb' 0 2 = 0 :=
      extractLsb'_eq_zeroExtend_iff (n := 22) w 0#2
    rw [hlow]
    simp only [decodeM, hop, true_and, Nat.reduceSub]
    by_cases hzero : w.extractLsb' 2 22 = 0#22 <;> simp [hzero]
  case h_14 =>
    have hne : ∀ f ∈ rowFormats, opField w ≠ f.1 := by
      simp_all [rowFormats, BitVec.toNat_eq]
    exact iff_of_true rfl (.inl fun f hf he => absurd he (hne f hf))

theorem decodeB_eq_reserved_iff {aw : Nat} {w : Word} {ws : List PortWord} :
    decodeB aw w ws = .error .reservedEncoding ↔ w.extractLsb' 1 23 ≠ 0 := by
  unfold decodeB
  split
  case isTrue hzero => split <;> simp [hzero]
  case isFalse hzero => simpa using hzero

/-- A first word is a reserved encoding when it has the format of no row, or asks for Idle (R90). -/
theorem decode_eq_reserved_iff {aw : Nat} {w : Word} {ws : List PortWord} :
    decode aw (w.toNat :: ws) = .error .reservedEncoding ↔
      (∀ f ∈ rowFormats, opField w = f.1 → w.extractLsb' f.2 (24 - f.2) ≠ 0) ∨ w = 0x11000000#32 := by
  by_cases hop : opField w = 0x30#8
  · have hidle : w ≠ 0x11000000#32 := by
      rintro rfl
      exact absurd hop (by decide)
    rw [forall_rowFormats_iff_of_op (k := 1) hop (by decide), or_iff_left hidle,
      ← decodeB_eq_reserved_iff (aw := aw) (ws := ws)]
    simp [decode, hop]
  · rw [← decodeShort_eq_none_iff hop]
    cases hi : decodeShort w <;> simp [decode, hop, hi]

/-- INIT's word (R85). -/
theorem encode_init (sel : BitVec 8) : encode (.init sel) = [0x10000000 + sel.toNat] := by
  have hlt := sel.isLt
  have hword : (firstWord 0x10 (sel.zeroExtend 24)).toNat = 0x10000000 + sel.toNat := by
    have happ : (firstWord 0x10 (sel.zeroExtend 24)).toNat = (0x10#8).toNat <<< 24 ||| (sel.zeroExtend 24).toNat :=
      BitVec.toNat_append _ _
    rw [happ, ← Nat.shiftLeft_add_eq_or_of_lt (BitVec.isLt _), BitVec.zeroExtend, BitVec.toNat_setWidth,
      Nat.mod_eq_of_lt (by omega)]
    rfl
  exact congrArg (· :: []) hword

/-- Settles O3: the table of words is that of the formats which the decoder asks for; an INIT selector is any byte. -/
theorem reservedEncodingsAreTheUnmatchedWords : Obligations.ReservedEncodingsAreTheUnmatchedWords := by
  refine ⟨fun aw w ws => ?_, fun s h => ?_, fun aw sel ws => ?_⟩
  · rw [forall_opcodeRows_iff, decode_eq_reserved_iff]
  · simp only [Machine.perform, Machine.acceptNext, h]
  · have h := decodeOfEncode aw (.init sel) ws rfl
    rwa [encode_init] at h

/-- Settles O4, by evaluation of the decoder on each of the ten presentations. -/
theorem sampleWordsDecode : Obligations.SampleWordsDecode :=
  ⟨rfl, rfl, rfl, rfl, rfl, rfl, rfl, rfl, rfl, rfl⟩

end Sys2Proof

/-! Speed selectors and compare values (30_encoding.md R95 to R97), and the admission of operations (R88). -/

namespace Sys2Proof.Machine

/-! ### Dividers and compare values -/

theorem legalDividers_bounds : ∀ d ∈ legalDividers, d.toNat % 2 = 0 ∧ 2 ≤ d.toNat ∧ d.toNat ≤ 120 := by decide

/-- A selector that the table does not name takes its last arm (R97). -/
theorem dividerOfSelector_of_unrecognized {sel : BitVec 8}
    (h : sel ∉ [2#8, 4#8, 8#8, 12#8, 20#8, 24#8, 30#8, 40#8, 60#8, 120#8]) : dividerOfSelector sel = 20 := by
  unfold dividerOfSelector
  split
  case h_11 => rfl
  all_goals
    rename_i hsel
    obtain ⟨-, rfl⟩ := BitVec.toNat_eq_nat.1 hsel
    exact absurd (by decide) h

/-- Settles O10: the table by evaluation, every other selector by its last arm; all of its dividers are legal ones. -/
theorem selectorTable : Obligations.SelectorTable := by
  refine ⟨rfl, rfl, rfl, rfl, rfl, rfl, rfl, rfl, rfl, rfl,
    fun sel => dividerOfSelector_of_unrecognized, fun sel => ?_⟩
  obtain ⟨heven, htwo, -⟩ := legalDividers_bounds _ (dividerOfSelector_legal sel)
  exact ⟨heven, htwo⟩

/-- Settles O11, by evaluation at the ten selectors and the ten legal dividers. -/
theorem derivedTablesOfTheDivider : Obligations.DerivedTablesOfTheDivider := ⟨by decide, rfl, rfl⟩

/-- The two fields of a compare value side by side (R95). -/
theorem compareValue_toNat {n : Nat} {d : BitVec 8} (hn : n ≤ 128) :
    (compareValue n d).toNat = (n * 2 - 1) * 256 + (d.toNat / 2 - 1) := by
  have hd := d.isLt
  rw [compareValue, BitVec.toNat_append, ← Nat.shiftLeft_add_eq_or_of_lt (BitVec.isLt _), Nat.shiftLeft_eq,
    BitVec.toNat_ofNat, BitVec.toNat_ofNat, Nat.mod_eq_of_lt (by omega), Nat.mod_eq_of_lt (by omega)]

/-- The divider that a compare value stands for is the one it was made from. -/
theorem dividerOfCompare_compareValue (n : Nat) {d : BitVec 8} (heven : d.toNat % 2 = 0) (htwo : 2 ≤ d.toNat) :
    dividerOfCompare (compareValue n d) = d.toNat := by
  have hd := d.isLt
  rw [dividerOfCompare, compareValue_low, BitVec.toNat_ofNat]
  omega

/-- Settles O16: each field of the compare value holds its number without loss, and decoding undoes it. -/
theorem compareValueLayout : Obligations.CompareValueLayout := by
  intro n d h1 h2 hlegal
  obtain ⟨heven, htwo, hmax⟩ := legalDividers_bounds d hlegal
  refine ⟨compareValue_toNat h2, compareValue_high n d, compareValue_low n d, ?_,
    dividerOfCompare_compareValue n heven htwo, ?_, ?_⟩
  · rw [beatsOfCompare_compareValue h1 h2, BitVec.toNat_ofNat]
    omega
  · rw [compareValue_high, BitVec.toNat_ofNat]
    omega
  · rw [compareValue_low, BitVec.toNat_ofNat]
    omega

/-! ### Admission (R88) -/

theorem admitTransfer_callback {i : Instr} {s : State} {run : State → Result} (hc : s.inCallback = true) :
    admitTransfer i s run = .refused .opFromCallback := by
  rw [admitTransfer, if_pos hc]

theorem admitTransfer_dividerZero {i : Instr} {s : State} {run : State → Result} (hc : s.inCallback = false)
    (hd : s.divider = 0) : admitTransfer i s run = .refused .dividerZero := by
  rw [admitTransfer, hc, if_neg (by decide), if_pos hd]

theorem admitControl_callback {reason : Refusal} {s : State} {run : State → Result} (hc : s.inCallback = true) :
    admitControl reason s run = .refused .opFromCallback := by
  rw [admitControl, if_pos hc]

theorem admitControl_session {reason : Refusal} {s : State} {run : State → Result} (hc : s.inCallback = false)
    (hd : s.done = false) : admitControl reason s run = .refused reason := by
  simp [admitControl, hc, hd]

/-- Every transfer operation is admitted as R88 (a) says. -/
theorem exec_eq_admitTransfer {i : Instr} (h : i.isTransfer = true) :
    ∃ run, ∀ s, exec i s = admitTransfer i s run := by
  cases i with
  | selchip | deselchip | selcmd | seldata | rdlow | rdhigh | init | config => cases h
  | wrcmd | wrdata | wrdata16 | rddata | rdstatus | burst => exact ⟨_, fun _ => rfl⟩

/-- Every other operation is admitted as R88 (b) says: the strobe operations with one reason for a refusal during a
session, INIT and CONFIG with another. -/
theorem exec_eq_admitControl {i : Instr} (h : i.isTransfer = false) :
    ∃ run, ∀ s, exec i s =
      admitControl (if (strobeTarget i).isSome then .strobeDuringSession else .configDuringSession) s run := by
  cases i with
  | selchip | deselchip | selcmd | seldata | rdlow | rdhigh | init | config => exact ⟨_, fun _ => rfl⟩
  | wrcmd | wrdata | wrdata16 | rddata | rdstatus | burst => cases h

theorem exec_callback {i : Instr} {s : State} (hc : s.inCallback = true) : exec i s = .refused .opFromCallback := by
  cases hi : i.isTransfer with
  | true =>
    obtain ⟨run, hrun⟩ := exec_eq_admitTransfer hi
    rw [hrun, admitTransfer_callback hc]
  | false =>
    obtain ⟨run, hrun⟩ := exec_eq_admitControl hi
    rw [hrun, admitControl_callback hc]

theorem exec_transfer_dividerZero {i : Instr} {s : State} (hi : i.isTransfer = true) (hc : s.inCallback = false)
    (hd : s.divider = 0) : exec i s = .refused .dividerZero := by
  obtain ⟨run, hrun⟩ := exec_eq_admitTransfer hi
  rw [hrun, admitTransfer_dividerZero hc hd]

theorem exec_transfer_session {i : Instr} {s : State} (hi : i.isTransfer = true) (hc : s.inCallback = false)
    (hdiv : s.divider ≠ 0) (hd : s.done = false) : exec i s = .next (s.hold (.onDone i)) := by
  obtain ⟨run, hrun⟩ := exec_eq_admitTransfer hi
  rw [hrun, admitTransfer_hold hc hdiv hd]

theorem exec_control_session {i : Instr} {s : State} (hi : i.isTransfer = false) (hc : s.inCallback = false)
    (hd : s.done = false) :
    exec i s = .refused (if (strobeTarget i).isSome then .strobeDuringSession else .configDuringSession) := by
  obtain ⟨run, hrun⟩ := exec_eq_admitControl hi
  rw [hrun, admitControl_session hc hd]

theorem execConfig_dividerZero {m : Mode} {s : State} (hm : m ≠ .idle) (hc : s.inCallback = false)
    (hd : s.done = true) (hdiv : s.divider = 0) : execConfig m s = .refused .dividerZero := by
  rw [execConfig, admitControl_run hc hd, if_neg hm, if_pos hdiv]

/-! ### Answers (R87, R88) -/

/-- From `s` to `t` an operation has returned, with one response more, or it holds, with none; the foreground is busy in
the second case only. -/
def State.Answered (s t : State) : Prop :=
  t.fgBusy = t.held.isSome ∧ (t.held = none ↔ ∃ r, t.responses = s.responses ++ [r])

theorem State.answered_of_returned {s t : State} {r : Response} (hbusy : t.fgBusy = false) (hheld : t.held = none)
    (hr : t.responses = s.responses ++ [r]) : s.Answered t :=
  ⟨by rw [hbusy, hheld]; rfl, iff_of_true hheld ⟨r, hr⟩⟩

theorem State.answered_ret {s u : State} (r : Response) (h : u.responses = s.responses) : s.Answered (u.ret r) :=
  State.answered_of_returned rfl rfl (by rw [State.ret_responses, h])

theorem State.answered_hold {s u : State} (k : Hold) (h : u.responses = s.responses) : s.Answered (u.hold k) := by
  refine ⟨rfl, iff_of_false (Option.some_ne_none k) ?_⟩
  rintro ⟨r, hr⟩
  simp [h] at hr

@[simp] theorem State.peripheralStep_responses (s : State) : s.peripheralStep.responses = s.responses :=
  State.peripheralStep_keeps (P := fun t => t.responses = s.responses) (fun _ h => by simpa using h)
    (fun _ h => by simpa using h) (fun _ h => by simpa using h) rfl

theorem State.sendBeats_answered {s u : State} (vs : List Beat) (h : u.responses = s.responses) :
    s.Answered (State.sendBeats vs u) :=
  State.sendBeats_keeps (P := fun t => t.responses = s.responses) (Q := s.Answered)
    (write := fun _ _ h => by simpa using h) (serve := fun _ h => by simpa using h) (clear := fun _ h => by simpa using h)
    (finish := fun _ h => State.answered_ret _ (by simpa using h)) (onReady := fun _ _ h => State.answered_hold _ h)
    (onFlags := fun _ _ h => State.answered_hold _ h) vs h

theorem State.sampleBeat_answered {s u : State} (h : u.responses = s.responses) : s.Answered u.sampleBeat :=
  State.sampleBeat_keeps (P := fun t => t.responses = s.responses) (Q := s.Answered)
    (start := fun _ h => by simpa using h) (serve := fun _ h => by simpa using h) (clear := fun _ h => by simpa using h)
    (finish := fun _ h => State.answered_ret _ (by simpa using h)) (onFlags := fun _ h => State.answered_hold _ h) h

theorem strobe_answered {l : Line} {v : Level} {s t : State} (h : strobe l v s = .next t) : s.Answered t := by
  obtain ⟨-, -, hr⟩ := admitControl_eq_next h
  cases hr
  exact State.answered_ret _ (by simp)

theorem execInit_answered {sel : BitVec 8} {s t : State} (h : execInit sel s = .next t) : s.Answered t := by
  obtain ⟨-, -, hr⟩ := admitControl_eq_next h
  cases hr
  exact State.answered_ret _ (by simp)

theorem execConfig_answered {m : Mode} {s t : State} (h : execConfig m s = .next t) : s.Answered t := by
  obtain ⟨-, -, hr⟩ := admitControl_eq_next h
  split at hr
  · cases hr
  · split at hr
    · cases hr
    · cases hr
      exact State.answered_ret _ (by simp)

/-- A transfer operation answers if its body does: to hold on `done` is an answer. -/
theorem admitTransfer_answered {i : Instr} {s t : State} {run : State → Result}
    (hrun : run s = .next t → s.Answered t) (h : admitTransfer i s run = .next t) : s.Answered t := by
  obtain ⟨-, -, ⟨-, hr⟩ | ⟨-, rfl⟩⟩ := admitTransfer_eq_next h
  · exact hrun hr
  · exact State.answered_hold _ rfl

theorem writePrimitive_answered {i : Instr} {dc : Level} {beats : State → List Beat} {s t : State}
    (h : writePrimitive i dc beats s = .next t) : s.Answered t :=
  admitTransfer_answered (fun hr => by
    cases hr
    exact State.sendBeats_answered _ (by simp [State.select])) h

theorem readPrimitive_answered {i : Instr} {dc : Level} {s t : State} (h : readPrimitive i dc s = .next t) :
    s.Answered t :=
  admitTransfer_answered (fun hr => by
    cases hr
    exact State.sampleBeat_answered (by simp [State.select])) h

theorem startBurst_answered {cb : Bool} {base : Nat} {count : BitVec 32} {s t : State}
    (h : startBurst cb base count s = .next t) : s.Answered t := by
  obtain ⟨-, -, ⟨-, -, rfl⟩ | ⟨-, rfl⟩⟩ := startBurst_eq_next h
  · exact State.answered_of_returned rfl rfl rfl
  · exact State.answered_ret _ (by simp)

/-- Every operation that is not refused returns with one response, or holds with none. -/
theorem exec_answered {i : Instr} {s t : State} (h : exec i s = .next t) : s.Answered t := by
  cases i with
  | selchip | deselchip | selcmd | seldata | rdlow | rdhigh => exact strobe_answered h
  | init sel => exact execInit_answered h
  | config m => exact execConfig_answered h
  | wrcmd | wrdata | wrdata16 =>
    simp only [exec, execWrcmd, execWrdata, execWrdata16] at h
    exact writePrimitive_answered h
  | rddata | rdstatus => exact readPrimitive_answered h
  | burst cb base count => exact admitTransfer_answered startBurst_answered h

/-! ### When the foreground goes on (R88) -/

theorem State.portReady_of_decode {s : State} {i : Instr} {rest : List PortWord}
    (h : decode s.params.addrWidth s.port = .ok (i, rest)) : s.portReady = true := by
  rw [State.portReady, h]

/-- An operation at the port is accepted when the foreground is free, no handler runs and nothing is pending. -/
theorem State.canMove_accept_iff {s : State} {i : Instr} {rest : List PortWord}
    (h : decode s.params.addrWidth s.port = .ok (i, rest)) :
    s.canMove .accept = true ↔
      s.fgBusy = false ∧ s.inIrq = false ∧ s.sePending = false ∧ s.tcPending = false := by
  simp [State.canMove, State.canAccept, State.portReady_of_decode h, and_assoc]

/-- What is held goes on when its hold is lifted, no handler runs and nothing is pending. -/
theorem State.canMove_resume_iff (s : State) :
    s.canMove .resume = true ↔
      s.holdLifted = true ∧ s.inIrq = false ∧ s.sePending = false ∧ s.tcPending = false := by
  simp [State.canMove, State.canResume, and_assoc]

theorem State.holdLifted_onDone {s : State} {i : Instr} (h : s.held = some (.onDone i)) : s.holdLifted = s.done := by
  rw [State.holdLifted, h]

/-- Settles O23: the two guards of the foreground, the refusals and the hold of each class, and the answer. -/
theorem admissionOfOperations : Obligations.AdmissionOfOperations := by
  refine ⟨fun s i rest => State.canMove_accept_iff, fun s i hh => ?_, fun i s => exec_callback, fun i s hi hc => ?_,
    fun i s => exec_control_session, fun m s => execConfig_dividerZero, fun i s t _ => exec_answered⟩
  · rw [State.canMove_resume_iff, State.holdLifted_onDone hh]
  · exact ⟨exec_transfer_dividerZero hi hc, exec_transfer_session hi hc⟩

end Sys2Proof.Machine

/-! Faults (60_exceptions.md R220, log 14): no operation has one, and a move has one only where the invariant fails. -/

namespace Sys2Proof.Machine

theorem noFault_of_forall {r : Result} (h : ∀ e, r ≠ .fault e) : noFault r = true := by
  cases r with
  | next | refused => rfl
  | fault e => exact absurd rfl (h e)

theorem andThen_noFault {r : Result} {f : State → Result} {e : Fault} (hr : r ≠ .fault e) (hf : ∀ u, f u ≠ .fault e) :
    andThen r f ≠ .fault e := by
  cases r with
  | next u => exact hf u
  | fault d => exact hr
  | refused d => simp

/-- Entry to a handler and the return from it have no fault of their own. -/
theorem handle_noFault {body : State → Result} {s : State} {e : Fault} (h : body s.enterIrq ≠ .fault e) :
    handle body s ≠ .fault e :=
  andThen_noFault h (by simp)

/-! ### The operations -/

theorem admitTransfer_noFault {i : Instr} {s : State} {run : State → Result} {e : Fault} (h : run s ≠ .fault e) :
    admitTransfer i s run ≠ .fault e := by
  unfold admitTransfer
  split
  · simp
  · split
    · simp
    · split
      · exact h
      · simp

theorem admitControl_noFault {reason : Refusal} {s : State} {run : State → Result} {e : Fault}
    (h : run s ≠ .fault e) : admitControl reason s run ≠ .fault e := by
  unfold admitControl
  split
  · simp
  · split
    · exact h
    · simp

theorem strobe_noFault (l : Line) (v : Level) (s : State) (e : Fault) : strobe l v s ≠ .fault e :=
  admitControl_noFault (by simp)

theorem execInit_noFault (sel : BitVec 8) (s : State) (e : Fault) : execInit sel s ≠ .fault e :=
  admitControl_noFault (by simp)

theorem writePrimitive_noFault (i : Instr) (dc : Level) (beats : State → List Beat) (s : State) (e : Fault) :
    writePrimitive i dc beats s ≠ .fault e :=
  admitTransfer_noFault (by simp)

theorem readPrimitive_noFault (i : Instr) (dc : Level) (s : State) (e : Fault) : readPrimitive i dc s ≠ .fault e :=
  admitTransfer_noFault (by simp)

theorem execConfig_noFault (m : Mode) (s : State) (e : Fault) : execConfig m s ≠ .fault e := by
  refine admitControl_noFault ?_
  split
  · simp
  · split <;> simp

theorem startBurst_noFault (cb : Bool) (base : Nat) (count : BitVec 32) (s : State) (e : Fault) :
    startBurst cb base count s ≠ .fault e := by
  unfold startBurst
  dsimp only
  split
  · simp
  · split
    · simp
    · split
      · exact andThen_noFault (runCallback_noFault _ e) (by simp)
      · simp

/-- No operation faults, in any state: what an operation cannot do it refuses. -/
theorem exec_noFault (i : Instr) (s : State) (e : Fault) : exec i s ≠ .fault e := by
  cases i with
  | selchip | deselchip | selcmd | seldata | rdlow | rdhigh => exact strobe_noFault _ _ s e
  | init sel => exact execInit_noFault sel s e
  | config m => exact execConfig_noFault m s e
  | wrcmd | wrdata | wrdata16 =>
    simp only [exec, execWrcmd, execWrdata, execWrdata16]
    exact writePrimitive_noFault _ _ _ s e
  | rddata | rdstatus => exact readPrimitive_noFault _ _ s e
  | burst cb base count => exact admitTransfer_noFault (startBurst_noFault cb base count s e)

/-! ### The interrupt handlers -/

/-- A refill from a live cursor over bytes that exist does not fault. -/
theorem fullRefill_noFault {s : State} {o : Nat} (e : Fault) (hcur : s.readCursor = .live o)
    (hfits : s.bufBase + o + s.params.burstBytes ≤ 2 ^ s.params.addrWidth) : fullRefill s ≠ .fault e := by
  simp [fullRefill, hcur, State.memRead_of_le hfits]

/-- In a session the cursor of a full refill is live, and its burst lies in the buffer (43_burst.md R193, 20_memory.md
R63). -/
theorem State.SessionInv.live_cursor {s : State} (k : s.SessionInv) (hpos : 0 < s.params.burstBytes)
    (hge : s.params.burstBytes ≤ s.bytesRemaining.toNat) :
    ∃ o, s.readCursor = .live o ∧ s.bufBase + o + s.params.burstBytes ≤ 2 ^ s.params.addrWidth := by
  have h0 : s.bytesRemaining ≠ 0 := fun h0 => by simp [h0] at hge; omega
  obtain ⟨hcur, -⟩ := k.cursor h0
  have hle := k.remaining_le
  have hfits := k.buffer_fits
  exact ⟨_, hcur, by omega⟩

theorem shifterEmptyHandler_noFault {s : State} (hs : s.Inv) (hp : s.sePending = true) (e : Fault) :
    shifterEmptyHandler s ≠ .fault e := by
  obtain ⟨hd, -⟩ := hs.active_of_sePending hp
  refine handle_noFault ?_
  unfold shifterEmptyBody
  split
  · simp
  · split
    · simp
    · rename_i hge
      obtain ⟨o, hcur, hfits⟩ := (hs.session hd).live_cursor (Params.burstBytes_pos hs.params) (Nat.not_lt.1 hge)
      exact fullRefill_noFault (s := s.enterIrq) e hcur hfits

theorem burstCompleteHandler_noFault {s : State} (hs : s.Inv) (hp : s.tcPending = true) (e : Fault) :
    burstCompleteHandler s ≠ .fault e := by
  obtain ⟨hd, -⟩ := hs.active_of_tcPending hp
  refine handle_noFault ?_
  unfold burstCompleteBody
  rw [if_neg (show s.enterIrq.burstsRemaining ≠ 0 from (hs.session hd).count_pos)]
  split
  · exact runCallback_noFault _ e
  · simp

/-! ### The moves -/

theorem acceptNext_noFault (s : State) (e : Fault) : acceptNext s ≠ .fault e := by
  unfold acceptNext
  split
  · exact exec_noFault _ _ e
  · simp
  · simp

theorem resumeHeld_noFault (s : State) (e : Fault) : resumeHeld s ≠ .fault e := by
  unfold resumeHeld
  split
  case h_2 => exact exec_noFault _ _ e
  all_goals simp

/-- The caller stores only to addresses that exist. -/
theorem hostStoreNext_noFault {s : State} (hs : s.Inv) (e : Fault) : hostStoreNext s ≠ .fault e := by
  unfold hostStoreNext
  split
  · simp
  · rename_i c cs hc
    rw [if_pos (hs.stores_space c (hc ▸ List.mem_cons_self))]
    simp

theorem perform_noFault {m : Move} {s : State} (hs : s.Inv) (hm : s.canMove m = true) (e : Fault) :
    perform m s ≠ .fault e := by
  cases m with
  | shifterEmpty =>
    have hp := State.sePending_of_shifterEmpty hm
    exact shifterEmptyHandler_noFault hs.spendInterrupt hp e
  | burstComplete =>
    have hp := State.tcPending_of_burstComplete hm
    exact burstCompleteHandler_noFault hs.spendInterrupt hp e
  | bankLoad | writeBeat | readBeat => simp [perform]
  | accept => exact acceptNext_noFault s e
  | resume => exact resumeHeld_noFault s e
  | hostStore => exact hostStoreNext_noFault hs e

/-- Settles O50: a step faults only as an enabled move does, and under the invariant none does. -/
theorem theInvariantExcludesFaults : Obligations.TheInvariantExcludesFaults := by
  refine fun s hs => noFault_of_forall fun e h => ?_
  obtain ⟨m, u, hm, rfl | rfl, hp⟩ := step_eq_fault h
  · exact perform_noFault hs hm e hp
  · exact perform_noFault hs.afterChoice (by simpa using hm) e hp

end Sys2Proof.Machine

/-! The foreground's steps (30_encoding.md R80, R88; 42_sync.md R151, R152): the step of a state by its enabled moves, where
nothing else can step, and under a schedule that chooses the foreground. -/

namespace Sys2Proof.Machine

/-! ### The step by the enabled moves -/

theorem step_of_enabled_nil {s : State} (hwf : s.params.wf = true) (h : s.enabled = []) : step s = .next s := by
  rw [step, if_pos hwf, stepAgents, h]

theorem step_of_enabled_singleton {s : State} {m : Move} (hwf : s.params.wf = true) (h : s.enabled = [m]) :
    step s = perform m s := by
  rw [step, if_pos hwf, stepAgents, h]

/-- A schedule enables and disables no move. -/
theorem State.withSched_enabled (s : State) (ks : List Nat) : ({ s with sched := ks } : State).enabled = s.enabled := by
  have hcan : ({ s with sched := ks } : State).canMove = s.canMove := by
    funext m
    cases m <;> rfl
  rw [State.enabled, State.enabled, hcan]

/-- Where several moves are enabled the next number of the schedule tells which one is taken (60_exceptions.md R228). -/
theorem step_of_sched {s : State} {k : Nat} (hwf : s.params.wf = true) (h2 : 2 ≤ s.enabled.length)
    (hk : k < s.enabled.length) : step { s with sched := k :: s.sched } = perform s.enabled[k] s := by
  obtain ⟨m, n, ms, he⟩ : ∃ m n ms, s.enabled = m :: n :: ms := by
    match he : s.enabled, h2 with
    | m :: n :: ms, _ => exact ⟨m, n, ms, rfl⟩
  have hstep : step { s with sched := k :: s.sched } =
      perform ((m :: n :: ms).getD (k % (m :: n :: ms).length) m) s := by
    rw [step, if_pos (by exact hwf), stepAgents, State.withSched_enabled, he]
    rfl
  simp only [he] at hk ⊢
  rw [hstep, Nat.mod_eq_of_lt hk, List.getD_eq_getElem _ _ hk]

/-- Each of two enabled moves can be the one taken. -/
theorem exists_sched_of_canMove {s : State} {m n : Move} (hwf : s.params.wf = true) (hm : s.canMove m = true)
    (hn : s.canMove n = true) (hne : n ≠ m) : ∃ k, step { s with sched := k :: s.sched } = perform m s := by
  obtain ⟨k, hk, hget⟩ := List.getElem_of_mem ((mem_enabled s m).2 hm)
  have h2 : 2 ≤ s.enabled.length := by
    by_contra hlt
    obtain ⟨j, hj, hgetj⟩ := List.getElem_of_mem ((mem_enabled s n).2 hn)
    obtain rfl : j = k := by omega
    exact hne (hgetj.symm.trans hget)
  exact ⟨k, by rw [step_of_sched hwf h2 hk, hget]⟩

/-! ### Only the foreground can step -/

/-- Where nothing but the foreground can step, its two moves are all that can be enabled. -/
theorem State.enabled_of_quiet {s : State} (h : s.quiet = true) :
    s.enabled = [Move.accept, Move.resume].filter s.canMove := by
  simp only [State.quiet, List.all_cons, List.all_nil, Bool.and_true, Bool.and_eq_true, Bool.not_eq_true'] at h
  obtain ⟨hse, hbc, hbl, hwb, hrb, hhs⟩ := h
  simp only [State.enabled, allMoves, List.filter_cons, List.filter_nil, hse, hbc, hbl, hwb, hrb, hhs]
  rfl

/-- Where something else can step, one of its moves is enabled. -/
theorem State.canMove_of_not_quiet {s : State} (h : s.quiet = false) : ∃ m, m ≠ .accept ∧ s.canMove m = true := by
  obtain ⟨m, hmem, hm⟩ := List.all_eq_false.1 h
  refine ⟨m, ?_, by simpa using hm⟩
  rintro rfl
  exact absurd hmem (by decide)

theorem State.not_canMove_resume {s : State} (h : s.holdLifted = false) : s.canMove .resume = false := by
  simp [State.canMove, State.canResume, h]

theorem State.not_canMove_accept {s : State} (h : s.fgBusy = true) : s.canMove .accept = false := by
  simp [State.canMove, State.canAccept, h]

/-! ### Accept -/

theorem perform_accept_of_decode {s : State} {i : Instr} {rest : List PortWord}
    (h : decode s.params.addrWidth s.port = .ok (i, rest)) : perform .accept s = exec i { s with port := rest } := by
  simp only [perform, acceptNext, h]

/-- Settles O42: the accept is the only enabled move, or one that some schedule chooses. -/
theorem stepRunsTheDecodedOperation : Obligations.StepRunsTheDecodedOperation := by
  intro s i rest hwf hdec hbusy hheld hirq hse htc
  have haccept := (State.canMove_accept_iff hdec).2 ⟨hbusy, hirq, hse, htc⟩
  rw [← perform_accept_of_decode hdec]
  constructor
  · intro hquiet
    have hresume : s.canMove .resume = false := State.not_canMove_resume (by rw [State.holdLifted, hheld])
    exact step_of_enabled_singleton hwf (by simp [State.enabled_of_quiet hquiet, haccept, hresume])
  · intro hquiet
    obtain ⟨m, hne, hm⟩ := State.canMove_of_not_quiet hquiet
    exact exists_sched_of_canMove hwf haccept hm hne

/-! ### Resume -/

theorem resumeHeld_onDone {s : State} {i : Instr} (h : s.held = some (.onDone i)) : resumeHeld s = exec i s := by
  rw [resumeHeld, h]

theorem resumeHeld_onReady {s : State} {vs : List Beat} (h : s.held = some (.onReady vs)) :
    resumeHeld s = .next (State.sendBeats vs s) := by
  rw [resumeHeld, h]

theorem resumeHeld_onWriteFlags {s : State} {vs : List Beat} (h : s.held = some (.onWriteFlags vs)) :
    resumeHeld s = .next (State.sendBeats vs s.clearDoneFlags) := by
  rw [resumeHeld, h]

theorem resumeHeld_onReadFlags {s : State} (h : s.held = some .onReadFlags) :
    resumeHeld s = .next s.clearDoneFlags.finishRead := by
  rw [resumeHeld, h]

/-- A busy foreground whose hold is lifted resumes, where nothing else can step and nothing pre-empts it. -/
theorem step_eq_resumeHeld {s : State} (hwf : s.params.wf = true) (hbusy : s.fgBusy = true) (hquiet : s.quiet = true)
    (hresume : s.canMove .resume = true) : step s = resumeHeld s :=
  step_of_enabled_singleton (m := .resume) hwf (by
    simp [State.enabled_of_quiet hquiet, State.not_canMove_accept hbusy, hresume])

/-- A busy foreground whose hold is not lifted waits (60_exceptions.md R224). -/
theorem step_eq_self_of_hold {s : State} (hwf : s.params.wf = true) (hbusy : s.fgBusy = true) (hquiet : s.quiet = true)
    (hlift : s.holdLifted = false) : step s = .next s :=
  step_of_enabled_nil hwf (by
    simp [State.enabled_of_quiet hquiet, State.not_canMove_accept hbusy, State.not_canMove_resume hlift])

/-- Settles O43: the resume is the only enabled move where its hold is lifted, and none is where it is not. -/
theorem stepResumesTheHeldOperation : Obligations.StepResumesTheHeldOperation := by
  intro s hwf hbusy hirq hse htc hquiet
  have hgo (hlift : s.holdLifted = true) : step s = resumeHeld s :=
    step_eq_resumeHeld hwf hbusy hquiet ((State.canMove_resume_iff s).2 ⟨hlift, hirq, hse, htc⟩)
  refine ⟨fun i hh hd => ?_, fun vs hh hr => ?_, fun vs hh hs ht => ?_, fun hh hs ht => ?_,
    fun _ _ => step_eq_self_of_hold hwf hbusy hquiet⟩
  · exact (hgo (by rw [State.holdLifted_onDone hh, hd])).trans (resumeHeld_onDone hh)
  · exact (hgo (by rw [State.holdLifted, hh, hr])).trans (resumeHeld_onReady hh)
  · exact (hgo (by simp [State.holdLifted, hh, State.doneFlags, hs, ht])).trans (resumeHeld_onWriteFlags hh)
  · exact (hgo (by simp [State.holdLifted, hh, State.doneFlags, hs, ht])).trans (resumeHeld_onReadFlags hh)

end Sys2Proof.Machine

/-! The strobe operations (40_strobe.md R110 to R119): each is one drive of its line and an acknowledgement, and a
sequence of them changes nothing but the pins, the trace and the responses. -/

namespace Sys2Proof.Machine

/-! ### The pins under two writes -/

/-- The second of two writes of one line wins. -/
theorem State.setPin_setPin_same (s : State) (l : Line) (v w : Level) : (s.setPin l v).setPin l w = s.setPin l w := by
  cases l <;> rfl

/-- Writes of different lines commute. -/
theorem State.setPin_comm {l k : Line} (h : l ≠ k) (s : State) (v w : Level) :
    (s.setPin l v).setPin k w = (s.setPin k w).setPin l v := by
  cases l <;> cases k <;> simp_all [State.setPin]

/-! ### The observation of drives (R14) -/

/-- A drive of the level its line has is not observed. -/
theorem observation_drive_pin (l : Line) (s : State) (es : List Event) :
    observation s.cs s.dc s.rd (.drive l (s.pin l) :: es) = observation s.cs s.dc s.rd es := by
  cases l <;> simp [observation, redundantDrive, State.pin]

/-- Of two equal drives in a row the second is not observed. -/
theorem observation_drive_drive_same (cs dc rd : Level) (l : Line) (v : Level) (es : List Event) :
    observation cs dc rd (.drive l v :: .drive l v :: es) = observation cs dc rd (.drive l v :: es) := by
  cases l <;> simp [observation, redundantDrive]

/-! ### One strobe operation -/

/-- The state after an admitted strobe operation: the line driven, `Ack` given (R110). -/
def State.strobed (s : State) (l : Line) (v : Level) : State := (s.drive l v).ret .ack

theorem strobe_run {s : State} (l : Line) (v : Level) (hc : s.inCallback = false) (hd : s.done = true) :
    strobe l v s = .next (s.strobed l v) :=
  admitControl_run hc hd

theorem exec_eq_strobe {i : Instr} {a : Line × Level} (h : strobeTarget i = some a) (s : State) :
    exec i s = strobe a.1 a.2 s := by
  cases i with
  | selchip | deselchip | selcmd | seldata | rdlow | rdhigh => cases h; rfl
  | init | config | wrcmd | wrdata | wrdata16 | rddata | rdstatus | burst => cases h

/-- Outside a session and the callback every strobe operation runs, whatever the divider (R119). -/
theorem exec_of_strobeTarget {i : Instr} {a : Line × Level} {s : State} (h : strobeTarget i = some a)
    (hc : s.inCallback = false) (hd : s.done = true) : exec i s = .next (s.strobed a.1 a.2) := by
  rw [exec_eq_strobe h, strobe_run a.1 a.2 hc hd]

theorem isTransfer_of_strobeTarget {i : Instr} (h : (strobeTarget i).isSome = true) : i.isTransfer = false := by
  cases i with
  | selchip | deselchip | selcmd | seldata | rdlow | rdhigh | init | config => rfl
  | wrcmd | wrdata | wrdata16 | rddata | rdstatus | burst => cases h

@[simp] theorem State.strobed_pin (s : State) (l k : Line) (v : Level) :
    (s.strobed l v).pin k = if k = l then v else s.pin k := s.drive_pin l k v
@[simp] theorem State.strobed_done (s : State) (l : Line) (v : Level) : (s.strobed l v).done = s.done := by
  simp [State.strobed]
@[simp] theorem State.strobed_inCallback (s : State) (l : Line) (v : Level) :
    (s.strobed l v).inCallback = s.inCallback := by simp [State.strobed]
@[simp] theorem State.strobed_divider (s : State) (l : Line) (v : Level) : (s.strobed l v).divider = s.divider := by
  simp [State.strobed]
@[simp] theorem State.strobed_trace (s : State) (l : Line) (v : Level) :
    (s.strobed l v).trace = s.trace ++ [.drive l v] := by simp [State.strobed]

/-- Two strobe operations write their latches in turn, and append their two events and two answers. -/
theorem State.strobed_strobed (s : State) (l k : Line) (v w : Level) :
    (s.strobed l v).strobed k w = { (s.setPin l v).setPin k w with
      trace := s.trace ++ [.drive l v, .drive k w], responses := s.responses ++ [.ack, .ack],
      fgBusy := false, held := none } := by
  cases l <;> cases k <;> simp [State.strobed, State.drive, State.ret, State.emit, State.setPin]

/-! ### Sequences of strobe operations -/

/-- From `s` to `t` nothing changed but the pins, the trace and the responses (R117 (d)). -/
def State.OnlyPins (s t : State) : Prop :=
  t = { s with cs := t.cs, dc := t.dc, rd := t.rd, trace := t.trace, responses := t.responses }

theorem State.OnlyPins.refl (s : State) : s.OnlyPins s := rfl

theorem State.OnlyPins.trans {s t u : State} (hst : s.OnlyPins t) (htu : t.OnlyPins u) : s.OnlyPins u := by
  unfold State.OnlyPins at hst htu ⊢
  rw [hst] at htu
  exact htu

theorem State.onlyPins_strobed {s : State} (l : Line) (v : Level) (hbusy : s.fgBusy = false) (hheld : s.held = none) :
    s.OnlyPins (s.strobed l v) := by
  cases l <;> simp [State.OnlyPins, State.strobed, State.drive, State.ret, State.emit, State.setPin, hbusy, hheld]

theorem execAll_cons_of_next {i : Instr} {is : List Instr} {s t : State} (h : exec i s = .next t) :
    execAll (i :: is) s = execAll is t := by
  rw [execAll, h, andThen_next]

/-- The first operation of a sequence sets the level that the others start from. -/
theorem lastLevel_cons {i : Instr} {a : Line × Level} (h : strobeTarget i = some a) (is : List Instr) (l : Line)
    (before : Level) : lastLevel (i :: is) l before = lastLevel is l (if a.1 = l then a.2 else before) := by
  rw [lastLevel, List.foldl_cons, h, lastLevel]

/-- Settles O7, by induction on the sequence: the first operation leaves a state that the rest starts from. -/
theorem lastStrobeOperationWins : Obligations.LastStrobeOperationWins := by
  intro is
  induction is with
  | nil => exact fun s _ _ _ _ _ => ⟨s, rfl, fun _ => rfl, State.OnlyPins.refl s⟩
  | cons i is ih =>
    intro s hall hd hc hbusy hheld
    obtain ⟨hi, his⟩ := List.forall_mem_cons.1 hall
    obtain ⟨a, ha⟩ := Option.isSome_iff_exists.1 hi
    obtain ⟨t, hrun, hpin, hframe⟩ := ih (s.strobed a.1 a.2) his (by simpa using hd) (by simpa using hc)
      (State.ret_fgBusy _ _) (State.ret_held _ _)
    refine ⟨t, ?_, fun l => ?_, (State.onlyPins_strobed a.1 a.2 hbusy hheld).trans hframe⟩
    · rw [execAll_cons_of_next (exec_of_strobeTarget ha hc hd), hrun]
    · rw [hpin l, lastLevel_cons ha, State.strobed_pin]
      simp only [eq_comm]

/-- Settles O5: each word by evaluation, each effect as the drive of the operation's line. -/
theorem strobeOperationsDriveOneLine : Obligations.StrobeOperationsDriveOneLine := by
  refine ⟨⟨rfl, rfl, rfl, rfl, rfl, rfl⟩, ⟨rfl, rfl⟩, fun l s => observation_drive_pin l s [], fun s hd hc => ?_⟩
  have heffect {i : Instr} (l : Line) (v : Level) (h : strobeTarget i = some (l, v)) :
      exec i s = .next (s.strobed l v) := exec_of_strobeTarget h hc hd
  exact ⟨heffect .cs .low rfl, heffect .cs .high rfl, heffect .dc .low rfl, heffect .dc .high rfl,
    heffect .rd .low rfl, heffect .rd .high rfl⟩

/-- Settles O6: the two refusals are those of every operation that is no transfer, and an admitted operation leaves the
divider as it was. -/
theorem strobeOperationsAreAdmittedOutsideSessions : Obligations.StrobeOperationsAreAdmittedOutsideSessions := by
  intro i s hi
  obtain ⟨a, ha⟩ := Option.isSome_iff_exists.1 hi
  refine ⟨exec_callback, fun hc hd => ?_, fun hc hd => ⟨_, exec_of_strobeTarget ha hc hd⟩,
    fun hc hd hdiv => ⟨_, exec_of_strobeTarget ha hc hd, (s.strobed_divider a.1 a.2).trans hdiv⟩⟩
  rw [exec_control_session (isTransfer_of_strobeTarget hi) hc hd, if_pos hi]

/-- Settles O8: the second write of the latch is the first again, and its event is redundant. -/
theorem strobeOperationTwiceIsOnce : Obligations.StrobeOperationTwiceIsOnce := by
  intro i s hi hd hc
  obtain ⟨⟨l, v⟩, ha⟩ := Option.isSome_iff_exists.1 hi
  refine ⟨s.strobed l v, (s.strobed l v).strobed l v, [.drive l v], [.drive l v, .drive l v],
    exec_of_strobeTarget ha hc hd, exec_of_strobeTarget ha (by simpa using hc) (by simpa using hd), ?_,
    s.strobed_trace l v, by simp, observation_drive_drive_same _ _ _ l v []⟩
  rw [State.strobed_strobed, State.setPin_setPin_same]
  rfl

/-- Two strobe operations in a row, outside a session and the callback. -/
theorem execAll_strobe_strobe {i j : Instr} {a b : Line × Level} {s : State} (hi : strobeTarget i = some a)
    (hj : strobeTarget j = some b) (hc : s.inCallback = false) (hd : s.done = true) :
    execAll [i, j] s = .next ((s.strobed a.1 a.2).strobed b.1 b.2) := by
  rw [execAll_cons_of_next (exec_of_strobeTarget hi hc hd),
    execAll_cons_of_next (exec_of_strobeTarget hj (by simpa using hc) (by simpa using hd)), execAll]

/-- Settles O9: the latches are different, so their writes commute; the events keep their order. -/
theorem strobeOperationsOnDifferentLinesCommute : Obligations.StrobeOperationsOnDifferentLinesCommute := by
  intro i j a b s hi hj hne hd hc
  refine ⟨_, _, execAll_strobe_strobe hi hj hc hd, execAll_strobe_strobe hj hi hc hd, ?_, by simp, by simp⟩
  rw [State.strobed_strobed, State.strobed_strobed, State.setPin_comm hne]

end Sys2Proof.Machine

/-! The Engine Configuration Manager (41_config.md R131 to R139, R145): the peripheral reset, INIT, and CONFIG of each mode. -/

namespace Sys2Proof.Machine

/-! ### The peripheral reset (R139) -/

theorem State.mem_periphReset_bank {s : State} {l : Lane} (h : l ∈ s.periphReset.bank) : l = Lane.cleared s.params :=
  List.eq_of_mem_replicate h

/-- Settles O13: the lanes of the reset bank are cleared ones. -/
theorem peripheralResetClearsThePeripheral : Obligations.PeripheralResetClearsThePeripheral := by
  intro s
  refine ⟨rfl, List.length_replicate, fun l hl => ?_⟩
  rw [State.mem_periphReset_bank hl]
  exact ⟨rfl, rfl, rfl⟩

/-! ### INIT (R131) -/

/-- Settles O12: a divider of the table is a legal one, the refusals are those of every operation that is no transfer, and
the effect is that of the reset and two drives. -/
theorem initSelectsTheDividerAndResetsTheEngine : Obligations.InitSelectsTheDividerAndResetsTheEngine := by
  intro sel s
  refine ⟨encode_init sel, legalDividers_ne_zero (dividerOfSelector_legal sel), dividerOfSelector_of_unrecognized,
    exec_callback, exec_control_session rfl, fun hc hd => ?_⟩
  have htrace : s.trace ++ [.drive .cs .high] ++ [.drive .rd .high] =
      s.trace ++ [.drive .cs .high, .drive .rd .high] := List.append_assoc _ _ _
  rw [exec, execInit, admitControl_run hc hd, ← htrace]
  rfl

/-! ### CONFIG (R133 to R138) -/

/-- The compare value of the beat count that the mode asks for (R136 to R138). -/
theorem State.configure_timcmp {m : Mode} (hm : m ≠ .idle) (s : State) :
    (s.configure m).timcmp = compareValue (programBeats s.params m) s.divider := by
  cases m with
  | idle => exact absurd rfl hm
  | singleBeatWrite | singleBeatRead | multiBeatBurst => rfl

theorem programBeats_of_ne_idle {m : Mode} (hm : m ≠ .idle) (p : Params) :
    programBeats p m = if m = .multiBeatBurst then p.burstBeats else 1 := by
  cases m with
  | idle => exact absurd rfl hm
  | singleBeatWrite | singleBeatRead | multiBeatBurst => rfl

theorem execConfig_run {m : Mode} {s : State} (hm : m ≠ .idle) (hc : s.inCallback = false) (hd : s.done = true)
    (hdiv : s.divider ≠ 0) : execConfig m s = .next ((s.configure m).ret .ack) := by
  rw [execConfig, admitControl_run hc hd, if_neg hm, if_neg hdiv]

/-- Settles O14: the mode is configured, with the beat count that it asks for, and acknowledged. -/
theorem configProgramsTheRequestedMode : Obligations.ConfigProgramsTheRequestedMode := by
  refine ⟨⟨rfl, rfl, rfl⟩, fun m s hm hc hd hdiv => ?_⟩
  have hrun : exec (.config m) s = .next ((s.configure m).ret .ack) := execConfig_run hm hc hd hdiv
  rw [hrun, State.configure_eq, State.configure_timcmp hm, programBeats_of_ne_idle hm]
  rfl

theorem execConfig_idle {s : State} (hc : s.inCallback = false) (hd : s.done = true) :
    execConfig .idle s = .refused .reservedEncoding := by
  rw [execConfig, admitControl_run hc hd, if_pos rfl]

/-- Settles O15: the refusals of every operation that is no transfer, then those of the body; the word of Idle is the
reserved one of the table. -/
theorem configRefusals : Obligations.ConfigRefusals := by
  intro m s
  refine ⟨exec_callback, exec_control_session rfl, fun hc hd hm => execConfig_dividerZero hm hc hd, execConfig_idle, ?_⟩
  exact (decode_eq_reserved_iff (w := 0x11000000#32)).2 (.inr rfl)

/-! ### Configuring the mode again (R145) -/

/-- Settles O17: each register that CONFIG writes has its value already, and a free bank stays free. -/
theorem sameModeConfigureKeepsTheState : Obligations.SameModeConfigureKeepsTheState := by
  intro s m hm hmode hpen hleft hlen hrdy hsdone htsf hsien htien htimcmp
  refine ⟨s.periphReset.bank, ?state, ?ready⟩
  case state =>
    rw [State.configure_eq, State.configure_timcmp hm, ← htimcmp]
    simp [State.periphReset, hmode, hpen, hleft, hsdone, htsf, hsien, htien]
  case ready =>
    have hfree : s.bank.map Lane.rdy = List.replicate s.params.shifters true :=
      List.eq_replicate_iff.2 ⟨by rw [List.length_map, hlen], by simpa using hrdy⟩
    rw [hfree]
    exact List.map_replicate

end Sys2Proof.Machine

/-! The peripheral's steps (41_config.md R140 to R143): the guard and the effect of each; and the moves that a step can
take (60_exceptions.md R228). -/

namespace Sys2Proof.Machine

theorem Mode.transmits_iff (m : Mode) :
    Mode.transmits m = true ↔ m = .singleBeatWrite ∨ m = .multiBeatBurst := by
  cases m <;> decide

/-! ### Bank load (R141) -/

theorem State.activeLanes_burst {s : State} (hm : s.mode = .multiBeatBurst) : s.activeLanes = s.params.shifters := by
  rw [State.activeLanes, hm]

theorem State.activeLanes_single {s : State} (hm : s.mode = .singleBeatWrite) : s.activeLanes = 1 := by
  rw [State.activeLanes, hm]

/-- The guard of a bank load, by the lanes that take part in it. -/
theorem State.canBankLoad_iff (s : State) :
    s.canBankLoad = true ↔ s.pen = true ∧ (s.mode = .singleBeatWrite ∨ s.mode = .multiBeatBurst) ∧ s.beatsLeft = 0 ∧
      ∀ l ∈ s.bank.take s.activeLanes, l.rdy = false := by
  simp only [State.canBankLoad, Bool.and_eq_true, Mode.transmits_iff, decide_eq_true_eq, List.all_eq_true,
    Bool.not_eq_true', and_assoc]

/-- The one lane that takes part in SingleBeatWrite mode is lane 0. -/
theorem forall_mem_take_one_iff {ls : List Lane} {P : Lane → Prop} (h : ls ≠ []) :
    (∀ l ∈ ls.take 1, P l) ↔ ∃ l, ls[0]? = some l ∧ P l := by
  obtain ⟨l, ls, rfl⟩ := List.exists_cons_of_ne_nil h
  simp

/-- The guard of a bank load in each of the two modes that transmit. -/
theorem State.canBankLoad_iff_of_bank {s : State} (hb : s.bank.length = s.params.shifters) (h1 : 1 ≤ s.params.shifters) :
    s.canBankLoad = true ↔ s.pen = true ∧ s.beatsLeft = 0 ∧
      ((s.mode = .multiBeatBurst ∧ ∀ l ∈ s.bank, l.rdy = false) ∨
        (s.mode = .singleBeatWrite ∧ ∃ l, s.bank[0]? = some l ∧ l.rdy = false)) := by
  have hne : s.bank ≠ [] := List.ne_nil_of_length_pos (by omega)
  rw [State.canBankLoad_iff]
  cases hm : s.mode with
  | idle | singleBeatRead => simp
  | singleBeatWrite => simp [State.activeLanes_single hm, forall_mem_take_one_iff hne]
  | multiBeatBurst => simp [State.activeLanes_burst hm, ← hb]

theorem State.bankLoad_bank_length (s : State) : s.bankLoad.bank.length = s.bank.length := by
  have h := congrArg List.length (List.take_append_drop s.activeLanes s.bank)
  rwa [List.length_append, ← List.length_map Lane.shiftIn, ← List.length_append] at h

/-- Lane by lane: the active ones move into their shifters, the others stay. -/
theorem State.bankLoad_bank_getElem? (s : State) (i : Nat) :
    s.bankLoad.bank[i]? = s.bank[i]?.map (fun l => if i < s.activeLanes then l.shiftIn else l) := by
  rcases Nat.lt_or_ge i s.bank.length with hlt | hge
  · have hactive : ((s.bank.take s.activeLanes).map Lane.shiftIn).length = min s.activeLanes s.bank.length := by
      rw [List.length_map, List.length_take]
    rw [State.bankLoad_bank]
    by_cases hi : i < s.activeLanes
    · rw [List.getElem?_append_left (by omega)]
      simp [hi]
    · rw [List.getElem?_append_right (by omega), hactive, List.getElem?_drop,
        show s.activeLanes + (i - min s.activeLanes s.bank.length) = i by omega]
      simp [hi]
  · rw [List.getElem?_eq_none (by rwa [State.bankLoad_bank_length]), List.getElem?_eq_none hge]
    rfl

/-- Where a bank load is enabled every lane of a burst is active, and lane 0 in either mode. -/
theorem State.lt_activeLanes {s : State} {i : Nat} {l : Lane} (hb : s.bank.length = s.params.shifters)
    (hcan : s.canBankLoad = true) (hl : s.bank[i]? = some l) (hi : s.mode = .multiBeatBurst ∨ i = 0) :
    i < s.activeLanes := by
  obtain ⟨hlt, -⟩ := List.getElem?_eq_some_iff.1 hl
  obtain ⟨-, hm | hm, -⟩ := s.canBankLoad_iff.1 hcan
  · obtain rfl : i = 0 := hi.resolve_left (by simp [hm])
    rw [State.activeLanes_single hm]
    exact Nat.one_pos
  · rwa [State.activeLanes_burst hm, ← hb]

/-- Settles O37: the active lanes are all of them or lane 0, by the mode; a bank that moved whole is free. -/
theorem bankLoadMovesTheActiveLanes : Obligations.BankLoadMovesTheActiveLanes := by
  intro s hb h1
  refine ⟨State.canBankLoad_iff_of_bank hb h1, fun hcan => ⟨s.bankLoad.bank, rfl, ?length, ?lanes, ?pending⟩⟩
  case length => exact s.bankLoad_bank_length
  case lanes =>
    intro i l hl
    rw [State.bankLoad_bank_getElem?, hl, Option.map_some]
    refine ⟨fun h => ?_, fun hm hi => ?_⟩
    · rw [if_pos (State.lt_activeLanes hb hcan hl h), Lane.shiftIn]
    · rw [if_neg (by rw [State.activeLanes_single hm]; omega)]
  case pending =>
    intro hm hsien
    have hfree : ({ s with bank := s.bankLoad.bank } : State).allReady = true := by
      rw [State.bankLoad_burst_bank hm hb]
      exact shiftIn_allReady _
    rw [State.sePending, hfree]
    simp [hm, hsien]

/-! ### Write beat (R142) -/

theorem State.canWriteBeat_iff (s : State) :
    s.canWriteBeat = true ↔ s.pen = true ∧ (s.mode = .singleBeatWrite ∨ s.mode = .multiBeatBurst) ∧ s.beatsLeft ≠ 0 ∧
      (s.inIrq = true ∨ (s.sePending = false ∧ s.tcPending = false)) := by
  have hpre : (!s.preempted) = true ↔ s.inIrq = true ∨ (s.sePending = false ∧ s.tcPending = false) := by
    cases hi : s.inIrq <;> simp [State.preempted, hi]
  simp only [State.canWriteBeat, Bool.and_eq_true, Mode.transmits_iff, decide_eq_true_eq, hpre, and_assoc]

theorem beatOfBytes_w8 {p : Params} {bytes : List Byte} {k : Nat} {v : Beat} (hw : p.busWidth = .w8)
    (hv : bytes[k]?.map (fun b => b.setWidth 16) = some v) : beatOfBytes p bytes k = v := by
  obtain ⟨b, hb, rfl⟩ := Option.map_eq_some_iff.1 hv
  simp [beatOfBytes, hw, byteBeat, hb]

theorem beatOfBytes_w16 {p : Params} {bytes : List Byte} {k : Nat} {hi lo : Byte} (hw : p.busWidth = .w16)
    (hhi : bytes[2 * k + 1]? = some hi) (hlo : bytes[2 * k]? = some lo) : beatOfBytes p bytes k = hi ++ lo := by
  simp [beatOfBytes, hw, hhi, hlo]

/-- The next beat is a unit of the shifter that `beatIdx` stands in. -/
theorem State.beatValue_of_lane {s : State} {l : Lane}
    (h : s.bank[s.beatIdx.toNat / s.params.beatsPerShifter]? = some l) :
    s.beatValue = beatOfBytes s.params l.sreg (s.beatIdx.toNat % s.params.beatsPerShifter) := by
  simp [State.beatValue, h]

/-- Settles O38: the beat is that unit in either bus width; the last beat's flag makes the armed source pending. -/
theorem writeBeatShiftsOutTheNextUnit : Obligations.WriteBeatShiftsOutTheNextUnit := by
  refine ⟨State.canWriteBeat_iff, fun s l v k hk hl h8 h16 => ⟨?effect, ?pending⟩⟩
  case effect =>
    have hv : s.beatValue = v := by
      rw [State.beatValue_of_lane hl, ← hk]
      cases hw : s.params.busWidth with
      | w8 => exact beatOfBytes_w8 hw (h8 hw)
      | w16 =>
        obtain ⟨hi, lo, hhi, hlo, rfl⟩ := h16 hw
        exact beatOfBytes_w16 hw hhi hlo
    rw [State.writeBeat_eq, hv]
  case pending =>
    intro hlast hm htien
    simp [State.tcPending, hlast, hm, htien]

/-! ### Read beat (R143) -/

theorem State.canReadBeat_iff (s : State) :
    s.canReadBeat = true ↔ s.pen = true ∧ s.mode = .singleBeatRead ∧ s.beatsLeft ≠ 0 := by
  simp only [State.canReadBeat, Bool.and_eq_true, decide_eq_true_eq, and_assoc]

theorem State.nextBusIn_eq (s : State) : s.nextBusIn = fitBus s.params (s.busIn.headD (Config.busIn s.trace)) := by
  rw [State.nextBusIn]
  cases s.busIn <;> rfl

theorem State.readBeat_eq (s : State) :
    s.readBeat = { s with
      trace := s.trace ++ [.rbeat s.cs s.dc s.rd s.nextBusIn], rxdata := s.nextBusIn, busIn := s.busIn.tail,
      beatsLeft := 0, sdone := true, tsf := true } := rfl

/-- Settles O39: the sample is the next answer of the oracle. -/
theorem readBeatSamplesTheBus : Obligations.ReadBeatSamplesTheBus := by
  refine ⟨fun s => rfl, State.canReadBeat_iff, fun s v hv => ?_⟩
  rw [hv, ← State.nextBusIn_eq, State.readBeat_eq]

/-! ### The enabled moves (R140, R228) -/

theorem State.interruptLive_and_iff (s : State) {guard : Bool} :
    (s.interruptLive && guard) = true ↔ s.interruptSteps ≠ some 0 ∧ guard = true := by
  rw [Bool.and_eq_true, State.interruptLive_iff]

theorem State.peripheralLive_and_iff (s : State) {guard : Bool} :
    (s.peripheralLive && guard) = true ↔ s.peripheralSteps ≠ some 0 ∧ guard = true := by
  rw [Bool.and_eq_true, State.peripheralLive_iff]

/-- Settles O41: the guards by the agent of each move; a single enabled move is the step, and each of several has a place
in the list of them that a schedule can name. -/
theorem everyEnabledMoveCanBeTaken : Obligations.EveryEnabledMoveCanBeTaken := by
  refine ⟨fun s => ⟨s.interruptLive_and_iff, s.interruptLive_and_iff, s.peripheralLive_and_iff,
    s.peripheralLive_and_iff, s.peripheralLive_and_iff, rfl, rfl, rfl, rfl, rfl⟩, fun s m hwf hm => ?_⟩
  refine ⟨step_of_enabled_singleton hwf, fun h2 => ?_⟩
  obtain ⟨k, hk, hget⟩ := List.getElem_of_mem hm
  exact ⟨k, hk, by rw [step_of_sched hwf h2 hk, hget]⟩

end Sys2Proof.Machine

/-! The synchronous primitives (42_sync.md R150 to R162): the words, the whole effect of a write and of a read that the
peripheral serves, the places inside a beat, and the hang of a primitive whose peripheral is stuck. -/

namespace Sys2Proof

/-! ### Encoding (R81, R84, R85) -/

/-- A first word as a number: its operation number above its operand. -/
theorem firstWord_zeroExtend_toNat {k : Nat} (hk : k ≤ 24) (op : BitVec 8) (b : BitVec k) :
    (firstWord op (b.zeroExtend 24)).toNat = op.toNat * 2 ^ 24 + b.toNat := by
  have hb : b.toNat < 2 ^ 24 := b.isLt.trans_le (Nat.pow_le_pow_right (by omega) hk)
  have happ : (firstWord op (b.zeroExtend 24)).toNat = op.toNat <<< 24 ||| (b.zeroExtend 24).toNat :=
    BitVec.toNat_append _ _
  rw [happ, ← Nat.shiftLeft_add_eq_or_of_lt (BitVec.isLt _), BitVec.zeroExtend, BitVec.toNat_setWidth,
    Nat.mod_eq_of_lt hb, Nat.shiftLeft_eq]

theorem encode_wrcmd (b : Byte) : encode (.wrcmd b) = [0x20000000 + b.toNat] :=
  congrArg (· :: []) (firstWord_zeroExtend_toNat (by decide) 0x20 b)

theorem encode_wrdata (b : Byte) : encode (.wrdata b) = [0x21000000 + b.toNat] :=
  congrArg (· :: []) (firstWord_zeroExtend_toNat (by decide) 0x21 b)

theorem encode_wrdata16 (w : BitVec 16) : encode (.wrdata16 w) = [0x22000000 + w.toNat] :=
  congrArg (· :: []) (firstWord_zeroExtend_toNat (by decide) 0x22 w)

end Sys2Proof

namespace Sys2Proof.Machine

/-! ### The supply of the peripheral's steps (log 7) -/

/-- `m` steps of the supply used, `m` fewer are left. -/
theorem takesSteps_map_sub {k : Option Nat} {m : Nat} (n : Nat) (h : takesSteps k m = true) :
    takesSteps (k.map (· - m)) n = takesSteps k (n + m) := by
  cases k with
  | none => rfl
  | some j =>
    simp only [takesSteps, Option.map_some, decide_eq_true_eq] at h ⊢
    exact decide_eq_decide.2 (by omega)

theorem takesSteps_one_eq_false {k : Option Nat} (h : takesSteps k 1 = false) : k = some 0 :=
  not_not.1 fun h0 => ne_true_of_eq_false h ((takesSteps_one k).2 h0)

theorem map_sub_map_sub (k : Option Nat) (m n : Nat) : (k.map (· - m)).map (· - n) = k.map (· - (m + n)) := by
  rw [Option.map_map]
  exact congrArg (k.map ·) (funext fun j => Nat.sub_sub j m n)

/-! ### The actions around the beats (R150, R135) -/

theorem State.configure_write_eq (s : State) :
    s.configure .singleBeatWrite = { s with
      mode := .singleBeatWrite, pen := true, timcmp := compareValue 1 s.divider
      bank := List.replicate s.params.shifters (Lane.cleared s.params), beatsLeft := 0, beatIdx := 0
      sdone := false, tsf := false, sien := false, tien := false } := rfl

theorem State.configure_read_eq (s : State) :
    s.configure .singleBeatRead = { s with
      mode := .singleBeatRead, pen := true, timcmp := compareValue 1 s.divider
      bank := List.replicate s.params.shifters (Lane.cleared s.params), beatsLeft := 0, beatIdx := 0
      sdone := false, tsf := false, sien := false, tien := false } := rfl

theorem State.select_eq (s : State) (dc : Level) :
    s.select dc = { s with cs := .low, dc := dc, trace := s.trace ++ [.drive .cs .low] ++ [.drive .dc dc] } := rfl

theorem State.drive_rd_eq (s : State) (v : Level) :
    s.drive .rd v = { s with rd := v, trace := s.trace ++ [.drive .rd v] } := rfl

theorem State.finishWrite_eq (s : State) :
    s.finishWrite = { s with
      cs := .high, trace := s.trace ++ [.drive .cs .high]
      responses := s.responses ++ [.ack], fgBusy := false, held := none } := rfl

theorem State.finishRead_eq (s : State) :
    s.finishRead = { (s.drive .rd .high).drive .cs .high with
      responses := s.responses ++ [.byte (lowByte s.rxdata)], fgBusy := false, held := none
      mode := .singleBeatWrite, pen := true, timcmp := compareValue 1 s.divider
      bank := List.replicate s.params.shifters (Lane.cleared s.params), beatsLeft := 0, beatIdx := 0
      sdone := false, tsf := false, sien := false, tien := false } := rfl

/-! ### Write primitives (R151, R153 to R155) -/

/-- The beats of a write primitive, the last of them `v`, sent to a peripheral that takes their steps: each on the bus in
turn, the last one left in lane 0. -/
theorem State.BeatReady.sendBeats_served {s : State} {l : Lane} {ls : List Lane} {vs : List Beat} {v : Beat}
    (h : s.BeatReady) (hb : s.bank = l :: ls) (hfit : ∀ u ∈ vs ++ [v], fitBus s.params u = u)
    (ht : takesSteps s.peripheralSteps (2 * (vs ++ [v]).length) = true) :
    State.sendBeats (vs ++ [v]) s = State.finishWrite { s with
      bank := Lane.sent s.params v :: ls
      beatsLeft := 0
      beatIdx := 1
      sdone := false
      tsf := false
      trace := s.trace ++ (vs ++ [v]).map (.wbeat s.cs s.dc s.rd)
      peripheralSteps := s.peripheralSteps.map (· - 2 * (vs ++ [v]).length) } := by
  induction vs generalizing s l with
  | nil =>
    rw [List.nil_append, h.send v [] ht, State.oneWriteBeat_eq h.mode hb h.timcmp (hfit v (by simp))]
    rfl
  | cons u vs ih =>
    obtain ⟨hu, hvs⟩ := List.forall_mem_cons.1 hfit
    have htwo : takesSteps s.peripheralSteps 2 = true := takesSteps_mono (by simp) ht
    have hready : State.BeatReady { s.oneWriteBeat u with peripheralSteps := s.peripheralSteps.map (· - 2) } :=
      { h.next u with }
    rw [List.cons_append, h.send u _ htwo]
    rw [State.oneWriteBeat_eq h.mode hb h.timcmp hu] at hready ⊢
    rw [ih hready rfl hvs ((takesSteps_map_sub _ htwo).trans ht)]
    simp only [map_sub_map_sub, List.map_cons, List.append_assoc, List.singleton_append, List.length_cons]
    rw [Nat.mul_succ, Nat.add_comm]

/-- The state that a write primitive returns with, its beats `vs` and then `v`. -/
def State.afterWrite (s : State) (dc : Level) (vs : List Beat) (v : Beat) : State :=
  { s with
    mode := .singleBeatWrite, pen := true, timcmp := compareValue 1 s.divider
    bank := Lane.sent s.params v :: List.replicate (s.params.shifters - 1) (Lane.cleared s.params)
    beatsLeft := 0, beatIdx := 1, sdone := false, tsf := false, sien := false, tien := false
    cs := .high, dc := dc
    trace := s.trace ++ ([.drive .cs .low, .drive .dc dc] ++ (vs ++ [v]).map (.wbeat .low dc s.rd) ++ [.drive .cs .high])
    responses := s.responses ++ [.ack], fgBusy := false, held := none
    peripheralSteps := s.peripheralSteps.map (· - 2 * (vs ++ [v]).length) }

/-- A write primitive that is admitted and served. -/
theorem writePrimitive_served {i : Instr} {dc : Level} {beats : State → List Beat} {s : State} {vs : List Beat} {v : Beat}
    (hwf : s.params.wf = true) (hc : s.inCallback = false) (hdiv : s.divider ≠ 0) (hd : s.done = true)
    (hbeats : beats s = vs ++ [v]) (hfit : ∀ u ∈ vs ++ [v], fitBus s.params u = u)
    (ht : s.peripheralTakes (2 * (vs ++ [v]).length) = true) :
    writePrimitive i dc beats s = .next (s.afterWrite dc vs v) := by
  have hbank : ((s.configure .singleBeatWrite).select dc).bank =
      Lane.cleared s.params :: List.replicate (s.params.shifters - 1) (Lane.cleared s.params) :=
    replicate_cleared hwf
  rw [writePrimitive, admitTransfer_run hc hdiv hd, hbeats,
    (State.select_beatReady hwf dc).sendBeats_served hbank hfit ht]
  simp [State.afterWrite, State.finishWrite_eq, State.select_eq, State.configure_write_eq]

/-- A byte is one beat on either bus. -/
theorem writePrimitive_byte_served {i : Instr} {dc : Level} {b : Byte} {s : State} (hwf : s.params.wf = true)
    (hc : s.inCallback = false) (hdiv : s.divider ≠ 0) (hd : s.done = true) (ht : s.peripheralTakes 2 = true) :
    writePrimitive i dc (fun _ => [byteBeat b]) s = .next (s.afterWrite dc [] (byteBeat b)) :=
  writePrimitive_served (vs := []) hwf hc hdiv hd rfl (by simpa using fitBus_byteBeat s.params b) ht

theorem exec_wrcmd_served {b : Byte} {s : State} (hwf : s.params.wf = true) (hc : s.inCallback = false)
    (hdiv : s.divider ≠ 0) (hd : s.done = true) (ht : s.peripheralTakes 2 = true) :
    exec (.wrcmd b) s = .next (s.afterWrite .low [] (byteBeat b)) :=
  writePrimitive_byte_served hwf hc hdiv hd ht

theorem exec_wrdata_served {b : Byte} {s : State} (hwf : s.params.wf = true) (hc : s.inCallback = false)
    (hdiv : s.divider ≠ 0) (hd : s.done = true) (ht : s.peripheralTakes 2 = true) :
    exec (.wrdata b) s = .next (s.afterWrite .high [] (byteBeat b)) :=
  writePrimitive_byte_served hwf hc hdiv hd ht

theorem wordBeats_w8 {p : Params} (hw : p.busWidth = .w8) (w : BitVec 16) :
    wordBeats p w = [byteBeat (w.extractLsb' 8 8)] ++ [byteBeat (w.extractLsb' 0 8)] := by
  rw [wordBeats, hw]
  rfl

theorem wordBeats_w16 {p : Params} (hw : p.busWidth = .w16) (w : BitVec 16) : wordBeats p w = [] ++ [w] := by
  rw [wordBeats, hw]
  rfl

theorem exec_wrdata16_served {w : BitVec 16} {s : State} {vs : List Beat} {v : Beat} (hwf : s.params.wf = true)
    (hc : s.inCallback = false) (hdiv : s.divider ≠ 0) (hd : s.done = true) (hbeats : wordBeats s.params w = vs ++ [v])
    (ht : s.peripheralTakes (2 * (vs ++ [v]).length) = true) :
    exec (.wrdata16 w) s = .next (s.afterWrite .high vs v) :=
  writePrimitive_served (beats := fun s => wordBeats s.params w) hwf hc hdiv hd hbeats
    (fun _ hu => fitBus_of_mem_wordBeats (hbeats ▸ hu)) ht

/-- Settles O18: the beat of a byte, with DC low. -/
theorem writeCommandSendsOneCommandBeat : Obligations.WriteCommandSendsOneCommandBeat :=
  fun b _ hwf hc hdiv => ⟨encode_wrcmd b, exec_transfer_session rfl hc hdiv, exec_wrcmd_served hwf hc hdiv⟩

/-- Settles O19: the beat of a byte, with DC high. -/
theorem writeDataSendsOneDataBeat : Obligations.WriteDataSendsOneDataBeat :=
  fun b _ hwf hc hdiv => ⟨encode_wrdata b, exec_transfer_session rfl hc hdiv, exec_wrdata_served hwf hc hdiv⟩

/-- Settles O20: two beats or one, by the bus width. -/
theorem writeData16SendsTheHighByteFirst : Obligations.WriteData16SendsTheHighByteFirst :=
  fun w _ hwf hc hdiv => ⟨encode_wrdata16 w, exec_transfer_session rfl hc hdiv,
    fun hd hw => exec_wrdata16_served hwf hc hdiv hd (wordBeats_w8 hw w),
    fun hd hw => exec_wrdata16_served hwf hc hdiv hd (wordBeats_w16 hw w)⟩

/-! ### Read primitives (R152, R156, R157) -/

/-- The state that a read primitive returns with, the oracle having answered `v`. -/
def State.afterRead (s : State) (dc : Level) (v : Beat) : State :=
  { s with
    mode := .singleBeatWrite, pen := true, timcmp := compareValue 1 s.divider
    bank := List.replicate s.params.shifters (Lane.cleared s.params), beatsLeft := 0, beatIdx := 0
    sdone := false, tsf := false, sien := false, tien := false, rxdata := v, busIn := s.busIn.tail
    cs := .high, dc := dc, rd := .high
    trace := s.trace ++ [.drive .cs .low, .drive .dc dc, .drive .rd .low, .rbeat .low dc .low v, .drive .rd .high,
      .drive .cs .high]
    responses := s.responses ++ [.byte (lowByte v)], fgBusy := false, held := none
    peripheralSteps := s.peripheralSteps.map (· - 1) }

/-- What the oracle answers to a read primitive: the next answer already fixed, or the free value of the trace at the
beat (log 9). -/
def State.sample (s : State) (dc : Level) : Beat :=
  fitBus s.params (s.busIn.headD (Config.busIn (s.trace ++ [.drive .cs .low, .drive .dc dc, .drive .rd .low])))

/-- The state in which a read primitive starts its beat: single-beat reads, nothing in flight, no flag
set, nothing armed (R152). -/
structure State.SampleReady (s : State) : Prop where
  mode : s.mode = .singleBeatRead
  pen : s.pen = true
  timcmp : s.timcmp = compareValue 1 s.divider
  beatsLeft : s.beatsLeft = 0
  sdone : s.sdone = false
  sien : s.sien = false
  tien : s.tien = false

/-- A read primitive is ready to sample once it has configured the engine and driven its lines. -/
theorem State.select_sampleReady (s : State) (dc : Level) :
    (((s.configure .singleBeatRead).select dc).drive .rd .low).SampleReady := by
  constructor <;> simp [State.select]

/-- The oracle's answer at the beat of a read primitive. -/
theorem State.nextBusIn_select (s : State) (dc : Level) :
    (((s.configure .singleBeatRead).select dc).drive .rd .low).nextBusIn = s.sample dc := by
  rw [State.nextBusIn_eq, State.sample]
  simp [State.select]

/-- A read primitive that is admitted and served. -/
theorem readPrimitive_served {i : Instr} {dc : Level} {s : State} (hc : s.inCallback = false) (hdiv : s.divider ≠ 0)
    (hd : s.done = true) (ht : s.peripheralTakes 1 = true) :
    readPrimitive i dc s = .next (s.afterRead dc (s.sample dc)) := by
  have h := s.select_sampleReady dc
  rw [readPrimitive, admitTransfer_run hc hdiv hd, State.sampleBeat_served h.pen h.mode h.timcmp ht,
    State.oneReadBeat_eq, State.nextBusIn_select]
  simp [State.afterRead, State.finishRead_eq, State.select_eq, State.configure_read_eq, State.drive_rd_eq]

theorem exec_rddata_served {s : State} (hc : s.inCallback = false) (hdiv : s.divider ≠ 0) (hd : s.done = true)
    (ht : s.peripheralTakes 1 = true) : exec .rddata s = .next (s.afterRead .high (s.sample .high)) :=
  readPrimitive_served hc hdiv hd ht

theorem exec_rdstatus_served {s : State} (hc : s.inCallback = false) (hdiv : s.divider ≠ 0) (hd : s.done = true)
    (ht : s.peripheralTakes 1 = true) : exec .rdstatus s = .next (s.afterRead .low (s.sample .low)) :=
  readPrimitive_served hc hdiv hd ht

/-- Settles O21: the sample of a read with DC high. -/
theorem readDataReturnsTheSampledByte : Obligations.ReadDataReturnsTheSampledByte := by
  refine fun s v _ hc hdiv => ⟨rfl, exec_transfer_session rfl hc hdiv, fun hd ht hv => ?_⟩
  obtain rfl : v = s.sample .high := hv
  exact exec_rddata_served hc hdiv hd ht

/-- Settles O22: the sample of a read with DC low. -/
theorem readStatusReturnsTheSampledByte : Obligations.ReadStatusReturnsTheSampledByte := by
  refine fun s v _ hc hdiv => ⟨rfl, exec_transfer_session rfl hc hdiv, fun hd ht hv => ?_⟩
  obtain rfl : v = s.sample .low := hv
  exact exec_rdstatus_served hc hdiv hd ht

/-! ### The echo of a word (R162) -/

theorem lowByte_byteBeat (b : Byte) : lowByte (byteBeat b) = b := by
  apply BitVec.eq_of_getLsbD_eq
  intro i hi
  simp only [lowByte, byteBeat, BitVec.getLsbD_extractLsb', BitVec.getLsbD_setWidth]
  simp [hi, show i < 16 by omega]

/-- RDDATA takes an answer that is already fixed and fits the bus. -/
theorem exec_rddata_of_busIn {s : State} {v : Beat} {later : List Beat} (hc : s.inCallback = false)
    (hdiv : s.divider ≠ 0) (hd : s.done = true) (ht : s.peripheralTakes 1 = true) (hin : s.busIn = v :: later)
    (hv : fitBus s.params v = v) : exec .rddata s = .next (s.afterRead .high v) := by
  rw [exec_rddata_served hc hdiv hd ht, State.sample, hin, List.headD_cons, hv]

theorem execAll_rddata_rddata {s : State} {u v : Beat} {later : List Beat} (hc : s.inCallback = false)
    (hdiv : s.divider ≠ 0) (hd : s.done = true) (ht : s.peripheralTakes 2 = true) (hin : s.busIn = u :: v :: later)
    (hu : fitBus s.params u = u) (hv : fitBus s.params v = v) :
    execAll [.rddata, .rddata] s = .next ((s.afterRead .high u).afterRead .high v) := by
  have hone : s.peripheralTakes 1 = true := takesSteps_mono (by decide) ht
  have hfirst := exec_rddata_of_busIn hc hdiv hd hone hin hu
  have hsecond := exec_rddata_of_busIn (s := s.afterRead .high u) hc hdiv hd ((takesSteps_map_sub 1 hone).trans ht)
    (congrArg List.tail hin) hv
  rw [execAll_cons_of_next hfirst, execAll_cons_of_next hsecond, execAll]

/-- Settles O28: WRDATA16 leaves the oracle's answers alone, and each RDDATA takes the next one, which is the beat that
was written. -/
theorem echoedWordReadsBack : Obligations.EchoedWordReadsBack := by
  refine fun w s later hwf hc hdiv hd => ⟨fun hw ht hin => ?eight, fun hw ht hin => ?sixteen⟩
  case eight =>
    have ht4 : s.peripheralTakes 4 = true := takesSteps_mono (by decide) ht
    have hwrite := exec_wrdata16_served hwf hc hdiv hd (wordBeats_w8 hw w) ht4
    have hread := execAll_rddata_rddata (u := byteBeat (w.extractLsb' 8 8)) (v := byteBeat (w.extractLsb' 0 8))
      (s := s.afterWrite .high [byteBeat (w.extractLsb' 8 8)] (byteBeat (w.extractLsb' 0 8))) hc hdiv hd
      ((takesSteps_map_sub 2 ht4).trans ht) hin (fitBus_byteBeat _ _) (fitBus_byteBeat _ _)
    refine ⟨_, (execAll_cons_of_next hwrite).trans hread, ?_⟩
    simp [State.afterRead, State.afterWrite, lowByte_byteBeat]
  case sixteen =>
    have ht2 : s.peripheralTakes 2 = true := takesSteps_mono (by decide) ht
    have hwrite := exec_wrdata16_served hwf hc hdiv hd (wordBeats_w16 hw w) ht2
    have ht3 : (s.afterWrite .high [] w).peripheralTakes 1 = true := (takesSteps_map_sub 1 ht2).trans ht
    have hlow := exec_rddata_of_busIn (s := s.afterWrite .high [] w) hc hdiv hd ht3 hin
      (fitBus_of_mem_wordBeats (w := w) (by simp [State.afterWrite, wordBeats_w16 hw]))
    refine ⟨_, by rw [execAll_cons_of_next hwrite, execAll_cons_of_next hlow, execAll], ?_⟩
    simp [State.afterRead, State.afterWrite, lowByte]

/-! ### On return (R158, R160) -/

/-- A primitive has returned: the bus in write mode with chip-select deasserted, nothing in flight, the foreground free,
and its own kind of beats on the bus. -/
structure State.Returned (i : Instr) (s t : State) : Prop where
  mode : t.mode = .singleBeatWrite
  pen : t.pen = true
  cs : t.cs = .high
  rd : t.rd = .high
  beatsLeft : t.beatsLeft = 0
  sdone : t.sdone = false
  tsf : t.tsf = false
  done : t.done = true
  free : t.fgBusy = false
  events : ∃ es, t.trace = s.trace ++ es ∧ es.all (primitiveEvent i) = true ∧ es.any isBeat = true

@[simp] theorem primitiveEvent_drive (i : Instr) (l : Line) (v : Level) : primitiveEvent i (.drive l v) = true := rfl

theorem State.afterWrite_returned {i : Instr} {s : State} {dc : Level} {vs : List Beat} {v : Beat} (hd : s.done = true)
    (hrd : s.rd = .high) (hkind : ∀ u, primitiveEvent i (.wbeat .low dc .high u) = true) :
    State.Returned i s (s.afterWrite dc vs v) where
  mode := rfl
  pen := rfl
  cs := rfl
  rd := hrd
  beatsLeft := rfl
  sdone := rfl
  tsf := rfl
  done := hd
  free := rfl
  events := ⟨_, rfl, by simp [hrd, hkind], by simp [isBeat]⟩

theorem State.afterRead_returned {i : Instr} {s : State} {dc : Level} {v : Beat} (hd : s.done = true)
    (hkind : primitiveEvent i (.rbeat .low dc .low v) = true) : State.Returned i s (s.afterRead dc v) where
  mode := rfl
  pen := rfl
  cs := rfl
  rd := rfl
  beatsLeft := rfl
  sdone := rfl
  tsf := rfl
  done := hd
  free := rfl
  events := ⟨_, rfl, by simp [hkind], by simp [isBeat]⟩

/-- Every primitive that is admitted and served returns. -/
theorem exec_returned {i : Instr} {s : State} (hi : isSyncPrimitive i = true) (hwf : s.params.wf = true)
    (hc : s.inCallback = false) (hdiv : s.divider ≠ 0) (hd : s.done = true) (hrd : s.rd = .high)
    (ht : s.peripheralTakes (s.primitiveSteps i) = true) : ∃ t, exec i s = .next t ∧ State.Returned i s t := by
  cases i with
  | wrcmd b => exact ⟨_, exec_wrcmd_served hwf hc hdiv hd ht, State.afterWrite_returned hd hrd fun _ => rfl⟩
  | wrdata b => exact ⟨_, exec_wrdata_served hwf hc hdiv hd ht, State.afterWrite_returned hd hrd fun _ => rfl⟩
  | wrdata16 w =>
    obtain ⟨vs, v, hbeats⟩ : ∃ vs v, wordBeats s.params w = vs ++ [v] := by
      cases hw : s.params.busWidth with
      | w8 => exact ⟨_, _, wordBeats_w8 hw w⟩
      | w16 => exact ⟨_, _, wordBeats_w16 hw w⟩
    rw [State.primitiveSteps, hbeats] at ht
    exact ⟨_, exec_wrdata16_served hwf hc hdiv hd hbeats ht, State.afterWrite_returned hd hrd fun _ => rfl⟩
  | rddata => exact ⟨_, exec_rddata_served hc hdiv hd ht, State.afterRead_returned hd rfl⟩
  | rdstatus => exact ⟨_, exec_rdstatus_served hc hdiv hd ht, State.afterRead_returned hd rfl⟩
  | selchip | deselchip | selcmd | seldata | rdlow | rdhigh | init | config | burst => cases hi

/-! ### The hang (R161) -/

/-- A primitive hangs: it holds on what only the peripheral could bring about, the peripheral is stuck, and no interrupt
is armed. -/
structure State.Hung (s : State) : Prop where
  params : s.params.wf = true
  stores_space : ∀ c ∈ s.hostStores, c.1 < 2 ^ s.params.addrWidth
  stuck : s.peripheralSteps = some 0
  sien : s.sien = false
  tien : s.tien = false
  busy : s.fgBusy = true
  mid : s.midPrimitive = true
  waits : s.holdLifted = false

theorem State.Hung.not_canMove {s : State} (h : s.Hung) {m : Move} (hm : m ≠ .hostStore) : s.canMove m = false := by
  cases m with
  | shifterEmpty => simp [State.canMove, State.canShifterEmpty, State.sePending, h.sien]
  | burstComplete => simp [State.canMove, State.canBurstComplete, State.tcPending, h.tien]
  | bankLoad | writeBeat | readBeat => exact Bool.eq_false_of_not_eq_true (by simp [State.canMove, h.stuck])
  | accept => exact State.not_canMove_accept h.busy
  | resume => exact State.not_canMove_resume h.waits
  | hostStore => exact absurd rfl hm

/-- Only a store of the caller's is enabled where a primitive hangs. -/
theorem State.Hung.enabled_eq {s : State} (h : s.Hung) :
    s.enabled = if s.hostStores.isEmpty then [] else [.hostStore] := by
  have hstore : s.canMove .hostStore = !s.hostStores.isEmpty := rfl
  cases hs : s.hostStores.isEmpty <;> simp [State.enabled, allMoves, h.not_canMove, hstore, hs]

/-- A step of a block whose primitive hangs: nothing, or the caller's next store. -/
theorem State.Hung.step_eq {s : State} (h : s.Hung) :
    ∃ m cs, step s = .next { s with mem := m, hostStores := cs } ∧ ∀ c ∈ cs, c ∈ s.hostStores := by
  have he := h.enabled_eq
  cases hs : s.hostStores with
  | nil =>
    rw [hs] at he
    exact ⟨s.mem, [], by rw [step_of_enabled_nil h.params he, ← hs], fun _ hc => hc⟩
  | cons c cs =>
    rw [hs] at he
    refine ⟨Memory.write s.mem c.1 c.2, cs, ?_, fun _ => List.mem_cons_of_mem c⟩
    have hlt := h.stores_space c (by simp [hs])
    rw [step_of_enabled_singleton h.params he, perform, hostStoreNext, hs]
    exact if_pos hlt

theorem run_succ_of_step {s t : State} (k : Nat) (h : step s = .next t) :
    Host.Core.run Sys2Proof.core (k + 1) s = Host.Core.run Sys2Proof.core k t := by
  have hcore : Sys2Proof.core.step s = .next t := h
  simp only [Host.Core.run, hcore]

/-- It hangs for ever: no fault, no refusal, no answer and no event in any run. -/
theorem State.Hung.run {s : State} (h : s.Hung) (k : Nat) :
    ∃ u, Host.Core.run Sys2Proof.core k s = .next u ∧ u.held = s.held ∧ u.fgBusy = true ∧
      u.responses = s.responses ∧ u.trace = s.trace := by
  induction k generalizing s with
  | zero => exact ⟨s, rfl, rfl, h.busy, rfl, rfl⟩
  | succ k ih =>
    obtain ⟨m, cs, hstep, hcs⟩ := h.step_eq
    have hnext : State.Hung { s with mem := m, hostStores := cs } :=
      { h with stores_space := fun c hc => h.stores_space c (hcs c hc) }
    obtain ⟨u, hu, hsame⟩ := ih hnext
    exact ⟨u, (run_succ_of_step k hstep).trans hu, hsame⟩

/-- A state in which a primitive sends or samples hangs once it holds with the peripheral stuck. -/
theorem State.hung_hold {s : State} {k : Hold} (hwf : s.params.wf = true)
    (hspace : ∀ c ∈ s.hostStores, c.1 < 2 ^ s.params.addrWidth) (hstuck : s.peripheralSteps = some 0)
    (hsien : s.sien = false) (htien : s.tien = false) (hmid : (s.hold k).midPrimitive = true)
    (hwaits : (s.hold k).holdLifted = false) : (s.hold k).Hung where
  params := hwf
  stores_space := hspace
  stuck := hstuck
  sien := hsien
  tien := htien
  busy := rfl
  mid := hmid
  waits := hwaits

/-- Sending beats to a peripheral that does not take all of their steps. -/
theorem State.BeatReady.sendBeats_hung {s : State} {vs : List Beat} (h : s.BeatReady) (hwf : s.params.wf = true)
    (hspace : ∀ c ∈ s.hostStores, c.1 < 2 ^ s.params.addrWidth)
    (ht : takesSteps s.peripheralSteps (2 * vs.length) = false) :
    (State.sendBeats vs s).Hung ∧ (State.sendBeats vs s).responses = s.responses := by
  induction vs generalizing s with
  | nil => cases hk : s.peripheralSteps <;> simp [hk, takesSteps] at ht
  | cons v vs ih =>
    obtain ⟨htwo, e⟩ | ⟨hk, e⟩ | ⟨hk, e⟩ := h.send_cases v vs <;> rw [e]
    · have hrest := ih (s := { s.oneWriteBeat v with peripheralSteps := s.peripheralSteps.map (· - 2) })
        { h.next v with } (by simpa [State.oneWriteBeat] using hwf) (by simpa [State.oneWriteBeat] using hspace)
        ((takesSteps_map_sub _ htwo).trans ht)
      simpa [State.oneWriteBeat] using hrest
    · exact ⟨State.hung_hold (by simpa using hwf) (by simpa using hspace) (by simpa using hk) (by simpa using h.sien)
        (by simpa using h.tien) rfl (by simp [State.holdLifted, State.doneFlags, h.sdone]), by simp⟩
    · exact ⟨State.hung_hold (s := { (s.writeShiftBuf0 (beatBytes s.params v)).bankLoad with
        peripheralSteps := some 0 }) (by simpa using hwf) (by simpa using hspace) rfl (by simpa using h.sien)
        (by simpa using h.tien) rfl (by simp [State.holdLifted, State.doneFlags, h.sdone]), by simp⟩

theorem writePrimitive_hung {i : Instr} {dc : Level} {beats : State → List Beat} {s : State} (hs : s.Inv)
    (hdiv : s.divider ≠ 0) (hd : s.done = true) (ht : s.peripheralTakes (2 * (beats s).length) = false) :
    ∃ t, writePrimitive i dc beats s = .next t ∧ t.Hung ∧ t.responses = s.responses := by
  obtain ⟨hhung, hresp⟩ := (State.select_beatReady hs.params dc).sendBeats_hung (vs := beats s)
    (by simpa [State.select] using hs.params) (by simpa [State.select] using hs.stores_space)
    (by simpa [State.select, State.peripheralTakes] using ht)
  exact ⟨_, admitTransfer_run hs.inCallback hdiv hd, hhung, hresp.trans (by simp [State.select])⟩

/-- Sampling a beat from a peripheral that does not take its step. -/
theorem State.SampleReady.sampleBeat_hung {s : State} (h : s.SampleReady) (hwf : s.params.wf = true)
    (hspace : ∀ c ∈ s.hostStores, c.1 < 2 ^ s.params.addrWidth) (ht : takesSteps s.peripheralSteps 1 = false) :
    s.sampleBeat.Hung ∧ s.sampleBeat.responses = s.responses := by
  have hstuck := takesSteps_one_eq_false ht
  rw [State.sampleBeat_stuck h.sdone hstuck]
  exact ⟨State.hung_hold (by simpa using hwf) (by simpa using hspace) (by simpa using hstuck) (by simpa using h.sien)
    (by simpa using h.tien) rfl (by simp [State.holdLifted, State.doneFlags, h.sdone]), by simp⟩

theorem readPrimitive_hung {i : Instr} {dc : Level} {s : State} (hs : s.Inv) (hdiv : s.divider ≠ 0)
    (hd : s.done = true) (ht : s.peripheralTakes 1 = false) :
    ∃ t, readPrimitive i dc s = .next t ∧ t.Hung ∧ t.responses = s.responses := by
  obtain ⟨hhung, hresp⟩ := (s.select_sampleReady dc).sampleBeat_hung (by simpa [State.select] using hs.params)
    (by simpa [State.select] using hs.stores_space) (by simpa [State.select, State.peripheralTakes] using ht)
  exact ⟨_, admitTransfer_run hs.inCallback hdiv hd, hhung, hresp.trans (by simp [State.select])⟩

/-- Every primitive that is admitted with the peripheral stuck before its last step hangs. -/
theorem exec_hung {i : Instr} {s : State} (hi : isSyncPrimitive i = true) (hs : s.Inv) (hdiv : s.divider ≠ 0)
    (hd : s.done = true) (ht : s.peripheralTakes (s.primitiveSteps i) = false) :
    ∃ t, exec i s = .next t ∧ t.Hung ∧ t.responses = s.responses := by
  cases i with
  | wrcmd | wrdata | wrdata16 =>
    simp only [exec, execWrcmd, execWrdata, execWrdata16]
    exact writePrimitive_hung hs hdiv hd ht
  | rddata | rdstatus => exact readPrimitive_hung hs hdiv hd ht
  | selchip | deselchip | selcmd | seldata | rdlow | rdhigh | init | config | burst => cases hi

/-- Settles O26: a primitive that is served returns; one that is not hangs, and a hang has no end. -/
theorem primitivesReturnTheBusToWriteMode : Obligations.PrimitivesReturnTheBusToWriteMode := by
  constructor
  · intro i s hi hwf hc hdiv hd hrd ht
    obtain ⟨t, hexec, k⟩ := exec_returned hi hwf hc hdiv hd hrd ht
    obtain ⟨es, htrace, hkind, hbeat⟩ := k.events
    exact ⟨t, es, hexec, k.mode, k.pen, k.cs, k.rd, k.beatsLeft, k.sdone, k.tsf, k.done, k.free, htrace, hkind, hbeat⟩
  · intro i s hi hs hdiv hd ht
    obtain ⟨t, hexec, hhung, hresp⟩ := exec_hung hi hs hdiv hd ht
    refine ⟨t, hexec, hhung.mid, hresp, fun k => ?_⟩
    obtain ⟨u, hrun, hheld, hbusy, hsame, htrace⟩ := hhung.run k
    exact ⟨u, hrun, hheld, hbusy, hsame.trans hresp, htrace⟩

/-! ### The places inside a beat (R159) -/

theorem State.nothingPending_of_mode {s : State} (h : s.mode ≠ .multiBeatBurst) : s.nothingPending = true := by
  simp [State.nothingPending, State.sePending, State.tcPending, h]

theorem State.doneFlags_eq_false {s : State} (h : s.sdone = false) : s.doneFlags = false := by
  simp [State.doneFlags, h]

/-- In single-beat writes nothing is to be done where nothing is in flight and lane 0 is free. -/
theorem State.peripheralIdle_of_singleBeatWrite {s : State} {l : Lane} {ls : List Lane} (hm : s.mode = .singleBeatWrite)
    (hleft : s.beatsLeft = 0) (hb : s.bank = l :: ls) (hr : l.rdy = true) : s.peripheralIdle = true := by
  simp [State.peripheralIdle, State.canBankLoad, State.canWriteBeat, State.canReadBeat, State.activeLanes, hm, hleft,
    hb, hr]

theorem State.peripheralIdle_of_singleBeatRead {s : State} (hm : s.mode = .singleBeatRead) (hleft : s.beatsLeft = 0) :
    s.peripheralIdle = true := by
  simp [State.peripheralIdle, State.canBankLoad, State.canWriteBeat, State.canReadBeat, Mode.transmits, hm, hleft]

/-- Before each beat the engine is ready to send it, whatever beats went before. -/
theorem State.BeatReady.foldl {s : State} (h : s.BeatReady) (vs : List Beat) :
    (vs.foldl State.oneWriteBeat s).BeatReady := by
  induction vs generalizing s with
  | nil => exact h
  | cons v vs ih => exact ih (h.next v)

/-- Before a beat its first hold is lifted and nothing is enabled. -/
theorem State.BeatReady.before {s : State} (h : s.BeatReady) :
    s.firstReady = true ∧ s.doneFlags = false ∧ s.peripheralIdle = true ∧ s.nothingPending = true := by
  obtain ⟨l, ls, hb, hr⟩ := h.first
  exact ⟨by simp [State.firstReady, hb, hr], State.doneFlags_eq_false h.sdone,
    State.peripheralIdle_of_singleBeatWrite h.mode h.beatsLeft hb hr,
    State.nothingPending_of_mode (by simp [h.mode])⟩

/-- After its write beat a beat's flags are set and nothing more is enabled. -/
theorem State.BeatReady.after {s : State} (h : s.BeatReady) (v : Beat) :
    let t := (s.writeShiftBuf0 (beatBytes s.params v)).bankLoad.writeBeat
    t.sdone = true ∧ t.tsf = true ∧ t.peripheralIdle = true ∧ t.nothingPending = true := by
  have hnext := h.next v
  obtain ⟨hsdone, htsf⟩ := h.flags (beatBytes s.params v)
  obtain ⟨l, ls, hb, hr⟩ := hnext.first
  exact ⟨hsdone, htsf, State.peripheralIdle_of_singleBeatWrite hnext.mode hnext.beatsLeft hb hr,
    State.nothingPending_of_mode (by simp [h.mode])⟩

/-- A read that has been started has one beat in flight. -/
theorem State.SampleReady.started {s : State} (h : s.SampleReady) : s.startRead.beatsLeft = 1 := by
  rw [State.startRead_beatsLeft, h.timcmp, beatsOfCompare_compareValue (by decide) (by decide)]
  rfl

/-- Settles O27: each place is one of a beat that the engine was ready for. -/
theorem fusedPrimitiveStepsAreEnabled : Obligations.FusedPrimitiveStepsAreEnabled := by
  constructor
  · intro s dc vs v hwf t w
    have h : t.BeatReady := (State.select_beatReady hwf dc).foldl vs
    obtain ⟨hload, hwrite, hread⟩ := h.written (beatBytes t.params v)
    obtain ⟨-, hwrite', hload', hread'⟩ := h.loaded (beatBytes t.params v)
    have hmode : w.mode = .singleBeatWrite := by simp [w, h.mode]
    have hflags : w.doneFlags = false := State.doneFlags_eq_false (by simp [w, h.sdone])
    have hquiet : w.nothingPending = true := State.nothingPending_of_mode (by simp [hmode])
    exact ⟨h.before, ⟨hload, hwrite, hread, hflags, hquiet⟩,
      ⟨hwrite', hload', hread', hflags, State.nothingPending_of_mode (by simp [hmode])⟩, h.after v,
      fun ht later => h.send v later ht⟩
  · intro s dc hwf t u
    have h : t.SampleReady := s.select_sampleReady dc
    have hmode : u.mode = .singleBeatRead := h.mode
    have hleft : u.beatsLeft = 1 := h.started
    have hflags : t.doneFlags = false := State.doneFlags_eq_false h.sdone
    have hquiet : t.nothingPending = true := State.nothingPending_of_mode (by simp [h.mode])
    refine ⟨⟨h.beatsLeft, hflags, State.peripheralIdle_of_singleBeatRead h.mode h.beatsLeft, hquiet⟩,
      ⟨u.canReadBeat_iff.2 ⟨h.pen, hmode, by rw [hleft]; decide⟩, ?_, ?_, hflags,
        State.nothingPending_of_mode (by simp [hmode])⟩,
      ⟨rfl, rfl, State.peripheralIdle_of_singleBeatRead hmode rfl, State.nothingPending_of_mode (by simp [hmode])⟩,
      State.sampleBeat_served h.pen h.mode h.timcmp⟩
    · simp [State.canBankLoad, Mode.transmits, hmode]
    · simp [State.canWriteBeat, Mode.transmits, hmode]

end Sys2Proof.Machine

/-! The interrupt handlers (43_burst.md R190 to R199): what each of them answers, case by case, and what follows. -/

namespace Sys2Proof.Machine

/-! ### The shifter-empty handler (R190 to R193) -/

theorem shifterEmptyHandler_disable {s : State} (h0 : s.bytesRemaining = 0) :
    shifterEmptyHandler s = .next { s with sien := false, inIrq := false } := by
  have hbody : shifterEmptyBody s.enterIrq = .next { s.enterIrq with sien := false } := if_pos h0
  rw [shifterEmptyHandler, handle, hbody]
  rfl

theorem shifterEmptyHandler_lastRefill {s : State} (h0 : s.bytesRemaining ≠ 0)
    (hlt : s.bytesRemaining.toNat < s.params.burstBytes) :
    shifterEmptyHandler s = .next { s with
      timcmp := compareValue (s.bytesRemaining.toNat / s.params.bytesPerBeat) s.divider
      readCursor := .final
      bytesRemaining := 0
      bank := loadLanes s.params.shifterBytes s.bank s.finalBurstBuffer
      inIrq := false } := by
  have hbody : shifterEmptyBody s.enterIrq = .next s.enterIrq.lastRefill := (if_neg h0).trans (if_pos hlt)
  rw [shifterEmptyHandler, handle, hbody]
  rfl

/-- With a burst or more left the handler is the refill from the live cursor (R193). -/
theorem shifterEmptyHandler_of_le {s : State} (h0 : s.bytesRemaining ≠ 0)
    (hge : s.params.burstBytes ≤ s.bytesRemaining.toNat) : shifterEmptyHandler s = handle fullRefill s := by
  have hbody : shifterEmptyBody s.enterIrq = fullRefill s.enterIrq :=
    (if_neg h0).trans (if_neg (Nat.not_lt.2 hge))
  rw [shifterEmptyHandler, handle, hbody, handle]

theorem fullRefill_live {s : State} {o : Nat} (hcur : s.readCursor = .live o)
    (hfits : s.bufBase + o + s.params.burstBytes ≤ 2 ^ s.params.addrWidth) :
    handle fullRefill s = .next { s with
      bytesRemaining := s.bytesRemaining - BitVec.ofNat 32 s.params.burstBytes
      readCursor := .live (o + s.params.burstBytes)
      bank := loadLanes s.params.shifterBytes s.bank (s.memBytes (s.bufBase + o) s.params.burstBytes)
      inIrq := false } := by
  have hread : s.enterIrq.memRead (s.bufBase + o) s.params.burstBytes =
      some (s.memBytes (s.bufBase + o) s.params.burstBytes) := State.memRead_of_le (s := s.enterIrq) hfits
  simp only [handle, fullRefill, State.enterIrq_readCursor, hcur, State.enterIrq_bufBase, State.enterIrq_params, hread]
  rfl

theorem fullRefill_final {s : State} (hcur : s.readCursor = .final) :
    handle fullRefill s = .fault .cursorNotLive := by
  simp [handle, fullRefill, hcur]

theorem fullRefill_outOfSpace {s : State} {o : Nat} (hcur : s.readCursor = .live o)
    (hfits : ¬ s.bufBase + o + s.params.burstBytes ≤ 2 ^ s.params.addrWidth) :
    handle fullRefill s = .fault .addressOutOfSpace := by
  simp [handle, fullRefill, hcur, State.memRead, hfits]

/-! ### The burst-complete handler (R196) -/

/-- A session after a run of the burst-complete handler that leaves bursts to acknowledge (R196). -/
def State.burstCounted (s : State) : State :=
  { s with tsf := false, burstsRemaining := s.burstsRemaining - 1, inIrq := false }

@[simp] theorem State.burstCounted_done (s : State) : s.burstCounted.done = s.done := rfl
@[simp] theorem State.burstCounted_port (s : State) : s.burstCounted.port = s.port := rfl
@[simp] theorem State.burstCounted_callbackPort (s : State) : s.burstCounted.callbackPort = s.callbackPort := rfl
@[simp] theorem State.burstCounted_responses (s : State) : s.burstCounted.responses = s.responses := rfl
@[simp] theorem State.burstCounted_peripheralSteps (s : State) : s.burstCounted.peripheralSteps = s.peripheralSteps := rfl
@[simp] theorem State.burstCounted_interruptSteps (s : State) : s.burstCounted.interruptSteps = s.interruptSteps := rfl

/-- The end of a session: the last run of the burst-complete handler, with its callback (R196, R197). -/
def State.sessionEnded (s : State) : State :=
  { s with
    tsf := false
    burstsRemaining := 0
    tien := false
    done := true
    cs := .high
    trace := s.trace ++ [.drive .cs .high] ++ (if s.cbSlot then [.callback] else [])
    inIrq := false
    inCallback := false }

/-- The callback is called when its code presents no operation (R239). -/
theorem runCallback_of_silent {s : State}
    (hcb : s.cbSlot = true → decode s.params.addrWidth s.callbackPort = .error .incomplete) :
    runCallback s = .next { s with
      trace := s.trace ++ (if s.cbSlot then [.callback] else []), inCallback := false } := by
  unfold runCallback
  split
  · rename_i hslot
    rw [hcb hslot, hslot]
    rfl
  · rename_i hslot
    simp [hslot]

theorem burstCompleteHandler_count {s : State} (h0 : s.burstsRemaining ≠ 0) (h1 : s.burstsRemaining ≠ 1) :
    burstCompleteHandler s = .next s.burstCounted := by
  have hleft : s.burstsRemaining - 1 ≠ 0 := by bv_omega
  have hbody : burstCompleteBody s.enterIrq = .next s.enterIrq.ackBurst := (if_neg h0).trans (if_neg hleft)
  rw [burstCompleteHandler, handle, hbody]
  rfl

theorem burstCompleteHandler_end {s : State} (h1 : s.burstsRemaining = 1)
    (hcb : s.cbSlot = true → decode s.params.addrWidth s.callbackPort = .error .incomplete) :
    burstCompleteHandler s = .next s.sessionEnded := by
  have h0 : s.burstsRemaining ≠ 0 := by bv_omega
  have hleft : s.burstsRemaining - 1 = 0 := by bv_omega
  have hbody : burstCompleteBody s.enterIrq = runCallback s.enterIrq.ackBurst.closeSession :=
    (if_neg h0).trans (if_pos hleft)
  rw [burstCompleteHandler, handle, hbody, runCallback_of_silent (by exact hcb), andThen_next, State.sessionEnded,
    ← hleft]
  rfl

/-- All that the burst-complete handler can answer, by the state that it leaves. -/
theorem burstCompleteHandler_cases {s t : State} (h : burstCompleteHandler s = .next t) :
    (s.burstsRemaining ≠ 0 ∧ s.burstsRemaining ≠ 1 ∧ t = s.burstCounted) ∨
    (s.burstsRemaining = 1 ∧ (s.cbSlot = true → decode s.params.addrWidth s.callbackPort = .error .incomplete) ∧
      t = s.sessionEnded) := by
  obtain ⟨h0, ⟨h1, rfl⟩ | ⟨h1, hcb, rfl⟩⟩ := burstCompleteHandler_eq_next h
  · exact .inl ⟨h0, h1, rfl⟩
  · exact .inr ⟨h1, hcb, rfl⟩

/-- With a burst or more left something is left. -/
theorem State.bytesRemaining_ne_zero {s : State} (hwf : s.params.wf = true)
    (hge : s.params.burstBytes ≤ s.bytesRemaining.toNat) : s.bytesRemaining ≠ 0 := by
  have hpos := Params.burstBytes_pos hwf
  bv_omega

/-- Settles O31: the second case of the handler. -/
theorem shifterEmptyLoadsTheShortLastBurst : Obligations.ShifterEmptyLoadsTheShortLastBurst :=
  fun _ => shifterEmptyHandler_lastRefill

/-- Settles O32: the third case of the handler; bytes are taken off `bytesRemaining` without a borrow. -/
theorem shifterEmptyLoadsAFullBurst : Obligations.ShifterEmptyLoadsAFullBurst := by
  intro s o hwf hge hcur hfits
  have h0 := State.bytesRemaining_ne_zero hwf hge
  have hsub : BitVec.ofNat 32 (s.bytesRemaining.toNat - s.params.burstBytes) =
      s.bytesRemaining - BitVec.ofNat 32 s.params.burstBytes := by bv_omega
  rw [shifterEmptyHandler_of_le h0 hge, fullRefill_live hcur hfits, hsub]
  rfl

/-- Settles O34: the guard by its definition; the last burst is the one that leaves none. -/
theorem burstCompleteCountsAndEndsTheSession : Obligations.BurstCompleteCountsAndEndsTheSession := by
  refine fun s => ⟨?_, fun h1 => ?_, fun h1 hslot => ?_, fun h1 hslot hport => ?_⟩
  · simp [State.canBurstComplete, State.tcPending, and_assoc]
  · exact burstCompleteHandler_count (by bv_omega) (by bv_omega)
  · rw [burstCompleteHandler_end h1 (by simp [hslot])]
    simp [State.sessionEnded, hslot]
  · rw [burstCompleteHandler_end h1 (by simp [hport, decode])]
    simp [State.sessionEnded, hslot]

/-! ### The handlers commute (R199) -/

/-- What the burst-complete handler does to a state, by the two ways in which it answers. -/
def State.acknowledged (s : State) (last : Bool) : State := if last then s.sessionEnded else s.burstCounted

theorem burstCompleteHandler_eq_next_iff {s t : State} :
    burstCompleteHandler s = .next t ↔ ∃ last, t = s.acknowledged last ∧ s.burstsRemaining ≠ 0 ∧
      (last = true ↔ s.burstsRemaining = 1) ∧
      (last = true → s.cbSlot = true → decode s.params.addrWidth s.callbackPort = .error .incomplete) := by
  constructor
  · intro h
    obtain ⟨h0, h1, rfl⟩ | ⟨h1, hcb, rfl⟩ := burstCompleteHandler_cases h
    · exact ⟨false, rfl, h0, iff_of_false (by decide) h1, by simp⟩
    · exact ⟨true, rfl, by simp [h1], by simp [h1], fun _ => hcb⟩
  · rintro ⟨last, rfl, h0, h1, hcb⟩
    cases last with
    | false => exact burstCompleteHandler_count h0 (by simpa using h1)
    | true => exact burstCompleteHandler_end (h1.1 rfl) (hcb rfl)

/-- The burst-complete handler writes nothing that a full refill reads or writes. -/
theorem fullRefill_acknowledged (s : State) (last : Bool) :
    handle fullRefill (s.acknowledged last) =
      andThen (handle fullRefill s) (fun t => .next (t.acknowledged last)) := by
  cases hcur : s.readCursor with
  | final =>
    rw [fullRefill_final hcur]
    cases last <;> exact fullRefill_final hcur
  | live o =>
    by_cases hfits : s.bufBase + o + s.params.burstBytes ≤ 2 ^ s.params.addrWidth
    · rw [fullRefill_live hcur hfits]
      cases last <;> exact fullRefill_live hcur hfits
    · rw [fullRefill_outOfSpace hcur hfits]
      cases last <;> exact fullRefill_outOfSpace hcur hfits

/-- The burst-complete handler writes nothing that the shifter-empty handler reads or writes. -/
theorem shifterEmptyHandler_acknowledged (s : State) (last : Bool) :
    shifterEmptyHandler (s.acknowledged last) =
      andThen (shifterEmptyHandler s) (fun t => .next (t.acknowledged last)) := by
  by_cases h0 : s.bytesRemaining = 0
  · rw [shifterEmptyHandler_disable h0]
    cases last <;> exact shifterEmptyHandler_disable h0
  · by_cases hlt : s.bytesRemaining.toNat < s.params.burstBytes
    · rw [shifterEmptyHandler_lastRefill h0 hlt]
      cases last <;> exact shifterEmptyHandler_lastRefill h0 hlt
    · rw [shifterEmptyHandler_of_le h0 (Nat.not_lt.1 hlt), ← fullRefill_acknowledged]
      cases last <;> exact shifterEmptyHandler_of_le h0 (Nat.not_lt.1 hlt)

/-- The shifter-empty handler writes nothing that the burst-complete handler asks for. -/
theorem shifterEmptyHandler_keeps {s t : State} (h : shifterEmptyHandler s = .next t) :
    t.burstsRemaining = s.burstsRemaining ∧ t.cbSlot = s.cbSlot ∧ t.params = s.params ∧
      t.callbackPort = s.callbackPort := by
  obtain ⟨-, rfl⟩ | ⟨-, -, rfl⟩ | ⟨-, o, -, -, rfl⟩ := shifterEmptyHandler_eq_next h <;> exact ⟨rfl, rfl, rfl, rfl⟩

/-- Settles O36: the two handlers write different fields, and neither writes what the other asks for. -/
theorem handlersCommute : Obligations.HandlersCommute := by
  intro s t
  constructor
  · intro h
    obtain ⟨u, hu, hut⟩ := andThen_eq_next h
    obtain ⟨hburst, hslot, hparams, hport⟩ := shifterEmptyHandler_keeps hu
    obtain ⟨last, rfl, hs⟩ := burstCompleteHandler_eq_next_iff.1 hut
    rw [hburst, hslot, hparams, hport] at hs
    rw [burstCompleteHandler_eq_next_iff.2 ⟨last, rfl, hs⟩, andThen_next, shifterEmptyHandler_acknowledged, hu,
      andThen_next]
  · intro h
    obtain ⟨v, hv, hvt⟩ := andThen_eq_next h
    obtain ⟨last, rfl, hs⟩ := burstCompleteHandler_eq_next_iff.1 hv
    rw [shifterEmptyHandler_acknowledged] at hvt
    obtain ⟨u, hu, hut⟩ := andThen_eq_next hvt
    cases hut
    obtain ⟨hburst, hslot, hparams, hport⟩ := shifterEmptyHandler_keeps hu
    rw [hu, andThen_next]
    exact burstCompleteHandler_eq_next_iff.2 ⟨last, rfl, by rwa [hburst, hslot, hparams, hport]⟩

/-! ### An armed source stays off (R191) -/

theorem State.sePending_of_sien {s : State} (h : s.sien = false) : s.sePending = false := by
  simp [State.sePending, h]

/-- During a session an operation that is not refused holds (30_encoding.md R88). -/
theorem exec_session {i : Instr} {s t : State} (hd : s.done = false) (h : exec i s = .next t) :
    t = s.hold (.onDone i) := by
  cases hi : i.isTransfer with
  | true =>
    obtain ⟨run, hrun⟩ := exec_eq_admitTransfer hi
    rw [hrun] at h
    obtain ⟨-, -, ⟨hdone, -⟩ | ⟨-, ht⟩⟩ := admitTransfer_eq_next h
    · simp [hd] at hdone
    · exact ht
  | false =>
    obtain ⟨run, hrun⟩ := exec_eq_admitControl hi
    rw [hrun] at h
    obtain ⟨-, hdone, -⟩ := admitControl_eq_next h
    simp [hd] at hdone

/-- Sending beats arms nothing. -/
theorem State.sendBeats_sien {s : State} (h : s.sien = false) (vs : List Beat) : (State.sendBeats vs s).sien = false :=
  State.sendBeats_keeps (P := fun t => t.sien = false) (Q := fun t => t.sien = false)
    (write := fun _ _ h => by simpa using h)
    (serve := fun u h => State.peripheralStep_keeps (P := fun t => t.sien = false) (fun _ h => by simpa using h)
      (fun _ h => by simpa using h) (fun _ h => by simpa using h) h)
    (clear := fun _ h => by simpa using h) (finish := fun _ h => by simpa [State.finishWrite] using h)
    (onReady := fun _ _ h => by simpa using h) (onFlags := fun _ _ h => by simpa using h) vs h

theorem resumeHeld_sien {s t : State} (hd : s.done = false) (h0 : s.sien = false) (h : resumeHeld s = .next t) :
    t.sien = false := by
  unfold resumeHeld at h
  split at h
  case h_1 => cases h; exact h0
  case h_2 => rw [exec_session hd h]; simpa using h0
  case h_3 vs _ => cases h; exact State.sendBeats_sien h0 vs
  case h_4 vs _ => cases h; exact State.sendBeats_sien (by simpa using h0) vs
  case h_5 => cases h; rfl

/-- No move of a session arms the shifter-empty source. -/
theorem perform_sien {m : Move} {s t : State} (hd : s.done = false) (h0 : s.sien = false) (h : perform m s = .next t) :
    t.sien = false := by
  cases m with
  | shifterEmpty =>
    obtain ⟨-, rfl⟩ | ⟨-, -, rfl⟩ | ⟨-, o, -, -, rfl⟩ := shifterEmptyHandler_eq_next (s := s.spendInterrupt) h
    · rfl
    · exact h0
    · exact h0
  | burstComplete =>
    obtain ⟨-, ⟨-, rfl⟩ | ⟨-, -, rfl⟩⟩ := burstCompleteHandler_eq_next (s := s.spendInterrupt) h <;> exact h0
  | bankLoad | writeBeat | readBeat => cases h; simpa using h0
  | accept =>
    obtain rfl | ⟨i, rest, -, hx⟩ := acceptNext_eq_next h
    · exact h0
    · rw [exec_session (s := { s with port := rest }) hd hx]
      exact h0
  | resume => exact resumeHeld_sien hd h0 h
  | hostStore =>
    obtain rfl | ⟨c, cs, -, -, rfl⟩ := hostStoreNext_eq_next h
    · exact h0
    · exact h0

/-- Settles O30: only BURST arms the source, and it holds until the session ends. -/
theorem shifterEmptyWithNothingLeftDisablesItself : Obligations.ShifterEmptyWithNothingLeftDisablesItself := by
  refine ⟨fun s h0 => ⟨shifterEmptyHandler_disable h0, State.sePending_of_sien rfl⟩, fun s t hd h0 h => ?_⟩
  have hoff : t.sien = false := step_induction (P := fun u v => u.done = false → u.sien = false → v.sien = false) h
    (fun _ _ h0 => h0) (fun u _ hP hd h0 => hP (by simpa using hd) (by simpa using h0))
    (fun _ _ _ _ hp hd h0 => perform_sien hd h0 hp) hd h0
  exact ⟨hoff, State.sePending_of_sien hoff⟩

/-! ### The shifter bank (R194) -/

/-- Settles O33: lane by lane; a bank that is taken whole is not free. -/
theorem loadBankFillsTheBuffersInOrder : Obligations.LoadBankFillsTheBuffersInOrder := by
  intro s data hwf hdata hlen
  obtain ⟨h1, -⟩ := (Params.wf_iff _).1 hwf
  have hlen' : (s.loadBank data).bank.length = s.params.shifters := (loadLanes_length _ _ _).trans hlen
  have hne : (s.loadBank data).bank ≠ [] := List.ne_nil_of_length_pos (by omega)
  have htaken : (s.loadBank data).bankFull = true := loadLanes_full _ _ _
  refine ⟨rfl, hlen', ?pending, fun hpen hm hleft => ?load, fun i l hl => ?lane⟩
  case pending =>
    have hready : (s.loadBank data).allReady = false := by
      by_contra hr
      simp [State.bankFull_eq_false hne (by simpa using hr)] at htaken
    simp [State.sePending, hready]
  case load =>
    have hrdy : ∀ l ∈ (s.loadBank data).bank, l.rdy = false := fun _ => loadLanes_rdy
    exact (State.canBankLoad_iff_of_bank hlen' h1).2 ⟨hpen, hleft, .inl ⟨hm, hrdy⟩⟩
  case lane =>
    rw [State.loadBank_bank, loadLanes_getElem?] at hl
    obtain ⟨l0, hl0, rfl⟩ := Option.map_eq_some_iff.1 hl
    obtain ⟨hi, -⟩ := List.getElem?_eq_some_iff.1 hl0
    have hfit : i * s.params.shifterBytes + s.params.shifterBytes ≤ data.length := by
      rw [hdata, Params.burstBytes_eq, ← Nat.succ_mul]
      exact Nat.mul_le_mul_right _ (by omega)
    refine ⟨rfl, ?_, by rw [hl0]; rfl, fun k hk => ?_⟩
    · rw [List.length_take, List.length_drop]
      omega
    · rw [List.getElem?_take_of_lt hk, List.getElem?_drop]

end Sys2Proof.Machine

/-! BURST (43_burst.md R181 to R184): its words, its refusals and its start phase. -/

namespace Sys2Proof.Machine

theorem encode_burst (cb : Bool) (base : Nat) (count : BitVec 32) :
    encode (.burst cb base count) = [if cb then 0x30000001 else 0x30000000, base, count.toNat] := by
  cases cb <;> rfl

theorem State.configure_burst_eq (s : State) :
    s.configure .multiBeatBurst = { s with
      mode := .multiBeatBurst, pen := true, timcmp := compareValue s.params.burstBeats s.divider
      bank := List.replicate s.params.shifters (Lane.cleared s.params), beatsLeft := 0, beatIdx := 0
      sdone := false, tsf := false, sien := false, tien := false } := rfl

/-- The end of the start phase of a buffer of `total` bytes at `base` (R181 to R183). -/
def State.sessionStarted (s : State) (cb : Bool) (base total : Nat) : State :=
  ((((((({ s with cbSlot := cb } : State).configure .multiBeatBurst).openSession base total).drive .cs .low).drive
    .dc .high).primeCompare s.params.burstBeats).armInterrupts).ret .ack

theorem State.sessionStarted_eq (s : State) (cb : Bool) (base total : Nat) :
    s.sessionStarted cb base total = { s with
      cbSlot := cb, mode := .multiBeatBurst, pen := true
      bank := List.replicate s.params.shifters (Lane.cleared s.params), beatsLeft := 0, beatIdx := 0
      sdone := false, tsf := false, sien := true, tien := true
      timcmp := compareValue s.params.burstBeats s.divider
      done := false, bufBase := base, totalBytes := BitVec.ofNat 32 total, bytesRemaining := BitVec.ofNat 32 total
      burstsRemaining := BitVec.ofNat 32 (ceilDiv total s.params.burstBytes)
      readCursor := .live 0
      finalBurstBuffer :=
        if total % s.params.burstBytes = 0 then s.finalBurstBuffer
        else s.memBytes (base + (total - total % s.params.burstBytes)) (total % s.params.burstBytes) ++
          List.replicate (s.params.burstBytes - total % s.params.burstBytes) 0
      cs := .low, dc := .high, trace := s.trace ++ [.drive .cs .low] ++ [.drive .dc .high]
      responses := s.responses ++ [.ack], fgBusy := false, held := none } := by
  simp only [State.sessionStarted, State.configure_burst_eq, State.openSession, State.drive, State.setPin, State.emit,
    State.primeCompare, State.armInterrupts, State.ret, State.memBytes]
  rfl

section
variable {cb : Bool} {base : Nat} {count : BitVec 32} {s : State}

theorem startBurst_overflow (h : 2 ^ 32 ≤ burstLength s.params count) :
    startBurst cb base count s = .refused .lengthOverflow :=
  if_pos h

theorem startBurst_wraps (hlt : burstLength s.params count < 2 ^ 32)
    (h : 2 ^ s.params.addrWidth < base + burstLength s.params count) :
    startBurst cb base count s = .refused .bufferWraps :=
  (if_neg (Nat.not_le.2 hlt)).trans (if_pos h)

/-- A buffer that is accepted: nothing but the callback for an empty one, else the start phase. -/
theorem startBurst_accepted (hlt : burstLength s.params count < 2 ^ 32)
    (hfits : base + burstLength s.params count ≤ 2 ^ s.params.addrWidth) :
    startBurst cb base count s =
      if count = 0 then andThen (runCallback { s with cbSlot := cb }) (fun u => .next (u.ret .ack))
      else .next (s.sessionStarted cb base (burstLength s.params count)) :=
  (if_neg (Nat.not_le.2 hlt)).trans (if_neg (Nat.not_lt.2 hfits))

theorem exec_burst_run (hc : s.inCallback = false) (hdiv : s.divider ≠ 0) (hd : s.done = true) :
    exec (.burst cb base count) s = startBurst cb base count s :=
  admitTransfer_run hc hdiv hd

end

/-- Settles O29: the refusals in their order, the callback of an empty buffer, and the start phase written out. -/
theorem burstStartOpensTheSession : Obligations.BurstStartOpensTheSession := by
  intro cb base count s hwf hc hdiv
  refine ⟨encode_burst cb base count, exec_transfer_session rfl hc hdiv, fun hd hlen => ?overflow,
    fun hd hlt hwrap => ?wraps, fun hd hbase h0 hport => ?empty, fun total r hd htotal hlt hfits h0 hr => ?opens⟩
  case overflow => rw [exec_burst_run hc hdiv hd, startBurst_overflow hlen]
  case wraps => rw [exec_burst_run hc hdiv hd, startBurst_wraps hlt hwrap]
  case empty =>
    have hlen : burstLength s.params count = 0 := by simp [burstLength, h0]
    have hsilent : cb = true → decode s.params.addrWidth s.callbackPort = .error .incomplete :=
      fun hcb => by rw [hport hcb, decode]
    rw [exec_burst_run hc hdiv hd, startBurst_accepted (by omega) (by omega), if_pos h0,
      runCallback_of_silent (by exact hsilent), andThen_next]
    simp only [State.ret, hc]
  case opens =>
    have hlen : burstLength s.params count = total := htotal.symm
    rw [exec_burst_run hc hdiv hd, startBurst_accepted (hlen.trans_lt hlt) (hlen ▸ hfits), if_neg h0, hlen,
      State.sessionStarted_eq, hr]
    simp only [ceilDiv, State.memBytes, List.append_assoc, List.cons_append, List.nil_append]

end Sys2Proof.Machine

/-! Sessions (43_burst.md R190 to R201): the moves that can be taken while one is active, that one always can be, and that a
session ends where the two agents that serve it are live and hangs where one of them is stuck. -/

namespace Sys2Proof.Machine

/-! ### The moves of a session -/

/-- From `s` to `t` by a move that can be taken while a session is active. -/
inductive State.SessionMove (s : State) : State → Prop where
  /-- An operation at the port is accepted and holds (30_encoding.md R88). -/
  | accept (i : Instr) (rest : List PortWord) (hdec : decode s.params.addrWidth s.port = .ok (i, rest)) :
    s.SessionMove (({ s with port := rest } : State).hold (.onDone i))
  /-- The shifter-empty handler with no data left (R191). -/
  | disable (hlive : s.interruptSteps ≠ some 0) (hp : s.sePending = true) (h0 : s.bytesRemaining = 0) :
    s.SessionMove { s.spendInterrupt with sien := false, inIrq := false }
  /-- The shifter-empty handler with less than a burst left (R192). -/
  | lastRefill (hlive : s.interruptSteps ≠ some 0) (hp : s.sePending = true) (h0 : s.bytesRemaining ≠ 0)
      (hlt : s.bytesRemaining.toNat < s.params.burstBytes) :
    s.SessionMove { s.spendInterrupt with
      timcmp := compareValue (s.bytesRemaining.toNat / s.params.bytesPerBeat) s.divider
      readCursor := .final
      bytesRemaining := 0
      bank := loadLanes s.params.shifterBytes s.bank s.finalBurstBuffer
      inIrq := false }
  /-- The shifter-empty handler with a burst or more left (R193). -/
  | fullRefill (hlive : s.interruptSteps ≠ some 0) (hp : s.sePending = true)
      (hge : s.params.burstBytes ≤ s.bytesRemaining.toNat) (o : Nat) (hcur : s.readCursor = .live o) :
    s.SessionMove { s.spendInterrupt with
      bytesRemaining := s.bytesRemaining - BitVec.ofNat 32 s.params.burstBytes
      readCursor := .live (o + s.params.burstBytes)
      bank := loadLanes s.params.shifterBytes s.bank (s.memBytes (s.bufBase + o) s.params.burstBytes)
      inIrq := false }
  /-- The burst-complete handler with more bursts to come (R196). -/
  | count (hlive : s.interruptSteps ≠ some 0) (hp : s.tcPending = true) (h0 : s.burstsRemaining ≠ 0)
      (h1 : s.burstsRemaining ≠ 1) : s.SessionMove s.spendInterrupt.burstCounted
  /-- The burst-complete handler at the last burst (R196). -/
  | finish (hlive : s.interruptSteps ≠ some 0) (hp : s.tcPending = true) (h1 : s.burstsRemaining = 1) :
    s.SessionMove s.spendInterrupt.sessionEnded
  | bankLoad (hlive : s.peripheralSteps ≠ some 0) (hcan : s.canBankLoad = true) :
    s.SessionMove s.spendPeripheral.bankLoad
  | writeBeat (hlive : s.peripheralSteps ≠ some 0) (hcan : s.canWriteBeat = true) :
    s.SessionMove s.spendPeripheral.writeBeat
  /-- The caller's next store (log 16). -/
  | store (c : Host.Cell) (cs : List Host.Cell) (hc : s.hostStores = c :: cs) :
    s.SessionMove { s with mem := Memory.write s.mem c.1 c.2, hostStores := cs }

theorem State.interruptSteps_of_shifterEmpty {s : State} (hm : s.canMove .shifterEmpty = true) :
    s.interruptSteps ≠ some 0 :=
  (s.interruptLive_and_iff.1 hm).1

theorem State.interruptSteps_of_burstComplete {s : State} (hm : s.canMove .burstComplete = true) :
    s.interruptSteps ≠ some 0 :=
  (s.interruptLive_and_iff.1 hm).1

/-- During a session what holds goes on holding: a transfer operation waits for `done`. -/
theorem State.Inv.not_resume {s : State} (hs : s.Inv) (hd : s.done = false) : s.canMove .resume = false := by
  by_contra hm
  obtain ⟨i, hh⟩ := hs.resume_onDone (by simpa using hm)
  exact hm (State.not_canMove_resume ((State.holdLifted_onDone hh).trans hd))

theorem State.not_accept_of_port {s : State} (h : s.port = []) : s.canMove .accept = false := by
  simp [State.canMove, State.canAccept, State.portReady, h, decode]

/-- Accepting takes an operation from the port: what is there is more than the beginning of one. -/
theorem acceptNext_of_canMove {s t : State} (hm : s.canMove .accept = true) (h : acceptNext s = .next t) :
    ∃ i rest, decode s.params.addrWidth s.port = .ok (i, rest) ∧ exec i { s with port := rest } = .next t := by
  have hready : s.portReady = true := by
    simp only [State.canMove, State.canAccept, Bool.and_eq_true] at hm
    obtain ⟨-, hready⟩ := hm
    exact hready
  unfold acceptNext at h
  split at h
  · rename_i i rest hdec
    exact ⟨i, rest, hdec, h⟩
  · cases h
  · rename_i hdec
    simp [State.portReady, hdec] at hready

theorem State.Inv.not_readBeat {s : State} (hs : s.Inv) : s.canMove .readBeat = false := by
  by_contra hm
  obtain ⟨hlive, hcan⟩ := Bool.and_eq_true_iff.1 (Bool.eq_true_of_not_eq_false hm)
  simp [hs.not_canReadBeat hlive] at hcan

theorem hostStoreNext_cons {s : State} {c : Host.Cell} {cs : List Host.Cell} (hc : s.hostStores = c :: cs)
    (hlt : c.1 < 2 ^ s.params.addrWidth) :
    hostStoreNext s = .next { s with mem := Memory.write s.mem c.1 c.2, hostStores := cs } := by
  simp only [hostStoreNext, hc, if_pos hlt]

/-- Every enabled move of a session is one of these. -/
theorem perform_sessionMove {m : Move} {s t : State} (hs : s.Inv) (hd : s.done = false) (hm : s.canMove m = true)
    (h : perform m s = .next t) : s.SessionMove t := by
  cases m with
  | shifterEmpty =>
    have hlive := State.interruptSteps_of_shifterEmpty hm
    have hp := State.sePending_of_shifterEmpty hm
    obtain ⟨h0, rfl⟩ | ⟨h0, hlt, rfl⟩ | ⟨hge, o, hcur, -, rfl⟩ := shifterEmptyHandler_eq_next (s := s.spendInterrupt) h
    · exact .disable hlive hp h0
    · exact .lastRefill hlive hp h0 hlt
    · exact .fullRefill hlive hp hge o hcur
  | burstComplete =>
    have hlive := State.interruptSteps_of_burstComplete hm
    have hp := State.tcPending_of_burstComplete hm
    obtain ⟨h0, h1, rfl⟩ | ⟨h1, -, rfl⟩ := burstCompleteHandler_cases (s := s.spendInterrupt) h
    · exact .count hlive hp h0 h1
    · exact .finish hlive hp h1
  | bankLoad =>
    obtain ⟨hlive, hcan⟩ := s.peripheralLive_and_iff.1 hm
    cases h
    exact .bankLoad hlive hcan
  | writeBeat =>
    obtain ⟨hlive, hcan⟩ := s.peripheralLive_and_iff.1 hm
    cases h
    exact .writeBeat hlive hcan
  | readBeat => exact absurd hm (by simp [hs.not_readBeat])
  | accept =>
    obtain ⟨i, rest, hdec, hx⟩ := acceptNext_of_canMove hm h
    rw [exec_session (s := { s with port := rest }) hd hx]
    exact .accept i rest hdec
  | resume => exact absurd hm (by simp [hs.not_resume hd])
  | hostStore =>
    have hne : s.hostStores ≠ [] := by simpa [State.canMove] using hm
    obtain ⟨c, cs, hc⟩ := List.exists_cons_of_ne_nil hne
    cases (hostStoreNext_cons hc (hs.stores_space c (by simp [hc]))).symm.trans h
    exact .store c cs hc

/-! ### A move can be taken (R262, R271, R272) -/

/-- In a session a bank load waits for a bank that is taken whole and for nothing in flight. -/
theorem State.Inv.canBankLoad_iff {s : State} (hs : s.Inv) (k : s.SessionInv) :
    s.canBankLoad = true ↔ s.beatsLeft = 0 ∧ s.bankFull = true := by
  obtain ⟨h1, -⟩ := (Params.wf_iff _).1 hs.params
  have hpen : s.pen = true := hs.enable.2 (by simp [k.mode])
  rw [State.canBankLoad_iff_of_bank hs.bank h1]
  simp [hpen, k.mode, State.bankFull]

/-- While a session is active an interrupt is pending or the peripheral has a step to take. -/
theorem State.Inv.session_guard {s : State} (hs : s.Inv) (k : s.SessionInv) :
    s.canShifterEmpty = true ∨ s.canBurstComplete = true ∨ s.canBankLoad = true ∨ s.canWriteBeat = true := by
  have hpen : s.pen = true := hs.enable.2 (by simp [k.mode])
  cases hse : s.sePending with
  | true => exact .inl (by simp [State.canShifterEmpty, hse, hs.inIrq])
  | false =>
    cases htc : s.tcPending with
    | true => exact .inr (.inl (by simp [State.canBurstComplete, htc, hs.inIrq]))
    | false =>
      refine .inr (.inr ?_)
      by_cases hleft : s.beatsLeft = 0
      · refine .inl ((hs.canBankLoad_iff k).2 ⟨hleft, ?_⟩)
        by_contra hfull
        have hready : s.allReady = true := k.uniform.resolve_right hfull
        have hsien : s.sien = false := by simpa [State.sePending, k.mode, hready] using hse
        have htsf : s.tsf = false := by simpa [State.tcPending, k.mode, k.tien] using htc
        have hcount : s.burstsRemaining.toNat = 0 := by
          rw [k.count, State.burstsOutstanding, k.sien_off hsien, hleft, htsf, (by simpa using hfull : s.bankFull = false)]
          exact congrArg (· + 0 + 0 + 0) (ceilDiv_zero (Params.burstBytes_pos hs.params))
        exact k.count_pos (BitVec.eq_of_toNat_eq hcount)
      · exact .inr (s.canWriteBeat_iff.2 ⟨hpen, .inr k.mode, hleft, .inr ⟨hse, htc⟩⟩)

/-- With neither agent stuck a session has an enabled move. -/
theorem State.Inv.enabled_ne_nil {s : State} (hs : s.Inv) (hd : s.done = false) (hperiph : s.peripheralSteps ≠ some 0)
    (hirq : s.interruptSteps ≠ some 0) : s.enabled ≠ [] := by
  have hmove (m : Move) (hm : s.canMove m = true) : s.enabled ≠ [] :=
    List.ne_nil_of_mem ((mem_enabled s m).2 hm)
  obtain h | h | h | h := hs.session_guard (hs.session hd)
  · exact hmove .shifterEmpty (s.interruptLive_and_iff.2 ⟨hirq, h⟩)
  · exact hmove .burstComplete (s.interruptLive_and_iff.2 ⟨hirq, h⟩)
  · exact hmove .bankLoad (s.peripheralLive_and_iff.2 ⟨hperiph, h⟩)
  · exact hmove .writeBeat (s.peripheralLive_and_iff.2 ⟨hperiph, h⟩)

/-- The shifter-empty handler of a session always refills or disables its source. -/
theorem State.Inv.shifterEmptyHandler_next {s : State} (hs : s.Inv) (hd : s.done = false) :
    ∃ t, shifterEmptyHandler s = .next t := by
  by_cases h0 : s.bytesRemaining = 0
  · exact ⟨_, shifterEmptyHandler_disable h0⟩
  · by_cases hlt : s.bytesRemaining.toNat < s.params.burstBytes
    · exact ⟨_, shifterEmptyHandler_lastRefill h0 hlt⟩
    · have hge := Nat.not_lt.1 hlt
      obtain ⟨o, hcur, hfits⟩ := (hs.session hd).live_cursor (Params.burstBytes_pos hs.params) hge
      exact ⟨_, (shifterEmptyHandler_of_le h0 hge).trans (fullRefill_live hcur hfits)⟩

/-- No move of a session faults, and none is refused where no operation is presented: at the port, or by the callback if
the session may end. -/
theorem State.Inv.perform_next {m : Move} {s : State} (hs : s.Inv) (hd : s.done = false) (hport : s.port = [])
    (hcb : s.burstsRemaining = 1 → s.canMove .burstComplete = true → s.callbackPort = [])
    (hm : s.canMove m = true) : ∃ t, perform m s = .next t := by
  cases m with
  | shifterEmpty => exact hs.spendInterrupt.shifterEmptyHandler_next hd
  | burstComplete =>
    by_cases h1 : s.burstsRemaining = 1
    · exact ⟨_, burstCompleteHandler_end (s := s.spendInterrupt) h1 fun _ => by simp [hcb h1 hm, decode]⟩
    · exact ⟨_, burstCompleteHandler_count (s := s.spendInterrupt) (hs.session hd).count_pos h1⟩
  | bankLoad | writeBeat | readBeat => exact ⟨_, rfl⟩
  | accept => simp [State.not_accept_of_port hport] at hm
  | resume => simp [hs.not_resume hd] at hm
  | hostStore =>
    have hne : s.hostStores ≠ [] := by simpa [State.canMove] using hm
    obtain ⟨c, cs, hc⟩ := List.exists_cons_of_ne_nil hne
    exact ⟨_, hostStoreNext_cons hc (hs.stores_space c (by simp [hc]))⟩

/-! ### Runs -/

/-- A step of a legal configuration: nothing where no move is enabled, else an enabled move from the state itself or from
the one whose schedule choice is used. -/
theorem step_cases {s : State} (hwf : s.params.wf = true) :
    (s.enabled = [] ∧ step s = .next s) ∨
      ∃ m u, s.canMove m = true ∧ (u = s ∨ u = s.afterChoice) ∧ step s = perform m u := by
  rw [step, if_pos hwf, stepAgents]
  split
  · exact .inl ⟨by assumption, rfl⟩
  · rename_i m he
    exact .inr ⟨m, s, by rw [← mem_enabled, he]; simp, .inl rfl, rfl⟩
  · rename_i m ms _ he
    refine .inr ⟨_, s.afterChoice, ?_, .inr rfl, rfl⟩
    rw [← mem_enabled, he, List.getD_eq_getElem _ _ (Nat.mod_lt _ (by simp))]
    exact List.getElem_mem _

/-- What every step keeps, every run keeps. -/
theorem run_keeps {P : State → Prop} (hstep : ∀ s, P s → ∃ t, step s = .next t ∧ P t) {s : State} (hs : P s) (k : Nat) :
    ∃ t, Host.Core.run Sys2Proof.core k s = .next t ∧ P t := by
  induction k generalizing s with
  | zero => exact ⟨s, rfl, hs⟩
  | succ k ih =>
    obtain ⟨u, hu, hPu⟩ := hstep s hs
    obtain ⟨t, ht, hPt⟩ := ih hPu
    exact ⟨t, (run_succ_of_step k hu).trans ht, hPt⟩

/-- Where every step makes a measure smaller or reaches its goal, some run reaches it. -/
theorem run_reaches {P Q : State → Prop} (work : State → Nat)
    (hstep : ∀ s, P s → ∃ t, step s = .next t ∧ (Q t ∨ (P t ∧ work t < work s))) {s : State} (hs : P s) :
    ∃ k t, Host.Core.run Sys2Proof.core k s = .next t ∧ Q t := by
  induction hn : work s using Nat.strong_induction_on generalizing s with
  | _ n ih =>
    obtain ⟨u, hu, hQ | ⟨hPu, hlt⟩⟩ := hstep s hs
    · exact ⟨1, u, run_succ_of_step 0 hu, hQ⟩
    · obtain ⟨k, t, ht, hQ⟩ := ih (work u) (hn ▸ hlt) hPu rfl
      exact ⟨k + 1, t, (run_succ_of_step k hu).trans ht, hQ⟩

/-! ### A session that is served ends (R201, R271) -/

/-- A session with no further operation presented, a callback that issues none, and no agent stuck. -/
structure State.Served (s : State) : Prop where
  inv : s.Inv
  active : s.done = false
  port : s.port = []
  callbackPort : s.callbackPort = []
  peripheral : s.peripheralSteps = none
  interrupt : s.interruptSteps = none

theorem State.Served.afterChoice {s : State} (h : s.Served) : s.afterChoice.Served where
  inv := h.inv.afterChoice
  active := by simpa using h.active
  port := by simpa using h.port
  callbackPort := by simpa using h.callbackPort
  peripheral := by simpa using h.peripheral
  interrupt := by simpa using h.interrupt

/-- A bound on the moves that a session has left: each byte not loaded weighs more than the loading of a whole bank, a bank
that waits more than the two for each beat of a burst. -/
def State.work (s : State) : Nat :=
  s.hostStores.length + oneIf s.sien + oneIf s.tsf + 2 * s.beatsLeft.toNat + 257 * oneIf s.bankFull +
    258 * s.bytesRemaining.toNat

theorem oneIf_le_one (b : Bool) : oneIf b ≤ 1 := by
  cases b <;> decide

theorem beatsOfCompare_compareValue_toNat {n : Nat} (h1 : 1 ≤ n) (h2 : n ≤ 128) (d : BitVec 8) :
    (beatsOfCompare (compareValue n d)).toNat = n := by
  rw [beatsOfCompare_compareValue h1 h2, BitVec.toNat_ofNat]
  omega

/-- The beat count that a bank load of a session latches: at least one, at most a burst's (30_encoding.md R95). -/
theorem State.Inv.latch_bounds {s : State} (hs : s.Inv) (k : s.SessionInv) :
    1 ≤ (beatsOfCompare s.timcmp).toNat ∧ (beatsOfCompare s.timcmp).toNat ≤ s.params.burstBeats := by
  obtain ⟨n, h1, h2, hn⟩ := k.compare
  obtain ⟨-, -, hmax, -⟩ := (Params.wf_iff _).1 hs.params
  rw [hn, beatsOfCompare_compareValue_toNat h1 (h2.trans hmax)]
  exact ⟨h1, h2⟩

/-- After a bank load of a session every shift buffer is free. -/
theorem State.Inv.bankLoad_bankFull {s : State} (hs : s.Inv) (k : s.SessionInv) :
    s.spendPeripheral.bankLoad.bankFull = false := by
  have hbank : s.spendPeripheral.bankLoad.bank = s.bank.map Lane.shiftIn :=
    State.bankLoad_burst_bank (s := s.spendPeripheral) k.mode hs.bank
  refine State.bankFull_eq_false ?_ ?_
  · rw [hbank]
    simpa using hs.bank_ne_nil
  · rw [State.allReady, hbank]
    exact shiftIn_allReady _

/-- A refill takes bytes off `bytesRemaining`, which outweigh the bank that then waits. -/
theorem State.work_refill_lt {s : State} {n : BitVec 32} {v : BitVec 16} {c : Cursor} {ls : List Lane}
    (hlt : n.toNat < s.bytesRemaining.toNat) :
    State.work { s.spendInterrupt with
      timcmp := v, readCursor := c, bytesRemaining := n, bank := ls, inIrq := false } < s.work := by
  have hone := oneIf_le_one (ls.all fun l => !l.rdy)
  have hwork : s.work = s.hostStores.length + oneIf s.sien + oneIf s.tsf + 2 * s.beatsLeft.toNat +
    257 * oneIf s.bankFull + 258 * s.bytesRemaining.toNat := rfl
  show s.hostStores.length + oneIf s.sien + oneIf s.tsf + 2 * s.beatsLeft.toNat +
    257 * oneIf (ls.all fun l => !l.rdy) + 258 * n.toNat < s.work
  omega

/-- A bank load sends a waiting burst on its way: its beats weigh less than the bank that waited. -/
theorem State.Inv.work_bankLoad_lt {s : State} (hs : s.Inv) (k : s.SessionInv) (hcan : s.canBankLoad = true) :
    s.spendPeripheral.bankLoad.work < s.work := by
  obtain ⟨hleft, hfull⟩ := (hs.canBankLoad_iff k).1 hcan
  obtain ⟨-, hbeats⟩ := hs.latch_bounds k
  obtain ⟨-, -, hmax, -⟩ := (Params.wf_iff _).1 hs.params
  show s.hostStores.length + oneIf s.sien + oneIf s.tsf + 2 * (beatsOfCompare s.timcmp).toNat +
    257 * oneIf s.spendPeripheral.bankLoad.bankFull + 258 * s.bytesRemaining.toNat < s.work
  rw [State.work, hs.bankLoad_bankFull k, hfull, hleft, oneIf_true, oneIf_false]
  omega

/-- A write beat is one beat fewer, and flags at most one completion. -/
theorem State.work_writeBeat_lt {s : State} (hleft : s.beatsLeft ≠ 0) : s.spendPeripheral.writeBeat.work < s.work := by
  have hone := oneIf_le_one s.spendPeripheral.writeBeat.tsf
  have hpred : (s.beatsLeft - 1).toNat + 1 = s.beatsLeft.toNat := by bv_omega
  have hwork : s.work = s.hostStores.length + oneIf s.sien + oneIf s.tsf + 2 * s.beatsLeft.toNat +
    257 * oneIf s.bankFull + 258 * s.bytesRemaining.toNat := rfl
  have hafter : s.spendPeripheral.writeBeat.work = s.hostStores.length + oneIf s.sien +
      oneIf s.spendPeripheral.writeBeat.tsf + 2 * (s.beatsLeft - 1).toNat + 257 * oneIf s.bankFull +
        258 * s.bytesRemaining.toNat := by
    rw [State.writeBeat_eq]
    rfl
  omega

/-- Every move of a session leaves fewer to come. -/
theorem State.SessionMove.work_lt {s t : State} (h : s.SessionMove t) (hs : s.Inv) (hd : s.done = false)
    (hport : s.port = []) : t.work < s.work := by
  have k := hs.session hd
  have hpos := Params.burstBytes_pos hs.params
  cases h with
  | accept i rest hdec => simp [hport, decode] at hdec
  | disable _ hp _ =>
    obtain ⟨-, hsien, -⟩ := hs.active_of_sePending hp
    simp [State.work, State.bankFull, hsien]
  | lastRefill _ _ h0 _ =>
    refine State.work_refill_lt ?_
    show 0 < s.bytesRemaining.toNat
    bv_omega
  | fullRefill _ _ hge o _ =>
    refine State.work_refill_lt ?_
    bv_omega
  | count _ hp _ _ =>
    obtain ⟨-, htsf⟩ := hs.active_of_tcPending hp
    simp [State.work, State.bankFull, State.burstCounted, htsf]
  | finish _ hp _ =>
    obtain ⟨-, htsf⟩ := hs.active_of_tcPending hp
    simp [State.work, State.bankFull, State.sessionEnded, htsf]
  | bankLoad _ hcan => exact hs.work_bankLoad_lt k hcan
  | writeBeat _ hcan =>
    obtain ⟨hleft, -⟩ := hs.not_pending k hcan
    exact State.work_writeBeat_lt hleft
  | store c cs hc => simp [State.work, State.bankFull, hc]

/-- A move of a served session ends it or leaves it served. -/
theorem State.SessionMove.served {s t : State} (h : s.SessionMove t) (hs : s.Served) (ht : t.Inv) :
    t.done = true ∨ t.Served := by
  cases h with
  | accept i rest hdec => simp [hs.port, decode] at hdec
  | finish _ _ _ => exact .inl rfl
  | disable | lastRefill | fullRefill | count | bankLoad | writeBeat | store =>
    exact .inr ⟨ht, by simpa using hs.active, by simpa using hs.port, by simpa using hs.callbackPort,
      by simp [hs.peripheral], by simp [hs.interrupt]⟩

theorem State.Served.perform {s : State} {m : Move} (h : s.Served) (hm : s.canMove m = true) :
    ∃ t, perform m s = .next t ∧ (t.done = true ∨ (t.Served ∧ t.work < s.work)) := by
  obtain ⟨t, ht⟩ := h.inv.perform_next h.active h.port (fun _ _ => h.callbackPort) hm
  have hmove := perform_sessionMove h.inv h.active hm ht
  have hwork := hmove.work_lt h.inv h.active h.port
  exact ⟨t, ht, (hmove.served h (perform_inv h.inv hm ht)).imp_right fun hserved => ⟨hserved, hwork⟩⟩

/-- Each step of a served session ends it or leaves it served with less work. -/
theorem State.Served.step {s : State} (h : s.Served) :
    ∃ t, step s = .next t ∧ (t.done = true ∨ (t.Served ∧ t.work < s.work)) := by
  obtain ⟨he, -⟩ | ⟨m, u, hm, rfl | rfl, hstep⟩ := step_cases h.inv.params
  · exact absurd he (h.inv.enabled_ne_nil h.active (by simp [h.peripheral]) (by simp [h.interrupt]))
  · rw [hstep]
    exact h.perform hm
  · have hwork : s.afterChoice.work = s.work := by simp [State.work, State.bankFull]
    rw [hstep, ← hwork]
    exact h.afterChoice.perform (by simpa using hm)

/-! ### A session with a stuck agent hangs (R221, R224, U2) -/

/-- What the end of a session waits for will not come: the peripheral is stuck with more bursts to acknowledge than are
flagged, or no handler runs any more. -/
def State.Stalled (s : State) : Prop :=
  (s.peripheralSteps = some 0 ∧ oneIf s.tsf < s.burstsRemaining.toNat) ∨ s.interruptSteps = some 0

/-- A session with no further operation presented that has stalled, with `rs` returned so far. -/
structure State.Hanging (rs : List Response) (s : State) : Prop where
  inv : s.Inv
  active : s.done = false
  port : s.port = []
  stalled : s.Stalled
  responses : s.responses = rs

theorem State.Hanging.afterChoice {rs : List Response} {s : State} (h : s.Hanging rs) : s.afterChoice.Hanging rs where
  inv := h.inv.afterChoice
  active := by simpa using h.active
  port := by simpa using h.port
  stalled := by simpa [State.Stalled] using h.stalled
  responses := by simpa using h.responses

/-- The last burst of a stalled session is not acknowledged. -/
theorem State.Stalled.not_finish {s : State} (h : s.Stalled) (hlive : s.interruptSteps ≠ some 0) (htsf : s.tsf = true) :
    s.burstsRemaining ≠ 1 := by
  intro h1
  obtain ⟨-, hlt⟩ | hirq := h
  · rw [htsf, h1] at hlt
    exact absurd hlt (by decide)
  · exact hlive hirq

/-- Every move of a stalled session leaves it stalled. -/
theorem State.SessionMove.stalled {s t : State} (h : s.SessionMove t) (hs : s.Inv) (hst : s.Stalled) : t.Stalled := by
  cases h with
  | accept | store => exact hst
  | disable hlive | lastRefill hlive | fullRefill hlive => exact .inl (hst.resolve_right hlive)
  | count hlive hp h0 h1 =>
    obtain ⟨hstuck, -⟩ := hst.resolve_right hlive
    refine .inl ⟨hstuck, ?_⟩
    show 0 < (s.burstsRemaining - 1).toNat
    bv_omega
  | finish hlive hp h1 =>
    obtain ⟨-, htsf⟩ := hs.active_of_tcPending hp
    exact absurd h1 (hst.not_finish hlive htsf)
  | bankLoad hlive _ | writeBeat hlive _ =>
    exact .inr (by simpa using hst.resolve_left fun ⟨hstuck, _⟩ => hlive hstuck)

/-- Every move of a hanging session leaves it hanging. -/
theorem State.SessionMove.hanging {rs : List Response} {s t : State} (h : s.SessionMove t) (hs : s.Hanging rs)
    (ht : t.Inv) : t.Hanging rs := by
  have hst := h.stalled hs.inv hs.stalled
  cases h with
  | accept i rest hdec => simp [hs.port, decode] at hdec
  | finish hlive hp h1 =>
    obtain ⟨-, htsf⟩ := hs.inv.active_of_tcPending hp
    exact absurd h1 (hs.stalled.not_finish hlive htsf)
  | disable | lastRefill | fullRefill | count | bankLoad | writeBeat | store =>
    exact ⟨ht, by simpa using hs.active, by simpa using hs.port, hst, by simpa using hs.responses⟩

theorem State.Hanging.perform {rs : List Response} {s : State} {m : Move} (h : s.Hanging rs)
    (hm : s.canMove m = true) : ∃ t, perform m s = .next t ∧ t.Hanging rs := by
  have hcb (h1 : s.burstsRemaining = 1) (hb : s.canMove .burstComplete = true) : s.callbackPort = [] := by
    obtain ⟨-, htsf⟩ := h.inv.active_of_tcPending (State.tcPending_of_burstComplete hb)
    exact absurd h1 (h.stalled.not_finish (State.interruptSteps_of_burstComplete hb) htsf)
  obtain ⟨t, ht⟩ := h.inv.perform_next h.active h.port hcb hm
  exact ⟨t, ht, (perform_sessionMove h.inv h.active hm ht).hanging h (perform_inv h.inv hm ht)⟩

/-- Each step of a hanging session leaves it hanging. -/
theorem State.Hanging.step {rs : List Response} {s : State} (h : s.Hanging rs) :
    ∃ t, step s = .next t ∧ t.Hanging rs := by
  obtain ⟨-, hstep⟩ | ⟨m, u, hm, rfl | rfl, hstep⟩ := step_cases h.inv.params
  · exact ⟨s, hstep, h⟩
  · rw [hstep]
    exact h.perform hm
  · rw [hstep]
    exact h.afterChoice.perform (by simpa using hm)

/-- Settles O54: every step of a served session leaves less work, and every step of a stalled one leaves it stalled. -/
theorem everySessionEnds : Obligations.EverySessionEnds := by
  constructor
  · intro s hs hd hport hcb hperiph hirq
    exact run_reaches (P := State.Served) (Q := fun t => t.done = true) State.work (fun _ => State.Served.step)
      ⟨hs, hd, hport, hcb, hperiph, hirq⟩
  · intro s hs hd hport hst k
    obtain ⟨t, hrun, ht⟩ := run_keeps (P := State.Hanging s.responses) (fun _ => State.Hanging.step)
      ⟨hs, hd, hport, hst, rfl⟩ k
    exact ⟨t, hrun, ht.active, ht.responses⟩

end Sys2Proof.Machine

/-! What a session puts on the bus (43_burst.md R198): the beats of the buffer, in order, from the bytes in memory through the
shift buffers and the shifters to the trace. -/

namespace Sys2Proof.Machine

/-! ### Beats of a run of bytes (20_memory.md R64) -/

/-- A beat from its bytes, the first one on the low lines. -/
def beatOfUnit (p : Params) (f : Nat → Byte) : Beat :=
  match p.busWidth with
  | .w8 => byteBeat (f 0)
  | .w16 => f 1 ++ f 0

theorem beatOfUnit_congr {p : Params} {f g : Nat → Byte} (h : ∀ k < p.bytesPerBeat, f k = g k) :
    beatOfUnit p f = beatOfUnit p g := by
  cases hw : p.busWidth with
  | w8 =>
    have h0 := h 0 (by simp [Params.bytesPerBeat, hw])
    simp only [beatOfUnit, hw, h0]
  | w16 =>
    have h0 := h 0 (by simp [Params.bytesPerBeat, hw])
    have h1 := h 1 (by simp [Params.bytesPerBeat, hw])
    simp only [beatOfUnit, hw, h0, h1]

theorem beatOfBytes_eq (p : Params) (d : List Byte) (i : Nat) :
    beatOfBytes p d i = beatOfUnit p fun k => d.getD (i * p.bytesPerBeat + k) 0 := by
  cases hw : p.busWidth <;> simp [beatOfBytes, beatOfUnit, Params.bytesPerBeat, hw, Nat.mul_comm]

theorem State.bufferBeat_eq (s : State) (base j : Nat) :
    s.bufferBeat base j =
      beatOfUnit s.params fun k => Memory.read s.mem (base + (j * s.params.bytesPerBeat + k)) := by
  cases hw : s.params.busWidth <;> simp [State.bufferBeat, beatOfUnit, Params.bytesPerBeat, hw, Nat.mul_comm]

/-! ### Beats of a bank (41_config.md R142, 43_burst.md R194) -/

/-- Beat `j` of the registers `reg` of a bank: beat `j mod BPS` of lane `j div BPS`. -/
def bankBeat (p : Params) (reg : Lane → List Byte) (ls : List Lane) (j : Nat) : Beat :=
  beatOfBytes p (reg (ls.getD (j / p.beatsPerShifter) (Lane.cleared p))) (j % p.beatsPerShifter)

theorem State.beatValue_eq (s : State) : s.beatValue = bankBeat s.params Lane.sreg s.bank s.beatIdx.toNat := rfl

/-- What moves into the shifters is what was in the shift buffers. -/
theorem bankBeat_shiftIn (p : Params) (ls : List Lane) (j : Nat) :
    bankBeat p Lane.sreg (ls.map Lane.shiftIn) j = bankBeat p Lane.buf ls j := by
  have hlane : (ls.map Lane.shiftIn).getD (j / p.beatsPerShifter) (Lane.cleared p) =
      (ls.getD (j / p.beatsPerShifter) (Lane.cleared p)).shiftIn :=
    List.getD_map ls (Lane.cleared p) Lane.shiftIn
  rw [bankBeat, hlane]
  rfl

/-- Loading the shift buffers leaves the burst in flight alone. -/
theorem bankBeat_loadLanes_sreg (p : Params) (n : Nat) (ls : List Lane) (d : List Byte) (j : Nat) :
    bankBeat p Lane.sreg (loadLanes n ls d) j = bankBeat p Lane.sreg ls j := by
  simp only [bankBeat, List.getD_eq_getElem?_getD, loadLanes_getElem?]
  cases ls[j / p.beatsPerShifter]? <;> rfl

/-- Byte `k` of lane `i` is byte `i * SHIFTER_BYTES + k` of the data, so beat `j` of the bank is beat `j` of the data. -/
theorem bankBeat_loadLanes_buf {p : Params} (hwf : p.wf = true) {ls : List Lane} (hls : ls.length = p.shifters)
    (d : List Byte) {j : Nat} (hj : j < p.burstBeats) :
    bankBeat p Lane.buf (loadLanes p.shifterBytes ls d) j = beatOfBytes p d j := by
  obtain ⟨-, hbps, -⟩ := (Params.wf_iff p).1 hwf
  have hi : j / p.beatsPerShifter < ls.length := by
    rw [hls]
    exact Nat.div_lt_of_lt_mul (by rwa [Nat.mul_comm])
  have hmod : j % p.beatsPerShifter < p.beatsPerShifter := Nat.mod_lt _ hbps
  have hlane : ((loadLanes p.shifterBytes ls d).getD (j / p.beatsPerShifter) (Lane.cleared p)).buf =
      (d.drop (j / p.beatsPerShifter * p.shifterBytes)).take p.shifterBytes := by
    rw [List.getD_eq_getElem?_getD, loadLanes_getElem?, List.getElem?_eq_getElem hi]
    rfl
  rw [bankBeat, hlane, beatOfBytes_eq, beatOfBytes_eq]
  refine beatOfUnit_congr fun k hk => ?_
  have hin : j % p.beatsPerShifter * p.bytesPerBeat + k < p.shifterBytes := by
    calc j % p.beatsPerShifter * p.bytesPerBeat + k
        < (j % p.beatsPerShifter + 1) * p.bytesPerBeat := by rw [Nat.succ_mul]; omega
      _ ≤ p.shifterBytes := Nat.mul_le_mul_right _ hmod
  have hplace : j / p.beatsPerShifter * p.shifterBytes + (j % p.beatsPerShifter * p.bytesPerBeat + k) =
      j * p.bytesPerBeat + k := by
    conv_rhs => rw [← Nat.div_add_mod j p.beatsPerShifter]
    rw [Params.shifterBytes]
    ring
  rw [List.getD_eq_getElem?_getD, List.getD_eq_getElem?_getD, List.getElem?_take_of_lt hin, List.getElem?_drop, hplace]

/-! ### One session (R265) -/

/-- What no move of the session that `s` begins changes: the parameters, the read strobe and the record of the buffer; the
buffer's bytes, to which the caller stores nothing. -/
structure State.SameSession (s u : State) : Prop where
  params : u.params = s.params
  rd : u.rd = s.rd
  cbSlot : u.cbSlot = s.cbSlot
  bufBase : u.bufBase = s.bufBase
  totalBytes : u.totalBytes = s.totalBytes
  scratch : u.finalBurstBuffer = s.finalBurstBuffer
  mem : ∀ a, s.bufBase ≤ a → a < s.bufBase + s.totalBytes.toNat → Memory.read u.mem a = Memory.read s.mem a
  stores : ∀ c ∈ u.hostStores, c.1 < s.bufBase ∨ s.bufBase + s.totalBytes.toNat ≤ c.1

theorem State.SessionMove.sameSession {s u v : State} (h : u.SessionMove v) (hu : u.Inv) (k : s.SameSession u) :
    s.SameSession v := by
  cases h with
  | accept | disable | lastRefill | fullRefill | count | finish | bankLoad => exact { k with }
  | writeBeat =>
    rw [State.writeBeat_eq]
    exact { k with }
  | store c cs hc =>
    refine { k with mem := fun a hge hlt => ?mem, stores := fun d hd => k.stores d (hc ▸ List.mem_cons_of_mem c hd) }
    have hout := k.stores c (by simp [hc])
    rw [← k.mem a hge hlt]
    exact (Memory.read_write hu.mem _ _ _).trans (if_neg (by omega))

/-! ### What has been delivered -/

/-- The first `n` beats of the buffer on the bus. -/
def State.beatEvents (s : State) (n : Nat) : List Event :=
  (List.range n).map fun j => .wbeat .low .high s.rd (s.bufferBeat s.bufBase j)

theorem State.beatEvents_succ (s : State) (n : Nat) :
    s.beatEvents (n + 1) = s.beatEvents n ++ [.wbeat .low .high s.rd (s.bufferBeat s.bufBase n)] := by
  simp [State.beatEvents, List.range_succ]

/-- The beats that wait in the shift buffers. -/
def State.waitingBeats (u : State) : Nat := if u.bankFull then (beatsOfCompare u.timcmp).toNat else 0

theorem State.waitingBeats_full {u : State} (h : u.bankFull = true) :
    u.waitingBeats = (beatsOfCompare u.timcmp).toNat := if_pos h

theorem State.waitingBeats_free {u : State} (h : u.bankFull = false) : u.waitingBeats = 0 :=
  if_neg (by simp [h])

/-- Of the session that `s` begins, `m` beats have been sent, and those of the bytes taken off `bytesRemaining` that have
not are in flight or wait behind them, in order. -/
structure State.Delivered (s : State) (m : Nat) (u : State) : Prop where
  trace : u.trace = s.trace ++ s.beatEvents m
  flight : ∀ i < u.beatsLeft.toNat,
    bankBeat u.params Lane.sreg u.bank (u.beatIdx.toNat + i) = s.bufferBeat s.bufBase (m + i)
  waiting : u.bankFull = true → ∀ i < (beatsOfCompare u.timcmp).toNat,
    bankBeat u.params Lane.buf u.bank i = s.bufferBeat s.bufBase (m + u.beatsLeft.toNat + i)
  count : (m + u.beatsLeft.toNat + u.waitingBeats) * u.params.bytesPerBeat =
    u.totalBytes.toNat - u.bytesRemaining.toNat

/-- A refill puts the next beats of the buffer behind those in flight. -/
theorem State.Delivered.refill {s u : State} {m : Nat} (h : s.Delivered m u) (hu : u.Inv) (k : s.SameSession u)
    (hready : u.allReady = true) {data : List Byte} {n : BitVec 32} {v : BitVec 16} {c : Cursor}
    (hle : n.toNat ≤ u.bytesRemaining.toNat) (hremaining : u.bytesRemaining.toNat ≤ u.totalBytes.toNat)
    (hbeats : (beatsOfCompare v).toNat ≤ u.params.burstBeats)
    (hcount : (beatsOfCompare v).toNat * u.params.bytesPerBeat = u.bytesRemaining.toNat - n.toNat)
    (hdata : ∀ a < u.bytesRemaining.toNat - n.toNat, data.getD a 0 =
      Memory.read s.mem (s.bufBase + (u.totalBytes.toNat - u.bytesRemaining.toNat + a))) :
    s.Delivered m { u.spendInterrupt with
      timcmp := v, readCursor := c, bytesRemaining := n, bank := loadLanes u.params.shifterBytes u.bank data
      inIrq := false } where
  trace := h.trace
  flight := fun i hi => (bankBeat_loadLanes_sreg _ _ _ _ _).trans (h.flight i hi)
  waiting := fun _ i hi => by
    have hloaded := h.count
    rw [State.waitingBeats_free (State.bankFull_eq_false hu.bank_ne_nil hready), Nat.add_zero] at hloaded
    refine (bankBeat_loadLanes_buf hu.params hu.bank data (hi.trans_le hbeats)).trans ?_
    show beatOfBytes u.params data i = _
    rw [k.params] at hloaded hcount ⊢
    rw [beatOfBytes_eq, State.bufferBeat_eq]
    refine beatOfUnit_congr fun b hb => ?_
    have hin : i * s.params.bytesPerBeat + b < u.bytesRemaining.toNat - n.toNat := by
      rw [← hcount]
      calc i * s.params.bytesPerBeat + b < (i + 1) * s.params.bytesPerBeat := by rw [Nat.succ_mul]; omega
        _ ≤ (beatsOfCompare v).toNat * s.params.bytesPerBeat := Nat.mul_le_mul_right _ hi
    rw [hdata _ hin, ← hloaded]
    congr 2
    show _ = (m + u.beatsLeft.toNat + i) * _ + b
    ring
  count := by
    have hloaded := h.count
    rw [State.waitingBeats_free (State.bankFull_eq_false hu.bank_ne_nil hready), Nat.add_zero] at hloaded
    show (m + u.beatsLeft.toNat + if (loadLanes u.params.shifterBytes u.bank data).all (fun l => !l.rdy) then
      (beatsOfCompare v).toNat else 0) * u.params.bytesPerBeat = u.totalBytes.toNat - n.toNat
    rw [if_pos (loadLanes_full _ _ _), Nat.add_mul, hloaded, hcount]
    omega

/-- A bank load sends the beats that waited. -/
theorem State.Delivered.bankLoad {s u : State} {m : Nat} (h : s.Delivered m u) (hu : u.Inv) (k : u.SessionInv)
    (hcan : u.canBankLoad = true) : s.Delivered m u.spendPeripheral.bankLoad := by
  obtain ⟨hleft, hfull⟩ := (hu.canBankLoad_iff k).1 hcan
  have hbank : u.spendPeripheral.bankLoad.bank = u.bank.map Lane.shiftIn :=
    State.bankLoad_burst_bank (s := u.spendPeripheral) k.mode hu.bank
  have hfree := hu.bankLoad_bankFull k
  exact {
    trace := h.trace
    flight := fun i hi => by
      have hwait := h.waiting hfull i hi
      rw [hleft] at hwait
      show bankBeat u.params Lane.sreg u.spendPeripheral.bankLoad.bank (0 + i) = _
      rw [hbank, bankBeat_shiftIn, Nat.zero_add, hwait]
      rfl
    waiting := fun hf => absurd (hfree.symm.trans hf) Bool.false_ne_true
    count := by
      have hcount := h.count
      rw [State.waitingBeats_full hfull, hleft] at hcount
      rw [State.waitingBeats_free hfree]
      exact hcount }

/-- A write beat sends the next beat of the buffer. -/
theorem State.Delivered.writeBeat {s u : State} {m : Nat} (h : s.Delivered m u) (hu : u.Inv) (k : u.SessionInv)
    (hsame : s.SameSession u) (hcan : u.canWriteBeat = true) : s.Delivered (m + 1) u.spendPeripheral.writeBeat := by
  obtain ⟨hleft, -⟩ := hu.not_pending k hcan
  obtain ⟨-, -, hmax, -⟩ := (Params.wf_iff _).1 hu.params
  have hbeats := hu.beats
  have hpred : (u.beatsLeft - 1).toNat + 1 = u.beatsLeft.toNat := by bv_omega
  have hnext : (u.beatIdx + 1).toNat = u.beatIdx.toNat + 1 := by bv_omega
  have hvalue : u.beatValue = s.bufferBeat s.bufBase m := h.flight 0 (by omega)
  rw [State.writeBeat_eq]
  exact {
    trace := by
      show u.trace ++ [.wbeat u.cs u.dc u.rd u.beatValue] = _
      rw [h.trace, hvalue, k.cs, k.dc, hsame.rd, State.beatEvents_succ, List.append_assoc]
    flight := fun i hi => by
      have hflight := h.flight (i + 1) (by change i < (u.beatsLeft - 1).toNat at hi; omega)
      show bankBeat u.params Lane.sreg u.bank ((u.beatIdx + 1).toNat + i) = _
      rw [hnext, Nat.add_assoc, Nat.add_comm 1 i, hflight, Nat.add_assoc, Nat.add_comm 1 i]
    waiting := fun hf i hi => by
      refine (h.waiting hf i hi).trans (congrArg _ ?_)
      show m + u.beatsLeft.toNat + i = m + 1 + (u.beatsLeft - 1).toNat + i
      omega
    count := by
      refine Eq.trans ?_ h.count
      show (m + 1 + (u.beatsLeft - 1).toNat + u.waitingBeats) * _ = _
      congr 2
      omega }

/-! ### The two refills (R192, R193) -/

/-- The scratch buffer of a session whose length is no whole number of bursts holds the bytes of the last, short one (R182). -/
def State.TailReady (s : State) : Prop :=
  ∀ a < s.totalBytes.toNat % s.params.burstBytes, s.finalBurstBuffer.getD a 0 = Memory.read s.mem
    (s.bufBase + (s.totalBytes.toNat - s.totalBytes.toNat % s.params.burstBytes + a))

/-- Less than a burst left is the length's remainder: what was loaded is a whole number of bursts. -/
theorem State.SessionInv.remaining_eq_mod {u : State} (k : u.SessionInv) (h0 : u.bytesRemaining ≠ 0)
    (hlt : u.bytesRemaining.toNat < u.params.burstBytes) :
    u.totalBytes.toNat % u.params.burstBytes = u.bytesRemaining.toNat := by
  obtain ⟨-, hloaded⟩ := k.cursor h0
  have hsplit : u.totalBytes.toNat = u.totalBytes.toNat - u.bytesRemaining.toNat + u.bytesRemaining.toNat :=
    (Nat.sub_add_cancel k.remaining_le).symm
  rw [hsplit, Nat.add_mod, hloaded, Nat.zero_add, Nat.mod_mod, Nat.mod_eq_of_lt hlt]

/-- The last refill loads the tail from the scratch buffer. -/
theorem State.Delivered.lastRefill {s u : State} {m : Nat} (h : s.Delivered m u) (hu : u.Inv) (k : u.SessionInv)
    (hsame : s.SameSession u) (htail : s.TailReady) (hready : u.allReady = true) (h0 : u.bytesRemaining ≠ 0)
    (hlt : u.bytesRemaining.toNat < u.params.burstBytes) :
    s.Delivered m { u.spendInterrupt with
      timcmp := compareValue (u.bytesRemaining.toNat / u.params.bytesPerBeat) u.divider
      readCursor := .final
      bytesRemaining := 0
      bank := loadLanes u.params.shifterBytes u.bank u.finalBurstBuffer
      inIrq := false } := by
  obtain ⟨-, -, hmax, -⟩ := (Params.wf_iff _).1 hu.params
  have hpos : 0 < u.bytesRemaining.toNat := by bv_omega
  have hdvd := k.remaining_beats h0
  have h1 : 1 ≤ u.bytesRemaining.toNat / u.params.bytesPerBeat :=
    Nat.div_pos (Nat.le_of_dvd hpos hdvd) u.params.bytesPerBeat_pos
  have h2 : u.bytesRemaining.toNat / u.params.bytesPerBeat ≤ u.params.burstBeats :=
    (Nat.div_lt_of_lt_mul (by rwa [Nat.mul_comm])).le
  have hlatch := beatsOfCompare_compareValue_toNat h1 (h2.trans hmax) u.divider
  refine h.refill hu hsame hready (Nat.zero_le _) k.remaining_le (hlatch.trans_le h2) ?_ fun a ha => ?_
  · rw [hlatch]
    exact Nat.div_mul_cancel hdvd
  · have hmod := k.remaining_eq_mod h0 hlt
    rw [hsame.scratch, ← hmod, hsame.totalBytes, hsame.params]
    refine htail a ?_
    rw [← hsame.totalBytes, ← hsame.params, hmod]
    exact ha

/-- A full refill loads the burst that the cursor stands at. -/
theorem State.Delivered.fullRefill {s u : State} {m : Nat} (h : s.Delivered m u) (hu : u.Inv) (k : u.SessionInv)
    (hsame : s.SameSession u) (hready : u.allReady = true) (hge : u.params.burstBytes ≤ u.bytesRemaining.toNat)
    {o : Nat} (hcur : u.readCursor = .live o) :
    s.Delivered m { u.spendInterrupt with
      bytesRemaining := u.bytesRemaining - BitVec.ofNat 32 u.params.burstBytes
      readCursor := .live (o + u.params.burstBytes)
      bank := loadLanes u.params.shifterBytes u.bank (u.memBytes (u.bufBase + o) u.params.burstBytes)
      inIrq := false } := by
  obtain ⟨-, -, hmax, -⟩ := (Params.wf_iff _).1 hu.params
  have h0 := State.bytesRemaining_ne_zero hu.params hge
  have hle := k.remaining_le
  obtain ⟨hlive, -⟩ := k.cursor h0
  have ho : o = u.totalBytes.toNat - u.bytesRemaining.toNat := by simpa [hcur] using hlive
  have hlatch : (beatsOfCompare u.timcmp).toNat = u.params.burstBeats := by
    rw [k.compare_full h0]
    exact beatsOfCompare_compareValue_toNat (Params.burstBeats_pos hu.params) hmax u.divider
  have hn : (u.bytesRemaining - BitVec.ofNat 32 u.params.burstBytes).toNat =
      u.bytesRemaining.toNat - u.params.burstBytes := by
    bv_omega
  refine h.refill (v := u.timcmp) hu hsame hready (hn.trans_le (Nat.sub_le _ _)) hle hlatch.le ?_ fun a ha => ?_
  · rw [hlatch, hn, Nat.sub_sub_self hge]
    rfl
  · rw [hn, Nat.sub_sub_self hge] at ha
    rw [State.memBytes_getD _ _ _ _ ha, hsame.mem _ ?_ ?_, ho, hsame.bufBase, Nat.add_assoc]
    · rw [hsame.bufBase]
      omega
    · rw [hsame.bufBase, ← hsame.totalBytes]
      omega

/-! ### The end of the session -/

/-- When the last burst is acknowledged nothing is left: not loaded, waiting, or in flight. -/
theorem State.SessionInv.nothing_left {u : State} (k : u.SessionInv) (hu : u.Inv) (htsf : u.tsf = true)
    (h1 : u.burstsRemaining = 1) : u.bytesRemaining = 0 ∧ u.bankFull = false ∧ u.beatsLeft = 0 := by
  have hcount := k.count
  rw [State.burstsOutstanding, htsf, h1, oneIf_true, show (1 : BitVec 32).toNat = 1 from rfl] at hcount
  refine ⟨?_, oneIf_eq_zero.1 (by omega), ?_⟩
  · by_contra h0
    have := ceilDiv_pos (Params.burstBytes_pos hu.params) (show 0 < u.bytesRemaining.toNat by bv_omega)
    omega
  · have hleft : decide (u.beatsLeft ≠ 0) = false := oneIf_eq_zero.1 (by omega)
    simpa using hleft

/-- The session that `s` begins has ended with the whole buffer on the bus. -/
def State.EndedBy (s t : State) : Prop :=
  t.done = true ∧ t.trace = s.trace ++ s.beatEvents (s.totalBytes.toNat / s.params.bytesPerBeat) ++
    [.drive .cs .high] ++ (if s.cbSlot then [.callback] else [])

/-- The last acknowledgement comes when the last beat has been sent. -/
theorem State.Delivered.finish {s u : State} {m : Nat} (h : s.Delivered m u) (hu : u.Inv) (k : u.SessionInv)
    (hsame : s.SameSession u) (htsf : u.tsf = true) (h1 : u.burstsRemaining = 1) :
    s.EndedBy u.spendInterrupt.sessionEnded := by
  obtain ⟨hbytes, hfree, hleft⟩ := k.nothing_left hu htsf h1
  have hcount := h.count
  rw [State.waitingBeats_free hfree, hleft, hbytes] at hcount
  have hall : s.totalBytes.toNat / s.params.bytesPerBeat = m := by
    rw [← hsame.totalBytes, ← hsame.params, show u.totalBytes.toNat = m * u.params.bytesPerBeat from hcount.symm]
    exact Nat.mul_div_cancel _ u.params.bytesPerBeat_pos
  refine ⟨rfl, ?_⟩
  show u.trace ++ [.drive .cs .high] ++ (if u.cbSlot then [.callback] else []) = _
  rw [h.trace, hsame.cbSlot, hall]

/-! ### Every move of the session -/

/-- The session that `s` begins is active in `u`, and what has been sent of it are beats of the buffer. -/
structure State.Delivering (s u : State) : Prop where
  inv : u.Inv
  active : u.done = false
  same : s.SameSession u
  delivered : ∃ m, s.Delivered m u

theorem State.Delivering.afterChoice {s u : State} (h : s.Delivering u) : s.Delivering u.afterChoice := by
  obtain ⟨hinv, hd, hsame, m, hm⟩ := h
  refine ⟨hinv.afterChoice, by simpa using hd, ?_, m, ?_⟩ <;> unfold State.afterChoice <;> split
  · exact { hsame with }
  · exact { hsame with }
  · exact { hm with }
  · exact { hm with }

/-- Every move of the session sends the next beat, brings the next ones nearer, or ends it with all of them sent. -/
theorem State.SessionMove.delivering {s u v : State} (h : u.SessionMove v) (htail : s.TailReady) (hu : s.Delivering u)
    (hv : v.Inv) : s.Delivering v ∨ s.EndedBy v := by
  obtain ⟨hinv, hd, hsame, m, hm⟩ := hu
  have k := hinv.session hd
  have hsame' := h.sameSession hinv hsame
  cases h with
  | accept | disable | count | store => exact .inl ⟨hv, hd, hsame', m, { hm with }⟩
  | lastRefill _ hp h0 hlt =>
    obtain ⟨-, -, hready⟩ := hinv.active_of_sePending hp
    exact .inl ⟨hv, hd, hsame', m, hm.lastRefill hinv k hsame htail hready h0 hlt⟩
  | fullRefill _ hp hge o hcur =>
    obtain ⟨-, -, hready⟩ := hinv.active_of_sePending hp
    exact .inl ⟨hv, hd, hsame', m, hm.fullRefill hinv k hsame hready hge hcur⟩
  | finish _ hp h1 =>
    obtain ⟨-, htsf⟩ := hinv.active_of_tcPending hp
    exact .inr (hm.finish hinv k hsame htsf h1)
  | bankLoad _ hcan => exact .inl ⟨hv, hd, hsame', m, hm.bankLoad hinv k hcan⟩
  | writeBeat _ hcan => exact .inl ⟨hv, by simpa using hd, hsame', m + 1, hm.writeBeat hinv k hsame hcan⟩

theorem step_delivering {s u v : State} (htail : s.TailReady) (hu : s.Delivering u) (h : step u = .next v) :
    s.Delivering v ∨ s.EndedBy v :=
  step_induction (P := fun u v => s.Delivering u → s.Delivering v ∨ s.EndedBy v) h (fun _ hu => .inl hu)
    (fun _ _ hP hu => hP hu.afterChoice)
    (fun _ _ _ hm hp hu => (perform_sessionMove hu.inv hu.active hm hp).delivering htail hu (perform_inv hu.inv hm hp)) hu

/-! ### The run -/

theorem run_succ_eq_next {s t : State} {k : Nat} (h : Host.Core.run Sys2Proof.core (k + 1) s = .next t) :
    ∃ u, step s = .next u ∧ Host.Core.run Sys2Proof.core k u = .next t := by
  have hcore : Sys2Proof.core.step s = step s := rfl
  cases hone : step s with
  | next u => exact ⟨u, rfl, (run_succ_of_step k hone).symm.trans h⟩
  | fault e | refused e => simp [Host.Core.run, hcore, hone] at h

/-- A run that has not met `Q` before its end keeps `P` up to there, if each step that does not meet `Q` does. -/
theorem run_until {P Q : State → Prop} (hstep : ∀ s t, P s → step s = .next t → P t ∨ Q t) {s t : State} {k : Nat}
    (hs : P s) (hrun : Host.Core.run Sys2Proof.core k s = .next t)
    (hnot : ∀ j u, j < k → Host.Core.run Sys2Proof.core j s = .next u → ¬ Q u) : P t ∨ Q t := by
  induction k generalizing s with
  | zero => cases hrun; exact .inl hs
  | succ k ih =>
    obtain ⟨u, hone, hrest⟩ := run_succ_eq_next hrun
    obtain hP | hQ := hstep s u hs hone
    · exact ih hP hrest fun j v hj hv => hnot (j + 1) v (by omega) ((run_succ_of_step j hone).trans hv)
    · cases k with
      | zero => cases hrest; exact .inr hQ
      | succ k => exact absurd hQ (hnot 1 u (by omega) (run_succ_of_step 0 hone))

/-! ### The start (R181 to R183) -/

theorem toNat_ofNat_of_lt {n : Nat} (h : n < 2 ^ 32) : (BitVec.ofNat 32 n).toNat = n :=
  (BitVec.toNat_ofNat n 32).trans (Nat.mod_eq_of_lt h)

/-- With the peripheral reset and nothing held no primitive is held up: what BURST finds there does not matter. -/
theorem State.Inv.reset_running {s : State} (hs : s.Inv) (hd : s.done = true) :
    ({ s.periphReset with fgBusy := false, held := none } : State).Running where
  inv :=
    { hs with
      bank := List.length_replicate
      lanes := fun l hl => List.eq_of_mem_replicate hl ▸ Lane.cleared_wide s.params
      busy := rfl
      held := fun i hi => by cases hi
      heldUp := fun hm => by cases hm
      beats := Nat.zero_le _
      idle := fun _ => ⟨rfl, rfl, fun _ => rfl, fun _ => cleared_allReady _ _⟩
      session := fun hd' => absurd (hd.symm.trans hd') (by decide) }
  done := hd
  free := rfl

/-- The start phase has the invariant: it overwrites all that a primitive held up may have left. -/
theorem State.Inv.sessionStarted {s : State} (hs : s.Inv) (hd : s.done = true) (hdiv : s.divider ≠ 0) (cb : Bool)
    {base total : Nat} (hpos : 0 < total) (hlt : total < 2 ^ 32) (hbeats : total % s.params.bytesPerBeat = 0)
    (hfits : base + total ≤ 2 ^ s.params.addrWidth) : (s.sessionStarted cb base total).Inv := by
  have hslot : ({ s.periphReset with cbSlot := cb, fgBusy := false, held := none } : State).Running :=
    (hs.reset_running hd).congr rfl
  have hopen := (hslot.configure (m := .multiBeatBurst) (by decide) hdiv).openSession rfl rfl .ack hpos hlt hbeats hfits
  exact hopen

/-- At its start a session has sent nothing, and nothing is on its way. -/
theorem State.sessionStarted_delivered {s : State} (hwf : s.params.wf = true) (cb : Bool) (base total : Nat) :
    (s.sessionStarted cb base total).Delivered 0 (s.sessionStarted cb base total) := by
  obtain ⟨h1, -⟩ := (Params.wf_iff _).1 hwf
  have hfree : (s.sessionStarted cb base total).bankFull = false := by
    rw [State.sessionStarted_eq]
    exact State.bankFull_eq_false (List.ne_nil_of_length_pos (by rwa [List.length_replicate])) (cleared_allReady _ _)
  have hleft : (s.sessionStarted cb base total).beatsLeft = 0 := by rw [State.sessionStarted_eq]
  exact {
    trace := (List.append_nil _).symm
    flight := fun i hi => by simp [hleft] at hi
    waiting := fun hf => absurd (hfree.symm.trans hf) Bool.false_ne_true
    count := by
      rw [State.waitingBeats_free hfree, hleft, State.sessionStarted_eq]
      simp }

/-- The start phase copies the tail (R182). -/
theorem State.sessionStarted_tailReady {s : State} (cb : Bool) (base : Nat) {total : Nat} (hlt : total < 2 ^ 32) :
    (s.sessionStarted cb base total).TailReady := by
  rw [State.sessionStarted_eq]
  intro a ha
  simp only [toNat_ofNat_of_lt hlt] at ha ⊢
  rw [if_neg (by omega), List.getD_append _ _ _ _ (by simpa using ha), State.memBytes_getD _ _ _ _ ha, Nat.add_assoc]

/-- A session that starts is delivering its buffer, to which the caller stores nothing. -/
theorem State.Inv.delivering {s : State} (hs : s.Inv) (hd : s.done = true) (hdiv : s.divider ≠ 0) (cb : Bool)
    {base total : Nat} (hpos : 0 < total) (hlt : total < 2 ^ 32) (hbeats : total % s.params.bytesPerBeat = 0)
    (hfits : base + total ≤ 2 ^ s.params.addrWidth)
    (hstores : ∀ c ∈ s.hostStores, c.1 < base ∨ base + total ≤ c.1) :
    (s.sessionStarted cb base total).Delivering (s.sessionStarted cb base total) where
  inv := hs.sessionStarted hd hdiv cb hpos hlt hbeats hfits
  active := rfl
  same :=
    { params := rfl, rd := rfl, cbSlot := rfl, bufBase := rfl, totalBytes := rfl, scratch := rfl
      mem := fun _ _ _ => rfl
      stores := by
        rw [State.sessionStarted_eq]
        simpa only [toNat_ofNat_of_lt hlt] using hstores }
  delivered := ⟨0, State.sessionStarted_delivered hs.params cb base total⟩

/-- The events of a session that has ended are those of its buffer. -/
theorem State.EndedBy.trace_eq {s t : State} {cb : Bool} {base total : Nat} (hlt : total < 2 ^ 32)
    (h : (s.sessionStarted cb base total).EndedBy t) : t.trace = s.trace ++ s.sessionEvents s.rd base total cb := by
  obtain ⟨-, htrace⟩ := h
  rw [htrace, State.sessionStarted_eq]
  simp [State.beatEvents, State.sessionEvents, State.bufferBeat, toNat_ofNat_of_lt hlt]

/-- Settles O53: from its start to its end a session is delivering its buffer, and it ends with all of it delivered. -/
theorem sessionDeliversTheBuffer : Obligations.SessionDeliversTheBuffer := by
  intro cb base count s s1 t k hs hd hstores h0 hexec hrun ht hactive
  obtain ⟨-, hdiv, ⟨-, hstart⟩ | ⟨hd', -⟩⟩ := admitTransfer_eq_next hexec
  · obtain ⟨hlt, hfits, ⟨h0', -⟩ | ⟨-, hs1⟩⟩ := startBurst_eq_next hstart
    · exact absurd h0' h0
    · obtain rfl : s1 = s.sessionStarted cb base (burstLength s.params count) := hs1
      have hdelivering := hs.delivering hd hdiv cb (burstLength_pos hs.params h0) hlt
        (burstLength_beats hs.params count) hfits hstores
      have htail := State.sessionStarted_tailReady (s := s) cb base hlt
      obtain hP | hQ := run_until (fun _ _ => step_delivering htail) hdelivering hrun
        (fun j u hj hu ⟨hdone, _⟩ => Bool.false_ne_true ((hactive j u hj hu).symm.trans hdone))
      · exact absurd ht (by simp [hP.active])
      · exact hQ.trace_eq hlt
  · simp [hd] at hd'

end Sys2Proof.Machine

/-! Interrupts and the callback (60_exceptions.md R229 to R239): what a pending interrupt holds off, entry to a handler and
return from it, and what becomes of an operation issued during a session or from the completion callback. -/

namespace Sys2Proof.Machine

/-! ### Pending interrupts come first (R229) -/

theorem State.preempted_iff (s : State) :
    s.preempted = true ↔ (s.sePending = true ∨ s.tcPending = true) ∧ s.inIrq = false := by
  simp [State.preempted]

theorem State.not_accept_of_preempted {s : State} (h : s.preempted = true) : s.canMove .accept = false := by
  obtain ⟨hp | hp, -⟩ := s.preempted_iff.1 h <;> simp [State.canMove, State.canAccept, hp]

theorem State.not_resume_of_preempted {s : State} (h : s.preempted = true) : s.canMove .resume = false := by
  obtain ⟨hp | hp, -⟩ := s.preempted_iff.1 h <;> simp [State.canMove, State.canResume, hp]

theorem State.canWriteBeat_of_preempted {s : State} (h : s.preempted = true) : s.canWriteBeat = false := by
  simp [State.canWriteBeat, h]

theorem State.not_writeBeat_of_preempted {s : State} (h : s.preempted = true) : s.canMove .writeBeat = false := by
  simp [State.canMove, State.canWriteBeat_of_preempted h]

theorem State.canShifterEmpty_iff (s : State) :
    s.canShifterEmpty = true ↔ s.sePending = true ∧ s.inIrq = false := by
  simp [State.canShifterEmpty]

theorem State.canBurstComplete_iff (s : State) :
    s.canBurstComplete = true ↔ s.tcPending = true ∧ s.inIrq = false := by
  simp [State.canBurstComplete]

/-- Settles O40: both foreground guards and the guard of the write beat ask that nothing pre-empts, and the source that is
pending enables its handler. -/
theorem pendingInterruptsComeFirst : Obligations.PendingInterruptsComeFirst := by
  intro s hp hirq
  have hpre : s.preempted = true := s.preempted_iff.2 ⟨hp, hirq⟩
  exact ⟨State.not_accept_of_preempted hpre, State.not_resume_of_preempted hpre, State.canWriteBeat_of_preempted hpre,
    State.not_writeBeat_of_preempted hpre,
    hp.imp (fun h => s.canShifterEmpty_iff.2 ⟨h, hirq⟩) (fun h => s.canBurstComplete_iff.2 ⟨h, hirq⟩)⟩

/-! ### Entry and return (R230, R231) -/

theorem State.sePending_iff (s : State) :
    s.sePending = true ↔ s.mode = .multiBeatBurst ∧ s.sien = true ∧ ∀ l ∈ s.bank, l.rdy = true := by
  simp [State.sePending, State.allReady, and_assoc]

/-- While a handler runs no handler is entered, whatever is pending. -/
theorem State.not_handler_of_inIrq {s : State} (h : s.inIrq = true) :
    s.canMove .shifterEmpty = false ∧ s.canMove .burstComplete = false := by
  simp [State.canMove, State.canShifterEmpty, State.canBurstComplete, h]

/-- A handler returns from the interrupt context. -/
theorem handle_inIrq {body : State → Result} {s t : State} (h : handle body s = .next t) : t.inIrq = false := by
  obtain ⟨u, -, rfl⟩ := handle_eq_next h
  exact State.leaveIrq_inIrq u

/-- The shifter-empty handler leaves the other source as it was. -/
theorem shifterEmptyHandler_tcPending {s t : State} (h : shifterEmptyHandler s = .next t) :
    t.tcPending = s.tcPending := by
  obtain ⟨-, rfl⟩ | ⟨-, -, rfl⟩ | ⟨-, o, -, -, rfl⟩ := shifterEmptyHandler_eq_next h <;> rfl

/-- The burst-complete handler leaves the other source as it was. -/
theorem burstCompleteHandler_sePending {s t : State} (h : burstCompleteHandler s = .next t) :
    t.sePending = s.sePending := by
  obtain ⟨-, -, rfl⟩ | ⟨-, -, rfl⟩ := burstCompleteHandler_cases h <;> rfl

/-- Settles O35: each handler leaves the other source pending and returns; the faults are those that the invariant
excludes. -/
theorem interruptEntryAndReturn : Obligations.InterruptEntryAndReturn := by
  refine ⟨fun s => ⟨rfl, rfl, rfl, rfl⟩, fun s => ?guard, fun s => State.not_handler_of_inIrq,
    fun s t hse htc => ⟨fun h => ?burstNext, fun h => ?refillNext⟩,
    fun s hs => ⟨fun hcan => ?refillFault, fun hcan => ?burstFault⟩⟩
  case guard => rw [State.canShifterEmpty_iff, State.sePending_iff, and_assoc, and_assoc]
  case burstNext =>
    exact t.canBurstComplete_iff.2 ⟨(shifterEmptyHandler_tcPending h).trans htc, handle_inIrq h⟩
  case refillNext =>
    exact t.canShifterEmpty_iff.2 ⟨(burstCompleteHandler_sePending h).trans hse, handle_inIrq h⟩
  case refillFault =>
    obtain ⟨hp, -⟩ := s.canShifterEmpty_iff.1 hcan
    exact noFault_of_forall (shifterEmptyHandler_noFault hs hp)
  case burstFault =>
    obtain ⟨hp, -⟩ := s.canBurstComplete_iff.1 hcan
    exact noFault_of_forall (burstCompleteHandler_noFault hs hp)

/-! ### Operations during a session (R88, R237) -/

/-- Only a transfer operation is not refused during a session. -/
theorem isTransfer_of_exec_session {i : Instr} {s t : State} (hd : s.done = false) (h : exec i s = .next t) :
    i.isTransfer = true := by
  by_contra hi
  obtain ⟨run, hrun⟩ := exec_eq_admitControl (by simpa using hi)
  rw [hrun] at h
  obtain ⟨-, hdone, -⟩ := admitControl_eq_next h
  simp [hd] at hdone

/-- Settles O25: what is not refused during a session is a transfer operation, and it holds on `done`. -/
theorem foregroundOnlyHoldsDuringSession : Obligations.ForegroundOnlyHoldsDuringSession := fun _ _ _ hd h =>
  ⟨isTransfer_of_exec_session hd h, exec_session hd h⟩

/-! ### Operations from the callback (R239) -/

/-- Calling a callback whose host code presents an operation is refused. -/
theorem runCallback_of_operation {s : State} {p : Instr × List PortWord} (hslot : s.cbSlot = true)
    (hp : decode s.params.addrWidth s.callbackPort = .ok p) : runCallback s = .refused .opFromCallback := by
  rw [runCallback, if_pos hslot, hp]

/-- The run of the burst-complete handler for the last burst: the session is closed, then the callback called (R196). -/
theorem burstCompleteHandler_last {s : State} (h1 : s.burstsRemaining = 1) :
    burstCompleteHandler s = andThen (runCallback s.enterIrq.ackBurst.closeSession) (fun t => .next t.leaveIrq) := by
  have h0 : s.burstsRemaining ≠ 0 := by bv_omega
  have hleft : s.burstsRemaining - 1 = 0 := by bv_omega
  have hbody : burstCompleteBody s.enterIrq = runCallback s.enterIrq.ackBurst.closeSession :=
    (if_neg h0).trans (if_pos hleft)
  rw [burstCompleteHandler, handle, hbody]

/-- BURST of an empty buffer is the call of its callback (R184). -/
theorem exec_burst_empty {cb : Bool} {base : Nat} {s : State} (hc : s.inCallback = false) (hdiv : s.divider ≠ 0)
    (hd : s.done = true) (hbase : base ≤ 2 ^ s.params.addrWidth) :
    exec (.burst cb base 0) s = andThen (runCallback { s with cbSlot := cb }) (fun u => .next (u.ret .ack)) := by
  have hlen : burstLength s.params 0 = 0 := by simp [burstLength]
  rw [exec_burst_run hc hdiv hd, startBurst_accepted (by omega) (by omega), if_pos rfl]

/-- Settles O24: admission asks `inCallback` first, and both places that call the callback pass its refusal on. -/
theorem operationsFromTheCallbackAreRefused : Obligations.OperationsFromTheCallbackAreRefused := by
  refine ⟨fun i s => exec_callback, fun i rest s hp hslot h1 => ?handler,
    fun i rest base s hp hc hdiv hd hbase => ?emptyBurst⟩
  case handler =>
    rw [burstCompleteHandler_last h1, runCallback_of_operation (by exact hslot) (by exact hp), andThen_refused]
  case emptyBurst =>
    rw [exec_burst_empty hc hdiv hd hbase, runCallback_of_operation rfl (by exact hp), andThen_refused]

end Sys2Proof.Machine

/-! Reset and hazards (70_reset_and_hazards.md R252 to R272): the first operation, the launch state, that a session has no
hang of its own, and the end of a run. -/

namespace Sys2Proof.Machine

/-! ### After reset (R252, R255) -/

/-- The launch state is the effect of INIT, which finds the rest of the block as it leaves it. -/
theorem launch_eq (p : Params) (sel : BitVec 8) :
    launch p sel = .next { State.resetWith p with
      divider := dividerOfSelector sel, trace := [.drive .cs .high, .drive .rd .high], responses := [.ack] } := by
  obtain ⟨-, -, -, -, -, hrun⟩ := initSelectsTheDividerAndResetsTheEngine sel (State.resetWith p)
  exact hrun rfl rfl

/-- Settles O47: the effect of INIT from reset; each of its two drives writes the level that reset has left. -/
theorem launchState : Obligations.LaunchState := by
  intro p sel
  refine ⟨launch_eq p sel, ?_⟩
  calc observation .high .high .high [.drive .cs .high, .drive .rd .high]
      = observation .high .high .high [.drive .rd .high] := observation_drive_pin .cs (State.resetWith p) _
    _ = observation .high .high .high [] := observation_drive_pin .rd (State.resetWith p) _
    _ = [] := rfl

/-- Settles O46: reset leaves the divider 0, no session and no callback, which is all that admission asks. -/
theorem theFirstOperationMustBeInit : Obligations.TheFirstOperationMustBeInit := by
  intro p i
  refine ⟨fun hi => exec_transfer_dividerZero hi rfl rfl, fun m hm => execConfig_dividerZero hm rfl rfl rfl,
    fun hi => ?_, fun sel => ⟨_, launch_eq p sel, rfl⟩⟩
  obtain ⟨a, ha⟩ := Option.isSome_iff_exists.1 hi
  exact ⟨_, exec_of_strobeTarget ha rfl rfl⟩

/-! ### No hang of a session's own (R262, R271, R272) -/

/-- Settles O51: each guard of a session is that of a move of one of the two agents, which takes it where it is live. -/
theorem anActiveSessionAlwaysHasAStep : Obligations.AnActiveSessionAlwaysHasAStep := by
  intro s hs hd
  have hguard := hs.session_guard (hs.session hd)
  refine ⟨hguard, fun hperiph hirq => ?_⟩
  obtain h | h | h | h := hguard
  · exact .inl (s.interruptLive_and_iff.2 ⟨hirq, h⟩)
  · exact .inr (.inl (s.interruptLive_and_iff.2 ⟨hirq, h⟩))
  · exact .inr (.inr (.inl (s.peripheralLive_and_iff.2 ⟨hperiph, h⟩)))
  · exact .inr (.inr (.inr (s.peripheralLive_and_iff.2 ⟨hperiph, h⟩)))

/-! ### The end of a run (R262) -/

theorem State.runOver_iff (s : State) :
    s.runOver = true ↔ s.fgBusy = false ∧ s.port = [] ∧ s.done = true ∧ s.sePending = false ∧ s.tcPending = false ∧
      s.inIrq = false ∧ s.beatsLeft = 0 := by
  simp [State.runOver, and_assoc]

/-- Outside a session a peripheral that is not stuck has nothing to do. -/
theorem State.Inv.peripheral_rests {s : State} (hs : s.Inv) (hd : s.done = true) {guard : Bool}
    (hguard : guard = true → s.canBankLoad = true ∨ s.canWriteBeat = true ∨ s.canReadBeat = true) :
    (s.peripheralLive && guard) = false := by
  by_contra hm
  obtain ⟨hlive, hcan⟩ := Bool.and_eq_true_iff.1 (Bool.eq_true_of_not_eq_false hm)
  exact Bool.false_ne_true ((hs.active_of_peripheral hlive (hguard hcan)).symm.trans hd)

/-- A foreground that is not busy has no operation to go on with. -/
theorem State.Inv.not_resume_of_free {s : State} (hs : s.Inv) (hbusy : s.fgBusy = false) :
    s.canMove .resume = false := by
  have hheld : s.held = none := by simpa using hs.busy.symm.trans hbusy
  exact State.not_canMove_resume (by rw [State.holdLifted, hheld])

/-- Where a run is over only a store of the caller can come. -/
theorem State.Inv.not_canMove_of_runOver {s : State} (hs : s.Inv) (hover : s.runOver = true) {m : Move}
    (hm : m ≠ .hostStore) : s.canMove m = false := by
  obtain ⟨hbusy, hport, hdone, hse, htc, -, -⟩ := s.runOver_iff.1 hover
  cases m with
  | shifterEmpty => simp [State.canMove, State.canShifterEmpty, hse]
  | burstComplete => simp [State.canMove, State.canBurstComplete, htc]
  | bankLoad => exact hs.peripheral_rests hdone .inl
  | writeBeat => exact hs.peripheral_rests hdone fun h => .inr (.inl h)
  | readBeat => exact hs.peripheral_rests hdone fun h => .inr (.inr h)
  | accept => exact State.not_accept_of_port hport
  | resume => exact hs.not_resume_of_free hbusy
  | hostStore => exact absurd rfl hm

/-- Settles O60: no move is enabled. -/
theorem aRunThatIsOverStaysOver : Obligations.ARunThatIsOverStaysOver := by
  intro s hs hover hstores
  refine step_of_enabled_nil hs.params (List.eq_nil_iff_forall_not_mem.2 fun m hm => ?_)
  have hcan : s.canMove m = true := (mem_enabled s m).1 hm
  by_cases hstore : m = .hostStore
  · simp [hstore, State.canMove, hstores] at hcan
  · simp [hs.not_canMove_of_runOver hover hstore] at hcan

end Sys2Proof.Machine
